-- ==== Sys2Proof/Word.lean ====
section
/-! DEFINITION. The word types: a register word of 32 bits (00_scope.md R6, `XLEN`) and a byte of the stream. -/

namespace Sys2Proof

/-- A 32-bit register, command word or candidate distance (00_scope.md R6). -/
abbrev Word := BitVec 32

/-- One cell of `IN` or `OUT` (20_memory.md R50). -/
abbrev Byte := BitVec 8

end Sys2Proof
end

