-- ==== Sys2Proof/Config.lean ====
section
/-! DEFINITION. What an implementation fixes (the open parameters of 00_scope.md R6), the four address spaces,
and the one free value: the contents of a cell nobody has written. -/

namespace Sys2Proof

/-- The four address spaces of 20_memory.md R50: `IN`, `OUT`, `DATA`, `CAND`. -/
inductive Space where
  | input
  | output
  | data
  | cand
deriving DecidableEq, Repr

/-- The open parameters of 00_scope.md R6. They are data of the state (log entry 1), so a statement over all
states holds for all their values. -/
structure Config where
  /-- `ELEM_W`, bits of one element of `DATA`. -/
  elemW : Nat
  /-- `IN_CAP`, bytes of `IN`. -/
  inCap : Nat
  /-- `OUT_CAP`, bytes of `OUT`. -/
  outCap : Nat
  /-- `DATA_CAP`, elements of `DATA`. -/
  dataCap : Nat
  /-- `CAND_CAP`, entries of `CAND`. -/
  candCap : Nat
deriving DecidableEq, Repr

/-- DESIGN CHOICE (log entry 1): the values State.reset carries, those the vectors of 95_test_vectors.md
assume. No statement rests on them. -/
def Config.reference : Config :=
  { elemW := 8, inCap := 64, outCap := 64, dataCap := 64, candCap := 16 }

/-- FREE VALUE (log entry 2): what the cell `index` of a space holds from power-up until it is written
(93_implementation_defined.md U4, "any value"). The reader of a cell cuts it to the cell's width. -/
opaque Config.unwritten : Space → Nat → Nat

end Sys2Proof
end

