-- ==== Sys2Proof/Syntax.lean ====
section
/-! DEFINITION. The 31 commands of 30_encoding.md R73. A command word holds no operand (R72, R75), so no
constructor has a field. -/

namespace Sys2Proof

/-- One constructor per row of the opcode table (30_encoding.md R73), in its order. -/
inductive Instr where
  /-- `BW.NEW`, 40_bitwidth_tbv.md R101. -/
  | bwNew
  /-- `BW.NEWU`, R102. -/
  | bwNewu
  /-- `BW.MASK`, R103. -/
  | bwMask
  /-- `BW.POW2`, R104. -/
  | bwPow2
  /-- `TBV.NEW`, R105. -/
  | tbvNew
  /-- `TBV.NEWC`, R106. -/
  | tbvNewc
  /-- `TBV.REVD`, R107. -/
  | tbvRevd
  /-- `TBV.REV`, R108. -/
  | tbvRev
  /-- `TBV.EQ`, R109. -/
  | tbvEq
  /-- `NPOT`, R110. -/
  | npot
  /-- `W.NEW`, 41_writer.md R121. -/
  | wNew
  /-- `W.PUSH`, R122. -/
  | wPush
  /-- `W.PBOOL`, R123. -/
  | wPbool
  /-- `W.PBYTE`, R124. -/
  | wPbyte
  /-- `W.PNIB`, R125. -/
  | wPnib
  /-- `W.ALIGN`, R126. -/
  | wAlign
  /-- `W.BITCNT`, R127. -/
  | wBitcnt
  /-- `W.FIN`, R128. -/
  | wFin
  /-- `R.NEW`, 42_reader.md R142. -/
  | rNew
  /-- `R.BOOL`, R144. -/
  | rBool
  /-- `R.NIB`, R145. -/
  | rNib
  /-- `R.BYTE`, R146. -/
  | rByte
  /-- `R.BITS`, R143. -/
  | rBits
  /-- `R.PEEK`, R147. -/
  | rPeek
  /-- `R.ADV`, R148. -/
  | rAdv
  /-- `R.ALIGN`, R149. -/
  | rAlign
  /-- `R.NXBYTE`, R151. -/
  | rNxbyte
  /-- `R.NXARR`, R152. -/
  | rNxarr
  /-- `R.NXSLC`, R153. -/
  | rNxslc
  /-- `M.LEN`, 43_match.md R173. -/
  | mLen
  /-- `M.FIND`, R174. -/
  | mFind
deriving DecidableEq, Repr

/-- The four families of commands; the opcode's high nibble names the family (30_encoding.md R73). -/
inductive Family where
  | fieldLogic
  | writer
  | reader
  | matchUnit
deriving DecidableEq, Repr

/-- The family a command belongs to (30_encoding.md R73, the section files 40 to 43). -/
def Instr.family : Instr → Family
  | .bwNew | .bwNewu | .bwMask | .bwPow2 | .tbvNew | .tbvNewc | .tbvRevd | .tbvRev | .tbvEq | .npot => .fieldLogic
  | .wNew | .wPush | .wPbool | .wPbyte | .wPnib | .wAlign | .wBitcnt | .wFin => .writer
  | .rNew | .rBool | .rNib | .rByte | .rBits | .rPeek | .rAdv | .rAlign | .rNxbyte | .rNxarr | .rNxslc => .reader
  | .mLen | .mFind => .matchUnit

/-- The high nibble of a family's opcodes (30_encoding.md R73). -/
def Family.nibble : Family → Nat
  | .fieldLogic => 1
  | .writer => 2
  | .reader => 3
  | .matchUnit => 4

end Sys2Proof
end

