-- ==== Sys2Proof/WellFormed.lean ====
section
/-! DEFINITION. What makes a term well formed: a command word (30_encoding.md R72, R74), an instruction, and the
parameters of 00_scope.md R6. -/

namespace Sys2Proof

/-- The 31 opcodes of 30_encoding.md R73, as the ranges R74 leaves: 0x10 to 0x19, 0x20 to 0x27, 0x30 to 0x3A,
0x40 and 0x41. -/
def listedOpcode (op : Nat) : Bool :=
  (0x10 ≤ op && op ≤ 0x19) || (0x20 ≤ op && op ≤ 0x27) || (0x30 ≤ op && op ≤ 0x3A) || (0x40 ≤ op && op ≤ 0x41)

/-- A legal command word: bits 31:8 zero and `op` listed (30_encoding.md R74). -/
def legalWord (c : Word) : Bool :=
  c.toNat / 2 ^ 8 == 0 && listedOpcode (c.toNat % 2 ^ 8)

/-- Every instruction is well formed: a command word has no operand field to check (30_encoding.md R72). -/
def Instr.wf : Instr → Bool
  | .bwNew | .bwNewu | .bwMask | .bwPow2 | .tbvNew | .tbvNewc | .tbvRevd | .tbvRev | .tbvEq | .npot => true
  | .wNew | .wPush | .wPbool | .wPbyte | .wPnib | .wAlign | .wBitcnt | .wFin => true
  | .rNew | .rBool | .rNib | .rByte | .rBits | .rPeek | .rAdv | .rAlign | .rNxbyte | .rNxarr | .rNxslc => true
  | .mLen | .mFind => true

/-- The constraints of 00_scope.md R6 on the open parameters. -/
abbrev Config.wf (c : Config) : Prop :=
  1 ≤ c.elemW ∧ c.inCap ≤ 2 ^ 32 - 1 ∧ c.outCap ≤ 2 ^ 29 - 1 ∧ c.dataCap ≤ 2 ^ 32 - 1 ∧ c.candCap ≤ 2 ^ 32 - 1

end Sys2Proof
end

