-- ==== Sys2Proof/Decode.lean ====
section
/-! DEFINITION. The decoder of a command word (30_encoding.md R71 to R74), total and rejecting by name, and the
encoder. -/

namespace Sys2Proof

/-- Why a word is no command (30_encoding.md R74). -/
inductive DecodeError where
  /-- Some bit of `c[31:8]` is 1. -/
  | highBitsNotZero
  /-- `c[7:0]` is one of the 225 codes not listed. -/
  | unlistedOpcode
deriving DecidableEq, Repr

/-- The opcode map of 30_encoding.md R73. -/
def opcodeMap (op : Nat) : Option Instr :=
  match op with
  | 0x10 => some .bwNew
  | 0x11 => some .bwNewu
  | 0x12 => some .bwMask
  | 0x13 => some .bwPow2
  | 0x14 => some .tbvNew
  | 0x15 => some .tbvNewc
  | 0x16 => some .tbvRevd
  | 0x17 => some .tbvRev
  | 0x18 => some .tbvEq
  | 0x19 => some .npot
  | 0x20 => some .wNew
  | 0x21 => some .wPush
  | 0x22 => some .wPbool
  | 0x23 => some .wPbyte
  | 0x24 => some .wPnib
  | 0x25 => some .wAlign
  | 0x26 => some .wBitcnt
  | 0x27 => some .wFin
  | 0x30 => some .rNew
  | 0x31 => some .rBool
  | 0x32 => some .rNib
  | 0x33 => some .rByte
  | 0x34 => some .rBits
  | 0x35 => some .rPeek
  | 0x36 => some .rAdv
  | 0x37 => some .rAlign
  | 0x38 => some .rNxbyte
  | 0x39 => some .rNxarr
  | 0x3A => some .rNxslc
  | 0x40 => some .mLen
  | 0x41 => some .mFind
  | _ => none

/-- Decoding of a command word (30_encoding.md R71, R74): bits 31:8 first, then the opcode. -/
def decode (c : Word) : Except DecodeError Instr :=
  if c.toNat / 2 ^ 8 ≠ 0 then .error .highBitsNotZero
  else match opcodeMap (c.toNat % 2 ^ 8) with
    | some i => .ok i
    | none => .error .unlistedOpcode

/-- The opcode of a command (30_encoding.md R73). -/
def opcode : Instr → Nat
  | .bwNew => 0x10
  | .bwNewu => 0x11
  | .bwMask => 0x12
  | .bwPow2 => 0x13
  | .tbvNew => 0x14
  | .tbvNewc => 0x15
  | .tbvRevd => 0x16
  | .tbvRev => 0x17
  | .tbvEq => 0x18
  | .npot => 0x19
  | .wNew => 0x20
  | .wPush => 0x21
  | .wPbool => 0x22
  | .wPbyte => 0x23
  | .wPnib => 0x24
  | .wAlign => 0x25
  | .wBitcnt => 0x26
  | .wFin => 0x27
  | .rNew => 0x30
  | .rBool => 0x31
  | .rNib => 0x32
  | .rByte => 0x33
  | .rBits => 0x34
  | .rPeek => 0x35
  | .rAdv => 0x36
  | .rAlign => 0x37
  | .rNxbyte => 0x38
  | .rNxarr => 0x39
  | .rNxslc => 0x3A
  | .mLen => 0x40
  | .mFind => 0x41

/-- The command word of a command: its opcode, zero-extended (30_encoding.md R72). -/
def encode (i : Instr) : Word :=
  BitVec.ofNat 32 (opcode i)

/-- The instruction the decoder reads from a row's word of `nbits` bits, the bits above being 0. A command is
one word of 32 bits (30_encoding.md R72), so a longer number is no command. -/
def decodeTableWord (nbits w : Nat) : Option Instr :=
  let v := w % 2 ^ nbits
  if 2 ^ 32 ≤ v then none
  else match decode (BitVec.ofNat 32 v) with
    | .ok i => some i
    | .error _ => none

end Sys2Proof
end

