-- ==== Sys2Proof/Machine/State.lean ====
section
/-! DEFINITION. The state of the unit (10_state.md R20), as plain data, its value after reset (R43), the reasons a
step of the model can stop, and the host's actions. -/

namespace Sys2Proof.Machine

/-- The contents of one address space: the cells that were written, as (index, contents) pairs with strictly
rising indices. A cell that is not listed has not been written; what it reads as is said in Ops.lean. -/
abbrev Memory (α : Type) := List (Nat × α)

/-- The canonical form: indices strictly rising. (An unlisted cell has no listed value, so no entry can equal
what an unlisted cell holds.) -/
abbrev Memory.wf {α : Type} (m : Memory α) : Prop :=
  m.Pairwise fun x y => x.1 < y.1

/-- Cells the host writes with one `MEM` statement (30_encoding.md R77), each space with its own cell type
(20_memory.md R50). An element of `DATA` is a bit pattern of `ELEM_W` bits, carried as a number (R53). -/
inductive CellList where
  | input (cells : List Byte)
  | output (cells : List Byte)
  | data (cells : List Nat)
  | cand (cells : List Word)
deriving DecidableEq, Repr

/-- One action of the host (30_encoding.md R77, R84; 10_state.md R28; 20_memory.md R64; 70_reset_and_hazards.md
R220). The host acts between commands only. -/
inductive HostAction where
  /-- The host writes a register by its number (10_state.md R27, R28). -/
  | writeReg (number : Nat) (value : Word)
  /-- The host reads a register by its number; the value it gets is `readReg` of Port.lean. -/
  | readReg (number : Nat)
  /-- `MEM <space>[<index>] = <list>` (30_encoding.md R77). -/
  | writeMem (index : Nat) (cells : CellList)
  /-- The host reads one cell of a space (20_memory.md R64). -/
  | readMem (space : Space) (index : Nat)
  /-- The host writes a command word to `CMD` (30_encoding.md R70). -/
  | command (c : Word)
  /-- The host asserts reset (70_reset_and_hazards.md R220). -/
  | reset
deriving DecidableEq, Repr

/-- Why a step of the MODEL stops. A fatal fault of the unit is none of these: it is a next state
(60_exceptions.md R201). -/
inductive Fault where
  /-- An access at or beyond the length in force or the capacity (20_memory.md R66: "should fault if its own step
  ever asks for one"). Raised by the memory operations of Ops.lean, and by a host access to a cell that does not
  exist (R50). Safe: the model stops. -/
  | outOfBounds (space : Space) (index : Nat)
  /-- A host statement writes a number that is no `ELEM_W`-bit pattern into `DATA` (20_memory.md R53). Raised by
  Port.lean (log entry 5). Safe: the model stops. -/
  | elementTooWide (index value : Nat)
deriving DecidableEq, Repr

/-- Why the model has no meaning to give. (The unit's own refusal of 60_exceptions.md R202 is not this: a faulted
unit goes on, with no change.) -/
inductive Refusal where
  /-- An instruction without a meaning; raised by exec's arms only, of which none is left. Safe. -/
  | notModelled (mnemonic : String)
deriving DecidableEq, Repr

/-- The state of the unit, one field per item of 10_state.md R20, and the model's own `cfg` and `queue`. -/
structure State where
  /-- `A0` (10_state.md R21). -/
  a0 : Word
  /-- `A1` (R21). -/
  a1 : Word
  /-- `A2` (R21). -/
  a2 : Word
  /-- `A3` (R21). -/
  a3 : Word
  /-- `A4` (R21). -/
  a4 : Word
  /-- `A5` (R21). -/
  a5 : Word
  /-- `R0` (R22). -/
  r0 : Word
  /-- `R1` (R22). -/
  r1 : Word
  /-- `ST.V` (R24). -/
  stV : Bool
  /-- `ST.F` (R24). -/
  stF : Bool
  /-- `ST.CAUSE` (R24). -/
  stCause : BitVec 8
  /-- `DLEN` (R26). -/
  dlen : Word
  /-- `WOPEN` (R34). -/
  wopen : Bool
  /-- `WLEN` (R34). -/
  wlen : Word
  /-- `WACC` (R34). -/
  wacc : Byte
  /-- `WPOS` (R34). -/
  wpos : BitVec 3
  /-- `ROPEN` (R38). -/
  ropen : Bool
  /-- `RLEN` (R38). -/
  rlen : Word
  /-- `RIDX` (R38). -/
  ridx : Word
  /-- `RACC` (R38). -/
  racc : Word
  /-- `RLEFT` (R38). -/
  rleft : BitVec 5
  /-- Contents of `IN` (20_memory.md R51). -/
  inMem : Memory Byte
  /-- Contents of `OUT` (R52). -/
  outMem : Memory Byte
  /-- Contents of `DATA` (R53). -/
  dataMem : Memory Nat
  /-- Contents of `CAND` (R54). -/
  candMem : Memory Word
  /-- The model's own: the open parameters of 00_scope.md R6, which no step changes (log entry 1). -/
  cfg : Config
  /-- The model's own: the host's coming actions (30_encoding.md R84, log entry 3). -/
  queue : List HostAction
deriving DecidableEq, Repr

/-- The machine right after power-up and reset (10_state.md R43, 70_reset_and_hazards.md R221): every register and
session variable 0, no cell written. `cfg` and `queue` are the model's own (log entries 1 and 3). -/
def State.reset : State :=
  { a0 := 0, a1 := 0, a2 := 0, a3 := 0, a4 := 0, a5 := 0
    r0 := 0, r1 := 0
    stV := false, stF := false, stCause := 0
    dlen := 0
    wopen := false, wlen := 0, wacc := 0, wpos := 0
    ropen := false, rlen := 0, ridx := 0, racc := 0, rleft := 0
    inMem := [], outMem := [], dataMem := [], candMem := []
    cfg := Config.reference, queue := [] }

end Sys2Proof.Machine
end

