-- ==== Sys2Proof/Machine/Flags.lean ====
section
/-! DEFINITION. The status register `ST` (10_state.md R24, R25): its cause codes (60_exceptions.md R203), its word,
and the writes of its flags. -/

namespace Sys2Proof.Machine

/-- The fatal faults of 60_exceptions.md R203. -/
inductive Cause where
  | illegalCommand
  | invalidBitWidth
  | writerNotOpen
  | readerNotOpen
  | matchCurrentBeyondEnd
  | matchZeroDistance
  | matchDistanceBeyondStart
  | argUnderflow
  | outOverflow
  | lengthOutOfRange
  | npotOverflow
deriving DecidableEq, Repr

/-- The code of a fault (60_exceptions.md R203). -/
def causeCode : Cause → BitVec 8
  | .illegalCommand => 1
  | .invalidBitWidth => 2
  | .writerNotOpen => 3
  | .readerNotOpen => 4
  | .matchCurrentBeyondEnd => 5
  | .matchZeroDistance => 6
  | .matchDistanceBeyondStart => 7
  | .argUnderflow => 8
  | .outOverflow => 9
  | .lengthOutOfRange => 10
  | .npotOverflow => 11

/-- The word `ST` (10_state.md R24): `V` in bit 0, `F` in bit 1, the mirrors of `WOPEN` and `ROPEN` in bits 2 and
3, `CAUSE` in bits 15:8, zeros elsewhere. -/
def stWord (s : State) : Word :=
  BitVec.ofNat 32
    (s.stV.toNat + 2 * s.stF.toNat + 4 * s.wopen.toNat + 8 * s.ropen.toNat + 2 ^ 8 * s.stCause.toNat)

/-- `ST.V <- 1`: a command ends with a value (10_state.md R25). -/
def State.withValue (s : State) : State :=
  { s with stV := true }

/-- `ST.V <- 0`: a command ends with no value (60_exceptions.md R205). -/
def State.withoutValue (s : State) : State :=
  { s with stV := false }

end Sys2Proof.Machine
end

