-- ==== Sys2Proof/Machine/Operands.lean ====
section
/-! DEFINITION. The operand forms of 30_encoding.md R75 (whole registers as numbers, named low bits), the value
types BitWidth and TaggedBitValue (10_state.md R30 to R32), and the arithmetic of the field logic. -/

namespace Sys2Proof.Machine

/-- The `n` low bits of a register, zero-extended (30_encoding.md R75). -/
def lowBits (n : Nat) (w : Word) : Nat :=
  w.toNat % 2 ^ n

/-- A BitWidth: a number in 1..24 (10_state.md R30). -/
def isBitWidth (w : Nat) : Bool :=
  1 ≤ w && w ≤ 24

/-- `width(t) = t[31:24]` (10_state.md R31). -/
def tbvWidth (t : Word) : Nat :=
  t.toNat / 2 ^ 24

/-- `payload(t) = t[23:0]` (10_state.md R31). -/
def tbvPayload (t : Word) : Nat :=
  t.toNat % 2 ^ 24

/-- A valid TBV: its tag is a BitWidth (10_state.md R32). -/
def tbvValid (t : Word) : Bool :=
  isBitWidth (tbvWidth t)

/-- A fitting TBV: its payload fits its width (10_state.md R32). -/
def tbvFitting (t : Word) : Bool :=
  tbvValid t && tbvPayload t < 2 ^ tbvWidth t

/-- The word with tag `w` and the low 24 bits of `v` (10_state.md R31; the literal `tbv(w, v)` of 30_encoding.md
R77). DESIGN CHOICE (log entry 16): for `w` at or above 256 the literal's number needs more than 32 bits, R77 says
nothing of such a literal, and the word is the number's low 32 bits. -/
def mkTbv (w v : Nat) : Word :=
  BitVec.ofNat 32 (w * 2 ^ 24 + v % 2 ^ 24)

/-- `bitrev(w, v)`, the `w` low bits of `v` in reverse order (40_bitwidth_tbv.md R113): bit 0 goes to place
`w - 1`, the others are reversed below it. -/
def bitrev : Nat → Nat → Nat
  | 0, _ => 0
  | w + 1, v => v % 2 * 2 ^ w + bitrev w (v / 2)

/-- The TBV with the same width and the payload reversed within it (40_bitwidth_tbv.md R107). -/
def tbvReversed (t : Word) : Word :=
  mkTbv (tbvWidth t) (bitrev (tbvWidth t) (tbvPayload t % 2 ^ tbvWidth t))

/-- The first of `p`, `2p`, `4p`, ... that is at least `n`, looking at most `fuel` doublings ahead. -/
def doubleUpTo : Nat → Nat → Nat → Nat
  | 0, _, p => p
  | fuel + 1, n, p => if n ≤ p then p else doubleUpTo fuel n (2 * p)

/-- The least power of two that is at least `n` (40_bitwidth_tbv.md R110); 32 doublings reach every 32-bit
number. -/
def leastPow2 (n : Nat) : Nat :=
  doubleUpTo 32 n 1

/-- The number `r` of 40_bitwidth_tbv.md R110, before its range check. -/
def nearestPow2 (n : Nat) : Nat :=
  if n = 0 then 0
  else if 3 * leastPow2 n ≤ 4 * n then leastPow2 n
  else leastPow2 n / 2

/-- `avail`, the bits left to the reader (10_state.md R40). -/
def avail (s : State) : Nat :=
  s.rleft.toNat + 8 * (s.rlen.toNat - s.ridx.toNat)

/-- `RBITPOS`, the bits of the stream consumed (10_state.md R41). -/
def rbitpos (s : State) : Nat :=
  8 * s.ridx.toNat - s.rleft.toNat

end Sys2Proof.Machine
end

