-- ==== Sys2Proof/Machine/Ops.lean ====
section
/-! DEFINITION. The named operations: cells of the four spaces (20_memory.md), the three outcomes of a command
(00_scope.md R11), fault entry (60_exceptions.md R201) and reset, the only way on after it (R208, R220). -/

namespace Sys2Proof.Machine

/-- The written contents of a cell; `none` for a cell nobody has written. -/
def Memory.read? {α : Type} : Memory α → Nat → Option α
  | [], _ => none
  | (b, u) :: m, a => if b = a then some u else Memory.read? m a

/-- The memory after one cell is written, in canonical form. -/
def Memory.write {α : Type} : Memory α → Nat → α → Memory α
  | [], a, v => [(a, v)]
  | (b, u) :: m, a, v =>
    if a < b then (a, v) :: (b, u) :: m
    else if a = b then (a, v) :: m
    else (b, u) :: Memory.write m a v

/-- The memory after the cells from `a` on are written, in ascending order. -/
def Memory.writeFrom {α : Type} (m : Memory α) (a : Nat) : List α → Memory α
  | [] => m
  | v :: vs => Memory.writeFrom (Memory.write m a v) (a + 1) vs

/-- What a cell of `IN` holds: what was written, else a free value (log entry 2). -/
def State.inCell (s : State) (i : Nat) : Byte :=
  (s.inMem.read? i).getD (BitVec.ofNat 8 (Config.unwritten .input i))

/-- What a cell of `OUT` holds, for the host (20_memory.md R64); the unit never reads `OUT` (R52). -/
def State.outCell (s : State) (i : Nat) : Byte :=
  (s.outMem.read? i).getD (BitVec.ofNat 8 (Config.unwritten .output i))

/-- What a cell of `DATA` holds: an `ELEM_W`-bit pattern (20_memory.md R53). -/
def State.dataCell (s : State) (i : Nat) : Nat :=
  (s.dataMem.read? i).getD (Config.unwritten .data i % 2 ^ s.cfg.elemW)

/-- What a cell of `CAND` holds (20_memory.md R54). -/
def State.candCell (s : State) (i : Nat) : Word :=
  (s.candMem.read? i).getD (BitVec.ofNat 32 (Config.unwritten .cand i))

/-- Why a command breaks off: a fatal fault of the unit (60_exceptions.md R201), or an access that 20_memory.md
R66 rules out, where the model stops. -/
inductive Abort where
  | raise (c : Cause)
  | stop (f : Fault)
deriving DecidableEq, Repr

/-- How a command completes (00_scope.md R11): with a value, or with no value. The state is what the command's
rule writes, all but the flag `ST.V`. -/
inductive Completion where
  | value (s : State)
  | noValue (s : State)
deriving DecidableEq, Repr

/-- What the rule of a command gives in one state: it completes or breaks off. -/
abbrev Body := Except Abort Completion

/-- `raise <Name>` (60_exceptions.md R201), the one shared fault entry: nothing of the state before the command
changes but `ST.F <- 1`, `ST.V <- 0` and `ST.CAUSE`. No control goes anywhere and nothing is saved (R208). -/
def State.raise (s : State) (c : Cause) : State :=
  { s with stF := true, stV := false, stCause := causeCode c }

/-- The end of a command begun in `s` (00_scope.md R11). -/
def finish (s : State) : Body → Host.Outcome State Fault Refusal
  | .ok (.value t) => .next t.withValue
  | .ok (.noValue t) => .next t.withoutValue
  | .error (.raise c) => .next (s.raise c)
  | .error (.stop f) => .fault f

/-- A command is executed only by a unit that is not faulted; a faulted unit refuses it with no change of state
(30_encoding.md R71, 60_exceptions.md R202). -/
def serve (s : State) (b : Body) : Host.Outcome State Fault Refusal :=
  if s.stF then .next s else finish s b

/-- The reset event (70_reset_and_hazards.md R220, R221): every register and session variable 0; the memories are
not touched. The model's `cfg` and `queue` stay (log entry 10). -/
def State.resetEvent (s : State) : State :=
  { State.reset with
    inMem := s.inMem, outMem := s.outMem, dataMem := s.dataMem, candMem := s.candMem
    cfg := s.cfg, queue := s.queue }

/-- `MemRead(IN, i)` within the slice and the capacity (20_memory.md R51, R66). -/
def readIn (s : State) (i : Nat) : Except Abort Byte :=
  if i < s.rlen.toNat ∧ i < s.cfg.inCap then .ok (s.inCell i) else .error (.stop (.outOfBounds .input i))

/-- `MemRead(DATA, i)` within the buffer and the capacity (20_memory.md R53, R66). -/
def readData (s : State) (i : Nat) : Except Abort Nat :=
  if i < s.dlen.toNat ∧ i < s.cfg.dataCap then .ok (s.dataCell i) else .error (.stop (.outOfBounds .data i))

/-- `MemRead(CAND, i)` within the list and the capacity (20_memory.md R54, R66). -/
def readCand (s : State) (i : Nat) : Except Abort Word :=
  if i < s.a5.toNat ∧ i < s.cfg.candCap then .ok (s.candCell i) else .error (.stop (.outOfBounds .cand i))

/-- `MemWrite(OUT, a + k, bytes[k])` for ascending `k`, within the capacity (20_memory.md R52, R66). -/
def writeOut (s : State) (a : Nat) (bytes : List Byte) : Except Abort State :=
  if a + bytes.length ≤ s.cfg.outCap then .ok { s with outMem := s.outMem.writeFrom a bytes }
  else .error (.stop (.outOfBounds .output (a + bytes.length - 1)))

/-- `if w < 1 or w > 24: raise InvalidBitWidth` before the rest of a rule (10_state.md R30). -/
def needWidth (w : Nat) (b : Body) : Body :=
  if isBitWidth w then b else .error (.raise .invalidBitWidth)

/-- `if WOPEN = 0: raise WriterNotOpen` before the rest of a rule (41_writer.md R120). -/
def needWriter (s : State) (b : Body) : Body :=
  if s.wopen then b else .error (.raise .writerNotOpen)

/-- `if ROPEN = 0: raise ReaderNotOpen` before the rest of a rule (42_reader.md R140). -/
def needReader (s : State) (b : Body) : Body :=
  if s.ropen then b else .error (.raise .readerNotOpen)

end Sys2Proof.Machine
end

