-- ==== Sys2Proof/Machine/FieldLogic.lean ====
section
/-! DEFINITION. The field logic commands, 40_bitwidth_tbv.md: pure functions of the operand registers. -/

namespace Sys2Proof.Machine

/-- `BW.NEW` (40_bitwidth_tbv.md R101). -/
def ruleBwNew (s : State) : Body :=
  if isBitWidth s.a0.toNat then .ok (.value { s with r0 := s.a0 }) else .ok (.noValue s)

/-- `BW.NEW` as a command: refused by a faulted unit, else its rule (30_encoding.md R71). -/
def execBwNew (s : State) : Host.Outcome State Fault Refusal :=
  serve s (ruleBwNew s)

/-- `BW.NEWU` (R102). -/
def ruleBwNewu (s : State) : Body :=
  needWidth s.a0.toNat <| .ok (.value { s with r0 := s.a0 })

/-- `BW.NEWU` as a command: refused by a faulted unit, else its rule (30_encoding.md R71). -/
def execBwNewu (s : State) : Host.Outcome State Fault Refusal :=
  serve s (ruleBwNewu s)

/-- `BW.MASK` (R103). -/
def ruleBwMask (s : State) : Body :=
  needWidth s.a0.toNat <| .ok (.value { s with r0 := BitVec.ofNat 32 (2 ^ s.a0.toNat - 1) })

/-- `BW.MASK` as a command: refused by a faulted unit, else its rule (30_encoding.md R71). -/
def execBwMask (s : State) : Host.Outcome State Fault Refusal :=
  serve s (ruleBwMask s)

/-- `BW.POW2` (R104). -/
def ruleBwPow2 (s : State) : Body :=
  needWidth s.a0.toNat <| .ok (.value { s with r0 := BitVec.ofNat 32 (2 ^ s.a0.toNat) })

/-- `BW.POW2` as a command: refused by a faulted unit, else its rule (30_encoding.md R71). -/
def execBwPow2 (s : State) : Host.Outcome State Fault Refusal :=
  serve s (ruleBwPow2 s)

/-- `TBV.NEW` (R105): the value is cut to 24 bits, not to the width. -/
def ruleTbvNew (s : State) : Body :=
  needWidth s.a0.toNat <| .ok (.value { s with r0 := mkTbv s.a0.toNat s.a1.toNat })

/-- `TBV.NEW` as a command: refused by a faulted unit, else its rule (30_encoding.md R71). -/
def execTbvNew (s : State) : Host.Outcome State Fault Refusal :=
  serve s (ruleTbvNew s)

/-- `TBV.NEWC` (R106): all 32 bits of `A1` are compared with `2^w`. -/
def ruleTbvNewc (s : State) : Body :=
  needWidth s.a0.toNat <|
    if 2 ^ s.a0.toNat ≤ s.a1.toNat then .ok (.noValue s)
    else .ok (.value { s with r0 := mkTbv s.a0.toNat s.a1.toNat })

/-- `TBV.NEWC` as a command: refused by a faulted unit, else its rule (30_encoding.md R71). -/
def execTbvNewc (s : State) : Host.Outcome State Fault Refusal :=
  serve s (ruleTbvNewc s)

/-- `TBV.REVD` (R107): the reversed word goes to `R0`. -/
def ruleTbvRevd (s : State) : Body :=
  needWidth (tbvWidth s.a0) <| .ok (.value { s with r0 := tbvReversed s.a0 })

/-- `TBV.REVD` as a command: refused by a faulted unit, else its rule (30_encoding.md R71). -/
def execTbvRevd (s : State) : Host.Outcome State Fault Refusal :=
  serve s (ruleTbvRevd s)

/-- `TBV.REV` (R108): the reversed word goes to `A0`, the only operand register a command writes. -/
def ruleTbvRev (s : State) : Body :=
  needWidth (tbvWidth s.a0) <| .ok (.value { s with a0 := tbvReversed s.a0 })

/-- `TBV.REV` as a command: refused by a faulted unit, else its rule (30_encoding.md R71). -/
def execTbvRev (s : State) : Host.Outcome State Fault Refusal :=
  serve s (ruleTbvRev s)

/-- `TBV.EQ` (R109): the payloads are compared; the tags are checked, `A0` first. -/
def ruleTbvEq (s : State) : Body :=
  needWidth (tbvWidth s.a0) <| needWidth (tbvWidth s.a1) <|
    .ok (.value { s with r0 := if tbvPayload s.a0 = tbvPayload s.a1 then 1 else 0 })

/-- `TBV.EQ` as a command: refused by a faulted unit, else its rule (30_encoding.md R71). -/
def execTbvEq (s : State) : Host.Outcome State Fault Refusal :=
  serve s (ruleTbvEq s)

/-- `NPOT` (R110). -/
def ruleNpot (s : State) : Body :=
  if 2 ^ 32 ≤ nearestPow2 s.a0.toNat then .error (.raise .npotOverflow)
  else .ok (.value { s with r0 := BitVec.ofNat 32 (nearestPow2 s.a0.toNat) })

/-- `NPOT` as a command: refused by a faulted unit, else its rule (30_encoding.md R71). -/
def execNpot (s : State) : Host.Outcome State Fault Refusal :=
  serve s (ruleNpot s)

end Sys2Proof.Machine
end

