-- ==== Sys2Proof/Machine/MatchUnit.lean ====
section
/-! DEFINITION. The match unit commands, 43_match.md. -/

namespace Sys2Proof.Machine

/-- The loop of `mlen` (43_match.md R171): from `n` on, at most `fuel` further comparisons. Both cells of a
comparison are read at that comparison (R172). -/
def matchLoop (s : State) (current source : Nat) : Nat → Nat → Except Abort Nat
  | 0, n => .ok n
  | fuel + 1, n =>
    match readData s (current + n), readData s (source + n) with
    | .ok x, .ok y => if x = y then matchLoop s current source fuel (n + 1) else .ok n
    | .error e, _ => .error e
    | .ok _, .error e => .error e

/-- `mlen(current, distance, max_len)` (43_match.md R171). -/
def mlen (s : State) (current distance maxLen : Nat) : Except Abort Nat :=
  if s.dlen.toNat < current then .error (.raise .matchCurrentBeyondEnd)
  else if distance = 0 then .error (.raise .matchZeroDistance)
  else if current < distance then .error (.raise .matchDistanceBeyondStart)
  else matchLoop s current (current - distance) (min maxLen (s.dlen.toNat - current)) 0

/-- The best additional length so far and its distance; `(0, 0)` is the source's `ZERO` (10_state.md R33). -/
structure Best where
  len : Nat
  dist : Nat
deriving DecidableEq, Repr

/-- A candidate replaces the best only if it is strictly greater (43_match.md R175): first seen wins. -/
def Best.update (b : Best) (add d : Nat) : Best :=
  if b.len < add then { len := add, dist := d } else b

/-- The scan of `fdm` (43_match.md R175): the candidates from index `i` on, at most `fuel` of them; the cut-off is
tested after every candidate. -/
def scanCandidates (s : State) (start cap stop : Nat) : Nat → Nat → Best → Except Abort Best
  | 0, _, b => .ok b
  | fuel + 1, i, b =>
    match readCand s i with
    | .error e => .error e
    | .ok d =>
      match mlen s start d.toNat cap with
      | .error e => .error e
      | .ok add =>
        let b' := b.update add d.toNat
        if stop ≤ b'.len then .ok b' else scanCandidates s start cap stop fuel (i + 1) b'

/-- `fdm` and the end of `M.FIND` (43_match.md R174, R175, R176): `cursor`, `max_len`, `threshold_min`,
`threshold_max`, `guaranteed_min_len` and the number of candidates. -/
def findMatch (s : State) (cursor maxLen tmin tmax g ncand : Nat) : Body :=
  if maxLen < g then .error (.raise .argUnderflow)
  else if tmax < g then .error (.raise .argUnderflow)
  else match scanCandidates s (cursor + g) (maxLen - g) (tmax - g) ncand 0 { len := 0, dist := 0 } with
    | .error e => .error e
    | .ok b =>
      if b.len + g < tmin then .ok (.noValue s)
      else if b.dist = 0 then .ok (.noValue s)
      else .ok (.value { s with r0 := BitVec.ofNat 32 (b.len + g), r1 := BitVec.ofNat 32 b.dist })

/-- `M.LEN` (43_match.md R173). -/
def ruleMLen (s : State) : Body :=
  if s.cfg.dataCap < s.dlen.toNat then .error (.raise .lengthOutOfRange)
  else match mlen s s.a0.toNat s.a1.toNat s.a2.toNat with
    | .error e => .error e
    | .ok n => .ok (.value { s with r0 := BitVec.ofNat 32 n })

/-- `M.LEN` as a command: refused by a faulted unit, else its rule (30_encoding.md R71). -/
def execMLen (s : State) : Host.Outcome State Fault Refusal :=
  serve s (ruleMLen s)

/-- `M.FIND` (43_match.md R174). -/
def ruleMFind (s : State) : Body :=
  if s.cfg.dataCap < s.dlen.toNat then .error (.raise .lengthOutOfRange)
  else if s.cfg.candCap < s.a5.toNat then .error (.raise .lengthOutOfRange)
  else findMatch s s.a0.toNat s.a1.toNat s.a2.toNat s.a3.toNat s.a4.toNat s.a5.toNat

/-- `M.FIND` as a command: refused by a faulted unit, else its rule (30_encoding.md R71). -/
def execMFind (s : State) : Host.Outcome State Fault Refusal :=
  serve s (ruleMFind s)

end Sys2Proof.Machine
end

