-- ==== Sys2Proof/Machine/Reader.lean ====
section
/-! DEFINITION. The bit-stream reader commands, 42_reader.md. -/

namespace Sys2Proof.Machine

/-- The local values of `fill` (42_reader.md R141). -/
structure Pulled where
  acc : Nat
  left : Nat
  idx : Nat
deriving DecidableEq, Repr

/-- The loop of `fill` (42_reader.md R141). Each round adds 8 bits, so `w` rounds are enough for `w` bits. -/
def fillLoop (s : State) (w : Nat) : Nat → Pulled → Except Abort Pulled
  | 0, p => .ok p
  | fuel + 1, p =>
    if p.left < w then
      match readIn s p.idx with
      | .error e => .error e
      | .ok b => fillLoop s w fuel
          { acc := p.acc + b.toNat * 2 ^ p.left, left := p.left + 8, idx := p.idx + 1 }
    else .ok p

/-- `fill(w)` (42_reader.md R141): pull bytes until at least `w` bits are buffered; no state is written. -/
def fill (s : State) (w : Nat) : Except Abort Pulled :=
  fillLoop s w w { acc := s.racc.toNat, left := s.rleft.toNat, idx := s.ridx.toNat }

/-- The reader after the pulled bits are kept (42_reader.md R147). -/
def keepPulled (s : State) (p : Pulled) : State :=
  { s with racc := BitVec.ofNat 32 p.acc, rleft := BitVec.ofNat 5 p.left, ridx := BitVec.ofNat 32 p.idx }

/-- The reader after `w` of the pulled bits are consumed (42_reader.md R143). -/
def consumePulled (s : State) (w : Nat) (p : Pulled) : State :=
  keepPulled s { acc := p.acc / 2 ^ w, left := p.left - w, idx := p.idx }

/-- The common part of the bit reads (42_reader.md R143 to R148): no value when fewer than `w` bits are left, else
fill and go on with what was pulled. -/
def bitRead (s : State) (w : Nat) (k : Pulled → State) : Body :=
  if avail s < w then .ok (.noValue s)
  else match fill s w with
    | .error e => .error e
    | .ok p => .ok (.value (k p))

/-- A read that consumes `w` bits and returns them in `R0` (42_reader.md R143). -/
def takeBits (s : State) (w : Nat) : Body :=
  bitRead s w fun p => { consumePulled s w p with r0 := BitVec.ofNat 32 (p.acc % 2 ^ w) }

/-- The reader aligned to a byte boundary (42_reader.md R149): the rest of the current byte is dropped. -/
def alignReader (s : State) : State :=
  let k := s.rleft.toNat % 8
  { s with racc := BitVec.ofNat 32 (s.racc.toNat / 2 ^ k), rleft := BitVec.ofNat 5 (s.rleft.toNat - k) }

/-- The logical byte position of an aligned reader (42_reader.md R150). -/
def bytePos (s : State) : Nat :=
  s.ridx.toNat - s.rleft.toNat / 8

/-- `raw_take(n)` (42_reader.md R150): align; then the state and, when `n` bytes are left, the index of the first.
With too few bytes left the alignment is kept. -/
def rawTake (s : State) (n : Nat) : State × Option Nat :=
  let t := alignReader s
  let bp := bytePos t
  if t.rlen.toNat - bp < n then (t, none)
  else ({ t with ridx := BitVec.ofNat 32 (bp + n), racc := 0, rleft := 0 }, some bp)

/-- A raw read that returns the range it took (42_reader.md R152, R153). -/
def takeRange (s : State) (n : Nat) : Body :=
  match rawTake s n with
  | (t, none) => .ok (.noValue t)
  | (t, some bp) => .ok (.value { t with r0 := BitVec.ofNat 32 bp, r1 := BitVec.ofNat 32 n })

/-- `R.NEW` (42_reader.md R142). -/
def ruleRNew (s : State) : Body :=
  if s.cfg.inCap < s.a0.toNat then .error (.raise .lengthOutOfRange)
  else .ok (.value { s with ropen := true, rlen := s.a0, ridx := 0, racc := 0, rleft := 0 })

/-- `R.NEW` as a command: refused by a faulted unit, else its rule (30_encoding.md R71). -/
def execRNew (s : State) : Host.Outcome State Fault Refusal :=
  serve s (ruleRNew s)

/-- `R.BOOL` (R144). -/
def ruleRBool (s : State) : Body :=
  needReader s <| takeBits s 1

/-- `R.BOOL` as a command: refused by a faulted unit, else its rule (30_encoding.md R71). -/
def execRBool (s : State) : Host.Outcome State Fault Refusal :=
  serve s (ruleRBool s)

/-- `R.NIB` (R145). -/
def ruleRNib (s : State) : Body :=
  needReader s <| takeBits s 4

/-- `R.NIB` as a command: refused by a faulted unit, else its rule (30_encoding.md R71). -/
def execRNib (s : State) : Host.Outcome State Fault Refusal :=
  serve s (ruleRNib s)

/-- `R.BYTE` (R146). -/
def ruleRByte (s : State) : Body :=
  needReader s <| takeBits s 8

/-- `R.BYTE` as a command: refused by a faulted unit, else its rule (30_encoding.md R71). -/
def execRByte (s : State) : Host.Outcome State Fault Refusal :=
  serve s (ruleRByte s)

/-- `R.BITS` (R143). -/
def ruleRBits (s : State) : Body :=
  needReader s <| needWidth s.a0.toNat <| takeBits s s.a0.toNat

/-- `R.BITS` as a command: refused by a faulted unit, else its rule (30_encoding.md R71). -/
def execRBits (s : State) : Host.Outcome State Fault Refusal :=
  serve s (ruleRBits s)

/-- `R.PEEK` (R147): the pulled bytes stay buffered. -/
def ruleRPeek (s : State) : Body :=
  needReader s <| needWidth s.a0.toNat <|
    bitRead s s.a0.toNat fun p => { keepPulled s p with r0 := BitVec.ofNat 32 (p.acc % 2 ^ s.a0.toNat) }

/-- `R.PEEK` as a command: refused by a faulted unit, else its rule (30_encoding.md R71). -/
def execRPeek (s : State) : Host.Outcome State Fault Refusal :=
  serve s (ruleRPeek s)

/-- `R.ADV` (R148): consumes without a result. -/
def ruleRAdv (s : State) : Body :=
  needReader s <| needWidth s.a0.toNat <|
    bitRead s s.a0.toNat fun p => consumePulled s s.a0.toNat p

/-- `R.ADV` as a command: refused by a faulted unit, else its rule (30_encoding.md R71). -/
def execRAdv (s : State) : Host.Outcome State Fault Refusal :=
  serve s (ruleRAdv s)

/-- `R.ALIGN` (R149). -/
def ruleRAlign (s : State) : Body :=
  needReader s <| .ok (.value (alignReader s))

/-- `R.ALIGN` as a command: refused by a faulted unit, else its rule (30_encoding.md R71). -/
def execRAlign (s : State) : Host.Outcome State Fault Refusal :=
  serve s (ruleRAlign s)

/-- `R.NXBYTE` (R151): the byte itself goes to `R0`. -/
def ruleRNxbyte (s : State) : Body :=
  needReader s <|
    match rawTake s 1 with
    | (t, none) => .ok (.noValue t)
    | (t, some bp) =>
      match readIn t bp with
      | .error e => .error e
      | .ok b => .ok (.value { t with r0 := BitVec.ofNat 32 b.toNat })

/-- `R.NXBYTE` as a command: refused by a faulted unit, else its rule (30_encoding.md R71). -/
def execRNxbyte (s : State) : Host.Outcome State Fault Refusal :=
  serve s (ruleRNxbyte s)

/-- `R.NXARR` (R152). -/
def ruleRNxarr (s : State) : Body :=
  needReader s <| takeRange s s.a0.toNat

/-- `R.NXARR` as a command: refused by a faulted unit, else its rule (30_encoding.md R71). -/
def execRNxarr (s : State) : Host.Outcome State Fault Refusal :=
  serve s (ruleRNxarr s)

/-- `R.NXSLC` (R153). -/
def ruleRNxslc (s : State) : Body :=
  needReader s <| takeRange s s.a0.toNat

/-- `R.NXSLC` as a command: refused by a faulted unit, else its rule (30_encoding.md R71). -/
def execRNxslc (s : State) : Host.Outcome State Fault Refusal :=
  serve s (ruleRNxslc s)

end Sys2Proof.Machine
end

