-- ==== Sys2Proof/Machine/Writer.lean ====
section
/-! DEFINITION. The bit-stream writer commands, 41_writer.md. -/

namespace Sys2Proof.Machine

/-- The bytes `acc[8k+7 : 8k]` for `k` in `0 .. n-1`, in ascending `k` (41_writer.md R129). -/
def bytesOf (n acc : Nat) : List Byte :=
  (List.range n).map fun k => BitVec.ofNat 8 (acc / 2 ^ (8 * k))

/-- `append_bits(w, v)` (41_writer.md R129), on which the pushes end. -/
def appendBits (s : State) (w v : Nat) : Body :=
  let x := v % 2 ^ w
  let total := s.wpos.toNat + w
  let nfull := total / 8
  let acc := s.wacc.toNat + x * 2 ^ s.wpos.toNat
  if s.cfg.outCap < s.wlen.toNat + nfull then .error (.raise .outOverflow)
  else match writeOut s s.wlen.toNat (bytesOf nfull acc) with
    | .error e => .error e
    | .ok t => .ok (.value { t with
        wlen := BitVec.ofNat 32 (s.wlen.toNat + nfull)
        wacc := BitVec.ofNat 8 (acc / 2 ^ (8 * nfull))
        wpos := BitVec.ofNat 3 (total % 8) })

/-- The flush that `W.ALIGN` and `W.FIN` share (41_writer.md R126, R128): a pending partial byte goes to `OUT` as
it stands, and at a byte boundary nothing happens. -/
def flush (s : State) : Except Abort State :=
  if s.wpos.toNat = 0 then .ok s
  else if s.cfg.outCap < s.wlen.toNat + 1 then .error (.raise .outOverflow)
  else match writeOut s s.wlen.toNat [s.wacc] with
    | .error e => .error e
    | .ok t => .ok { t with wlen := BitVec.ofNat 32 (s.wlen.toNat + 1), wacc := 0, wpos := 0 }

/-- `W.NEW` (41_writer.md R121). -/
def ruleWNew (s : State) : Body :=
  .ok (.value { s with wopen := true, wlen := 0, wacc := 0, wpos := 0 })

/-- `W.NEW` as a command: refused by a faulted unit, else its rule (30_encoding.md R71). -/
def execWNew (s : State) : Host.Outcome State Fault Refusal :=
  serve s (ruleWNew s)

/-- `W.PUSH` (R122). -/
def ruleWPush (s : State) : Body :=
  needWriter s <| needWidth (tbvWidth s.a0) <| appendBits s (tbvWidth s.a0) (tbvPayload s.a0)

/-- `W.PUSH` as a command: refused by a faulted unit, else its rule (30_encoding.md R71). -/
def execWPush (s : State) : Host.Outcome State Fault Refusal :=
  serve s (ruleWPush s)

/-- `W.PBOOL` (R123). -/
def ruleWPbool (s : State) : Body :=
  needWriter s <| appendBits s 1 (lowBits 1 s.a0)

/-- `W.PBOOL` as a command: refused by a faulted unit, else its rule (30_encoding.md R71). -/
def execWPbool (s : State) : Host.Outcome State Fault Refusal :=
  serve s (ruleWPbool s)

/-- `W.PBYTE` (R124). -/
def ruleWPbyte (s : State) : Body :=
  needWriter s <| appendBits s 8 (lowBits 8 s.a0)

/-- `W.PBYTE` as a command: refused by a faulted unit, else its rule (30_encoding.md R71). -/
def execWPbyte (s : State) : Host.Outcome State Fault Refusal :=
  serve s (ruleWPbyte s)

/-- `W.PNIB` (R125). -/
def ruleWPnib (s : State) : Body :=
  needWriter s <| appendBits s 4 (lowBits 4 s.a0)

/-- `W.PNIB` as a command: refused by a faulted unit, else its rule (30_encoding.md R71). -/
def execWPnib (s : State) : Host.Outcome State Fault Refusal :=
  serve s (ruleWPnib s)

/-- `W.ALIGN` (R126). -/
def ruleWAlign (s : State) : Body :=
  needWriter s <|
    match flush s with
    | .error e => .error e
    | .ok t => .ok (.value t)

/-- `W.ALIGN` as a command: refused by a faulted unit, else its rule (30_encoding.md R71). -/
def execWAlign (s : State) : Host.Outcome State Fault Refusal :=
  serve s (ruleWAlign s)

/-- `W.BITCNT` (R127). -/
def ruleWBitcnt (s : State) : Body :=
  needWriter s <|
    .ok (.value { s with r0 := BitVec.ofNat 32 (8 * s.wlen.toNat + s.wpos.toNat) })

/-- `W.BITCNT` as a command: refused by a faulted unit, else its rule (30_encoding.md R71). -/
def execWBitcnt (s : State) : Host.Outcome State Fault Refusal :=
  serve s (ruleWBitcnt s)

/-- `W.FIN` (R128): flush, close, and the byte count in `R0`. -/
def ruleWFin (s : State) : Body :=
  needWriter s <|
  match flush s with
  | .error e => .error e
  | .ok t => .ok (.value { t with wacc := 0, wpos := 0, wopen := false, r0 := t.wlen })

/-- `W.FIN` as a command: refused by a faulted unit, else its rule (30_encoding.md R71). -/
def execWFin (s : State) : Host.Outcome State Fault Refusal :=
  serve s (ruleWFin s)

end Sys2Proof.Machine
end

