-- ==== Sys2Proof/Machine/Dispatch.lean ====
section
/-! DEFINITION. One arm per command (30_encoding.md R73). -/

namespace Sys2Proof.Machine

-- The rule of the command, in any state (30_encoding.md R71).
def exec (i : Instr) (s : State) : Host.Outcome State Fault Refusal :=
  match i with
  | .bwNew => Sys2Proof.Machine.execBwNew s
  | .bwNewu => Sys2Proof.Machine.execBwNewu s
  | .bwMask => Sys2Proof.Machine.execBwMask s
  | .bwPow2 => Sys2Proof.Machine.execBwPow2 s
  | .tbvNew => Sys2Proof.Machine.execTbvNew s
  | .tbvNewc => Sys2Proof.Machine.execTbvNewc s
  | .tbvRevd => Sys2Proof.Machine.execTbvRevd s
  | .tbvRev => Sys2Proof.Machine.execTbvRev s
  | .tbvEq => Sys2Proof.Machine.execTbvEq s
  | .npot => Sys2Proof.Machine.execNpot s
  | .wNew => Sys2Proof.Machine.execWNew s
  | .wPush => Sys2Proof.Machine.execWPush s
  | .wPbool => Sys2Proof.Machine.execWPbool s
  | .wPbyte => Sys2Proof.Machine.execWPbyte s
  | .wPnib => Sys2Proof.Machine.execWPnib s
  | .wAlign => Sys2Proof.Machine.execWAlign s
  | .wBitcnt => Sys2Proof.Machine.execWBitcnt s
  | .wFin => Sys2Proof.Machine.execWFin s
  | .rNew => Sys2Proof.Machine.execRNew s
  | .rBool => Sys2Proof.Machine.execRBool s
  | .rNib => Sys2Proof.Machine.execRNib s
  | .rByte => Sys2Proof.Machine.execRByte s
  | .rBits => Sys2Proof.Machine.execRBits s
  | .rPeek => Sys2Proof.Machine.execRPeek s
  | .rAdv => Sys2Proof.Machine.execRAdv s
  | .rAlign => Sys2Proof.Machine.execRAlign s
  | .rNxbyte => Sys2Proof.Machine.execRNxbyte s
  | .rNxarr => Sys2Proof.Machine.execRNxarr s
  | .rNxslc => Sys2Proof.Machine.execRNxslc s
  | .mLen => Sys2Proof.Machine.execMLen s
  | .mFind => Sys2Proof.Machine.execMFind s

end Sys2Proof.Machine
end

