-- ==== Sys2Proof/Machine/Port.lean ====
section
/-! DEFINITION. The host's side: the register port (10_state.md R27, R28), the command port (30_encoding.md R70,
R71), memory writes, reset, the next action of the host, and the host's pseudo-commands (R77, R82, R83). -/

namespace Sys2Proof.Machine

/-- What the host reads from a register number, zero-extended; numbers 17 and above give 0 (10_state.md R27). -/
def readReg (s : State) (number : Nat) : Word :=
  match number with
  | 0 => stWord s
  | 1 => s.r0
  | 2 => s.r1
  | 3 => s.a0
  | 4 => s.a1
  | 5 => s.a2
  | 6 => s.a3
  | 7 => s.a4
  | 8 => s.a5
  | 9 => s.dlen
  | 10 => s.wlen
  | 11 => s.wpos.setWidth 32
  | 12 => s.wacc.setWidth 32
  | 13 => s.rlen
  | 14 => s.ridx
  | 15 => s.rleft.setWidth 32
  | 16 => s.racc
  | _ => 0

/-- A host write to a register number: `A0`..`A5` and `DLEN` take all 32 bits, every other number is ignored
(10_state.md R28). -/
def writeReg (s : State) (number : Nat) (v : Word) : State :=
  match number with
  | 3 => { s with a0 := v }
  | 4 => { s with a1 := v }
  | 5 => { s with a2 := v }
  | 6 => { s with a3 := v }
  | 7 => { s with a4 := v }
  | 8 => { s with a5 := v }
  | 9 => { s with dlen := v }
  | _ => s

/-- The capacity of a space (20_memory.md R50). -/
def capacity (c : Config) : Space → Nat
  | .input => c.inCap
  | .output => c.outCap
  | .data => c.dataCap
  | .cand => c.candCap

/-- The space a host memory statement writes, and how many cells. -/
def CellList.space : CellList → Space
  | .input _ => .input
  | .output _ => .output
  | .data _ => .data
  | .cand _ => .cand

/-- How many cells a host memory statement writes. -/
def CellList.count : CellList → Nat
  | .input cells => cells.length
  | .output cells => cells.length
  | .data cells => cells.length
  | .cand cells => cells.length

/-- The state after a host memory statement within bounds (30_encoding.md R77). -/
def storeCells (s : State) (index : Nat) : CellList → State
  | .input cells => { s with inMem := s.inMem.writeFrom index cells }
  | .output cells => { s with outMem := s.outMem.writeFrom index cells }
  | .data cells => { s with dataMem := s.dataMem.writeFrom index cells }
  | .cand cells => { s with candMem := s.candMem.writeFrom index cells }

/-- A number in the statement that is no `ELEM_W`-bit pattern (20_memory.md R53), if there is one; the cells of
the other spaces have their width by type. -/
def badElement? (c : Config) : CellList → Option Nat
  | .input _ => none
  | .output _ => none
  | .data cells => cells.find? fun v => decide (2 ^ c.elemW ≤ v)
  | .cand _ => none

/-- `MEM <space>[<index>] = <list>` (30_encoding.md R77, 20_memory.md R64). Cells beyond the capacity do not exist
(R50) and a number that is no element cannot be written (R53): the statement is ill formed and the model stops
(log entry 5). -/
def writeMem (s : State) (index : Nat) (cells : CellList) : Host.Outcome State Fault Refusal :=
  if cells.count ≠ 0 ∧ capacity s.cfg cells.space < index + cells.count then
    .fault (.outOfBounds cells.space (index + cells.count - 1))
  else match badElement? s.cfg cells with
    | some v => .fault (.elementTooWide index v)
    | none => .next (storeCells s index cells)

/-- What the host reads from a cell, as a number (20_memory.md R64). -/
def readCell (s : State) (index : Nat) : Space → Nat
  | .input => (s.inCell index).toNat
  | .output => (s.outCell index).toNat
  | .data => s.dataCell index
  | .cand => (s.candCell index).toNat

/-- A write of `c` to `CMD` (30_encoding.md R71): refused by a faulted unit, else `IllegalCommand` or the command's
rule. -/
def issue (s : State) (c : Word) : Host.Outcome State Fault Refusal :=
  match decode c with
  | .ok i => exec i s
  | .error _ => serve s (.error (.raise .illegalCommand))

/-- One action of the host, from a state that no longer lists it. A register or memory read changes nothing
(10_state.md R28, 20_memory.md R59). -/
def act (s : State) : HostAction → Host.Outcome State Fault Refusal
  | .writeReg n v => .next (writeReg s n v)
  | .readReg _ => .next s
  | .writeMem index cells => writeMem s index cells
  | .readMem sp index =>
    if index < capacity s.cfg sp then .next s else .fault (.outOfBounds sp index)
  | .command c => issue s c
  | .reset => .next s.resetEvent

/-- The host performs its next action; with none left the unit waits and nothing changes (30_encoding.md R84,
70_reset_and_hazards.md R221; log entry 4). -/
def hostStep (s : State) : Host.Outcome State Fault Refusal :=
  match s.queue with
  | [] => .next s
  | a :: rest => act { s with queue := rest } a

/-- A program performed from a state, each action finished before the next starts (30_encoding.md R84). -/
def perform (s : State) : List HostAction → Host.Outcome State Fault Refusal
  | [] => .next s
  | a :: rest =>
    match act s a with
    | .next t => perform t rest
    | .fault r => .fault r
    | .refused r => .refused r

/-- The command of an instruction as a host action. -/
def issueOf (i : Instr) : HostAction :=
  .command (encode i)

/-- `SET A<k>, <x>` for `k` from `number - 3` on (30_encoding.md R77). DESIGN CHOICE (log entry 15): for more than
six operands, to which R77 gives no meaning, the seventh goes to register number 9, `DLEN`, and the rest are ignored. -/
def setOperands (number : Nat) : List Word → List HostAction
  | [] => []
  | x :: xs => .writeReg number x :: setOperands (number + 1) xs

/-- The shorthand `<mnemonic> <x0>, <x1>, ...` (30_encoding.md R77). -/
def call (i : Instr) (operands : List Word) : List HostAction :=
  setOperands 3 operands ++ [issueOf i]

/-- The pseudo-command `PACK t0, t1, ...` (30_encoding.md R82). -/
def pack (ts : List Word) : List HostAction :=
  issueOf .wNew :: ts.flatMap (fun t => call .wPush [t]) ++ [issueOf .wFin]

/-- The pseudo-command `R.ITER` (30_encoding.md R83), for at most `fuel` commands: `R.BOOL` again and again, taking
`R0[0]` while it ends with a value; the bits taken, and the state the host is left with. -/
def iterate : Nat → State → List Bool × State
  | 0, s => ([], s)
  | fuel + 1, s =>
    match issue s (encode .rBool) with
    | .next t =>
      if t.stV && !t.stF then
        let rest := iterate fuel t
        (t.r0.getLsbD 0 :: rest.1, rest.2)
      else ([], t)
    | .fault _ => ([], s)
    | .refused _ => ([], s)

end Sys2Proof.Machine
end

