-- ==== Sys2Proof/Machine/Step.lean ====
section
/-! DEFINITION. One step of the machine: the host's next action (30_encoding.md R84). -/

namespace Sys2Proof.Machine

/-- One step. The unit fetches nothing (10_state.md R23): the host's list of actions is what a step reads. -/
def step (s : State) : Host.Outcome State Fault Refusal :=
  hostStep s

/-- `s` with the command word placed as the host's next action, a write to `CMD` (30_encoding.md R70; log
entry 3). The bits above `nbits` are 0. -/
def State.withFetchWord (s : State) (nbits w : Nat) : State :=
  { s with queue := .command (BitVec.ofNat 32 (w % 2 ^ nbits)) :: s.queue }

end Sys2Proof.Machine
end

