-- ==== Sys2Proof/Safety.lean ====
section
/-! DEFINITION. The terms claims are stated in: the invariants of 10_state.md R35 and R39, the output and input bit
strings (R36, 00_scope.md R12), the length of a match (43_match.md R171), and a session that is read back
(42_reader.md R156, R158). -/

namespace Sys2Proof.Machine

/-- The unit is not faulted, so it executes commands (60_exceptions.md R202). -/
abbrev Serving (s : State) : Prop :=
  s.stF = false

/-- The writer invariants (10_state.md R35): no bits at or above `WPOS`, `WLEN` within the capacity, and nothing
pending without a writer. -/
abbrev WriterInv (s : State) : Prop :=
  s.wacc.toNat < 2 ^ s.wpos.toNat ∧ s.wlen.toNat ≤ s.cfg.outCap ∧
    (s.wopen = false → s.wacc = 0 ∧ s.wpos = 0)

/-- The reader invariants (10_state.md R39, items (a) to (d) and (f)); item (a) is the width of `RLEFT`. -/
abbrev ReaderInv (s : State) : Prop :=
  s.ridx.toNat ≤ s.rlen.toNat ∧ s.rlen.toNat ≤ s.cfg.inCap ∧ s.rleft.toNat ≤ 8 * s.ridx.toNat ∧
    s.racc.toNat < 2 ^ s.rleft.toNat ∧
    (s.ropen = false → s.rlen = 0 ∧ s.ridx = 0 ∧ s.racc = 0 ∧ s.rleft = 0)

/-- The status register (10_state.md R24, R25, 60_exceptions.md R203): no cause without a fault, no value and a
listed cause with one. -/
abbrev StatusInv (s : State) : Prop :=
  (s.stF = false → s.stCause = 0) ∧
    (s.stF = true → s.stV = false ∧ 1 ≤ s.stCause.toNat ∧ s.stCause.toNat ≤ 11)

/-- The memories: canonical form, cells below the capacity (20_memory.md R50), elements of `ELEM_W` bits (R53). -/
abbrev MemoryInv (s : State) : Prop :=
  (s.inMem.wf ∧ s.outMem.wf ∧ s.dataMem.wf ∧ s.candMem.wf) ∧
    (∀ c ∈ s.inMem, c.1 < s.cfg.inCap) ∧ (∀ c ∈ s.outMem, c.1 < s.cfg.outCap) ∧
    (∀ c ∈ s.dataMem, c.1 < s.cfg.dataCap ∧ c.2 < 2 ^ s.cfg.elemW) ∧ (∀ c ∈ s.candMem, c.1 < s.cfg.candCap)

/-- The invariant of the machine. -/
abbrev Inv (s : State) : Prop :=
  s.cfg.wf ∧ MemoryInv s ∧ WriterInv s ∧ ReaderInv s ∧ StatusInv s

/-- Bit number `j` of the bit string of `IN` (00_scope.md R12, 20_memory.md R56). -/
def streamBit (s : State) (j : Nat) : Bool :=
  (s.inCell (j / 8)).getLsbD (j % 8)

/-- `field(p, w)`, the number whose bit `i` is stream bit `p + i` (42_reader.md R157). -/
def field (s : State) (p : Nat) : Nat → Nat
  | 0 => 0
  | w + 1 => (streamBit s p).toNat + 2 * field s (p + 1) w

/-- The bits of a number below `w`, least significant first. -/
def bitsOf (w v : Nat) : List Bool :=
  (List.range w).map v.testBit

/-- The writer's output bit string (10_state.md R36): `OUT[0..WLEN)`, then the pending bits. -/
def outBits (s : State) : List Bool :=
  (List.range s.wlen.toNat).flatMap (fun k => bitsOf 8 (s.outCell k).toNat) ++ bitsOf s.wpos.toNat s.wacc.toNat

/-- Item (e) of 10_state.md R39: the buffered bits are the stream's bits at the logical position. The host can
break it by changing `IN` during a session (93_implementation_defined.md U18). -/
def Coherent (s : State) : Prop :=
  ∀ j, j < s.rleft.toNat → s.racc.getLsbD j = streamBit s (rbitpos s + j)

/-- `n` is the length of 43_match.md R171: the greatest number within the two caps up to which the elements at
`current` equal those `distance` back. -/
def IsMatchLength (s : State) (current distance maxLen n : Nat) : Prop :=
  n ≤ maxLen ∧ n ≤ s.dlen.toNat - current ∧
    (∀ i, i < n → s.dataCell (current + i) = s.dataCell (current - distance + i)) ∧
    (n < maxLen → n < s.dlen.toNat - current →
      s.dataCell (current + n) ≠ s.dataCell (current - distance + n))

/-- The width a bit read that returns a value asks for (42_reader.md R143 to R146). -/
def bitReadWidth (i : Instr) (s : State) : Option Nat :=
  match i with
  | .rBool => some 1
  | .rNib => some 4
  | .rByte => some 8
  | .rBits => some s.a0.toNat
  | _ => none

/-- The width and the value a push appends (41_writer.md R122 to R125). -/
def pushField (i : Instr) (s : State) : Option (Nat × Nat) :=
  match i with
  | .wPush => some (tbvWidth s.a0, tbvPayload s.a0)
  | .wPbool => some (1, s.a0.toNat % 2)
  | .wPbyte => some (8, s.a0.toNat % 256)
  | .wPnib => some (4, s.a0.toNat % 16)
  | _ => none

/-- How many bytes a command stores, from `OUT[WLEN]` on (41_writer.md R129, R126, R128); no other command stores
(00_scope.md R10). -/
def storedBytes (i : Instr) (s : State) : Nat :=
  match i with
  | .wPush => (s.wpos.toNat + tbvWidth s.a0) / 8
  | .wPbool => (s.wpos.toNat + 1) / 8
  | .wPbyte => (s.wpos.toNat + 8) / 8
  | .wPnib => (s.wpos.toNat + 4) / 8
  | .wAlign => (s.wpos.toNat + 7) / 8
  | .wFin => (s.wpos.toNat + 7) / 8
  | _ => 0

/-- One item of a stream: a field of a width and a value, an alignment, or whole bytes straight after an alignment
(42_reader.md R158). -/
inductive Item where
  | field (w v : Nat)
  | align
  | raw (bytes : List Byte)
deriving DecidableEq, Repr

/-- A field a writer can take: a BitWidth and a value that fits it. -/
def Item.wf : Item → Bool
  | .field w v => 1 ≤ w && w ≤ 24 && v < 2 ^ w
  | .align => true
  | .raw _ => true

/-- The host's statements that write an item. -/
def Item.writes : Item → List HostAction
  | .field w v => call .wPush [mkTbv w v]
  | .align => [issueOf .wAlign]
  | .raw bytes => issueOf .wAlign :: bytes.flatMap fun b => call .wPbyte [b.setWidth 32]

/-- The host's statements that write a whole stream: `W.NEW`, the items, `W.FIN`. -/
def writeStream (items : List Item) : List HostAction :=
  issueOf .wNew :: items.flatMap Item.writes ++ [issueOf .wFin]

/-- The host copies the finished buffer `OUT[0..R0)` to `IN` and opens a reader over it (42_reader.md R156). -/
def copyAndOpen (t : State) : List HostAction :=
  .writeMem 0 (.input ((List.range t.r0.toNat).map t.outCell)) :: call .rNew [t.r0]

/-- Writer commands, each after `A0` is set to a word (41_writer.md R131). -/
def writerCalls (calls : List (Instr × Word)) : List HostAction :=
  calls.flatMap fun c => [.writeReg 3 c.2, issueOf c.1]

/-- From `s` the bytes are returned one after another by `R.NXBYTE` commands, and what follows holds afterwards
(42_reader.md R151). -/
def ReadsBytes (s : State) (bytes : List Byte) (after : State → Prop) : Prop :=
  match bytes with
  | [] => after s
  | b :: rest =>
    ∃ t, perform s [issueOf .rNxbyte] = .next t ∧ t.stV = true ∧ t.stF = false ∧ t.r0 = b.setWidth 32 ∧
      ReadsBytes t rest after

/-- From `s` the items read back: each field with its value, each alignment skipped, whole bytes by either range read,
or, when there are any, by one `R.NXBYTE` each, and at most 7 zero bits left at the end (42_reader.md R156, R158). -/
def ReadsBack (s : State) : List Item → Prop
  | [] => avail s ≤ 7 ∧ field s (rbitpos s) (avail s) = 0
  | .field w v :: rest =>
    ∃ t, perform s (call .rBits [BitVec.ofNat 32 w]) = .next t ∧ t.stV = true ∧ t.stF = false ∧
      t.r0.toNat = v ∧ ReadsBack t rest
  | .align :: rest =>
    ∃ t, perform s [issueOf .rAlign] = .next t ∧ t.stV = true ∧ t.stF = false ∧ ReadsBack t rest
  | .raw bytes :: rest =>
    (∀ i, i = .rNxarr ∨ i = .rNxslc →
      ∃ t, perform s (call i [BitVec.ofNat 32 bytes.length]) = .next t ∧ t.stV = true ∧ t.stF = false ∧
        t.r1.toNat = bytes.length ∧ (∀ k b, bytes[k]? = some b → t.inCell (t.r0.toNat + k) = b) ∧
        ReadsBack t rest) ∧
      (bytes ≠ [] → ReadsBytes s bytes fun t => ReadsBack t rest)

end Sys2Proof.Machine
end

