-- ==== Sys2Proof/Certificates/Slice0/Obligations.lean ====
section
/-! DEFINITION. The statements for the provers. Each docstring names the rule it formalises. A raised fault is
written out: `stF := true, stV := false, stCause := code` (60_exceptions.md R201, R203). -/

open Sys2Proof Sys2Proof.Machine

/-- 30_encoding.md R72, R73, R74: decoding a command's word gives the command back; a word decodes to a command only
when it is that command's word; and a word decodes to some command exactly when its bits 31:8 are zero and its opcode
is listed. -/
def Obligations.DecodeIsExact : Prop :=
  (∀ i : Instr, i.wf = true → decode (encode i) = .ok i) ∧
    ∀ c : Word, (∀ i : Instr, decode c = .ok i ↔ c = encode i) ∧ ((∃ i, decode c = .ok i) ↔ legalWord c = true)

/-- Words written out from the opcode map of 30_encoding.md R73, one or two a family, and words R74 rules out. -/
def Obligations.SampleWordsDecode : Prop :=
  decode 0x00000010 = .ok .bwNew ∧ decode 0x00000018 = .ok .tbvEq ∧ decode 0x00000021 = .ok .wPush ∧
    decode 0x00000027 = .ok .wFin ∧ decode 0x00000034 = .ok .rBits ∧ decode 0x0000003A = .ok .rNxslc ∧
    decode 0x00000041 = .ok .mFind ∧ decode 0x0000001A = .error .unlistedOpcode ∧
    decode 0x00000120 = .error .highBitsNotZero

/-- 30_encoding.md R71: when the host's next action writes a command word that decodes to `i`, the step is `exec i`
from the state without that action; the model's `withFetchWord` places exactly such an action. -/
def Obligations.StepRunsTheDecodedCommand : Prop :=
  ∀ (s : State) (c : Word) (i : Instr), decode c = .ok i →
    (∀ rest, s.queue = .command c :: rest → step s = exec i { s with queue := rest }) ∧
      step (s.withFetchWord 32 c.toNat) = exec i s

/-- 30_encoding.md R74: a word that is no command raises `IllegalCommand` and changes nothing else. -/
def Obligations.IllegalWordsRaiseIllegalCommand : Prop :=
  ∀ (s : State) (c : Word) (rest : List HostAction), s.queue = .command c :: rest → s.stF = false →
    legalWord c = false →
    step s = .next { s with queue := rest, stF := true, stV := false, stCause := 1 }

/-- 60_exceptions.md R202: a faulted unit refuses every command word, legal or not, with no change of state. -/
def Obligations.FaultedUnitRefusesEveryCommand : Prop :=
  ∀ s : State, s.stF = true → (∀ i, exec i s = .next s) ∧
    ∀ (c : Word) (rest : List HostAction), s.queue = .command c :: rest → step s = .next { s with queue := rest }

/-- 60_exceptions.md R201, R203: a command that raises leaves the state before it with only `ST` changed, and the
cause is one of the codes 1 to 11. -/
def Obligations.FatalFaultChangesOnlyStatus : Prop :=
  ∀ (i : Instr) (s t : State), exec i s = .next t → s.stF = false → t.stF = true →
    t = { s with stF := true, stV := false, stCause := t.stCause } ∧
      1 ≤ t.stCause.toNat ∧ t.stCause.toNat ≤ 11

/-- 60_exceptions.md R205: a command that ends with no value changes nothing but `ST.V`, but for the raw reads, which
keep their alignment; and only the commands R205 lists can end so. -/
def Obligations.NoValueChangesOnlyTheFlag : Prop :=
  ∀ (i : Instr) (s t : State), exec i s = .next t → s.stF = false → t.stF = false → t.stV = false →
    i ∈ [Instr.bwNew, .tbvNewc, .rBool, .rNib, .rByte, .rBits, .rPeek, .rAdv, .rNxbyte, .rNxarr, .rNxslc, .mFind] ∧
      (if i ∈ [Instr.rNxbyte, .rNxarr, .rNxslc] then
        t = { s with
          stV := false
          racc := BitVec.ofNat 32 (s.racc.toNat / 2 ^ (s.rleft.toNat % 8))
          rleft := BitVec.ofNat 5 (s.rleft.toNat - s.rleft.toNat % 8) }
      else t = { s with stV := false })

/-- 10_state.md R25, 60_exceptions.md R202: no step but a reset clears `ST.F` or changes the cause of the first
fault. -/
def Obligations.OnlyResetClearsAFault : Prop :=
  ∀ s t : State, step s = .next t → s.stF = true → (∀ rest, s.queue ≠ .reset :: rest) →
    t.stF = true ∧ t.stCause = s.stCause

/-- 20_memory.md R66: in a state that meets the invariants no command asks for an access out of bounds: every
command ends in a next state. -/
def Obligations.CommandsNeverStop : Prop :=
  ∀ s : State, Inv s → ∀ i, ∃ t, exec i s = .next t

/-- 10_state.md R21, R22, R26: the unit writes an operand register in `TBV.REV` only, and then `A0`; it never writes
`DLEN`; without a value it leaves `R0` and `R1`; a command that names no result leaves both, and one that names only
`R0` leaves `R1`; and a host register write changes neither. -/
def Obligations.RegistersTheUnitMayWrite : Prop :=
  (∀ (i : Instr) (s t : State), exec i s = .next t →
    t.a1 = s.a1 ∧ t.a2 = s.a2 ∧ t.a3 = s.a3 ∧ t.a4 = s.a4 ∧ t.a5 = s.a5 ∧ (i ≠ .tbvRev → t.a0 = s.a0) ∧
      t.dlen = s.dlen ∧ (t.stV = false → t.r0 = s.r0 ∧ t.r1 = s.r1) ∧
      (i ∈ [Instr.tbvRev, .wNew, .wPush, .wPbool, .wPbyte, .wPnib, .wAlign, .rNew, .rAdv, .rAlign] → t.r0 = s.r0) ∧
      (i ∉ [Instr.rNxarr, .rNxslc, .mFind] → t.r1 = s.r1)) ∧
    ∀ (s t : State) (n : Nat) (v : Word) (rest : List HostAction), s.queue = .writeReg n v :: rest →
      step s = .next t → t.r0 = s.r0 ∧ t.r1 = s.r1

/-- 00_scope.md R10, 20_memory.md R52: a command stores at most the bytes `OUT[WLEN .. WLEN + storedBytes)`; every
other cell of every space reads as before, and the parameters stay. -/
def Obligations.OnlyTheWriterStoresAndOnlyAtItsEnd : Prop :=
  ∀ (i : Instr) (s t : State), exec i s = .next t →
    (∀ a, a < s.wlen.toNat ∨ s.wlen.toNat + storedBytes i s ≤ a →
      readCell t a .output = readCell s a .output) ∧
    (∀ a, readCell t a .input = readCell s a .input ∧ readCell t a .data = readCell s a .data ∧
      readCell t a .cand = readCell s a .cand) ∧
    t.cfg = s.cfg ∧ t.queue = s.queue

/-- 10_state.md R24: the layout of the word `ST`. -/
def Obligations.StatusWordLayout : Prop :=
  ∀ s : State, (stWord s).getLsbD 0 = s.stV ∧ (stWord s).getLsbD 1 = s.stF ∧ (stWord s).getLsbD 2 = s.wopen ∧
    (stWord s).getLsbD 3 = s.ropen ∧ (stWord s).extractLsb' 4 4 = 0 ∧ (stWord s).extractLsb' 8 8 = s.stCause ∧
    (stWord s).extractLsb' 16 16 = 0

/-- 10_state.md R27, R28: what the host reads from each register number; a write to a number the host may not write
changes nothing, a write to another replaces that register and nothing else, whether the unit is faulted or not; a
read changes nothing. -/
def Obligations.RegisterPort : Prop :=
  ∀ (s : State) (n : Nat) (v : Word) (rest : List HostAction),
    (readReg s 0 = stWord s ∧ readReg s 1 = s.r0 ∧ readReg s 2 = s.r1 ∧ readReg s 3 = s.a0 ∧ readReg s 4 = s.a1 ∧
      readReg s 5 = s.a2 ∧ readReg s 6 = s.a3 ∧ readReg s 7 = s.a4 ∧ readReg s 8 = s.a5 ∧ readReg s 9 = s.dlen ∧
      readReg s 10 = s.wlen ∧ (readReg s 11).toNat = s.wpos.toNat ∧ (readReg s 12).toNat = s.wacc.toNat ∧
      readReg s 13 = s.rlen ∧ readReg s 14 = s.ridx ∧ (readReg s 15).toNat = s.rleft.toNat ∧
      readReg s 16 = s.racc ∧ (17 ≤ n → readReg s n = 0)) ∧
    (s.queue = .writeReg n v :: rest →
      ((n < 3 ∨ 10 ≤ n) → step s = .next { s with queue := rest }) ∧
      (3 ≤ n → n ≤ 9 → ∃ t, step s = .next t ∧ readReg t n = v ∧ (∀ m, m ≠ n → readReg t m = readReg s m) ∧
        t = { s with a0 := t.a0, a1 := t.a1, a2 := t.a2, a3 := t.a3, a4 := t.a4, a5 := t.a5, dlen := t.dlen,
                     queue := rest })) ∧
    (s.queue = .readReg n :: rest → step s = .next { s with queue := rest })

/-- 30_encoding.md R77, 20_memory.md R64: a host memory statement within a space writes exactly its cells, in each of
the four spaces (that the host may write `OUT` too is the model's choice, log entry 5). -/
def Obligations.HostMemoryStatementsWriteTheirCells : Prop :=
  ∀ (s : State) (a : Nat) (cells : CellList) (rest : List HostAction), s.queue = .writeMem a cells :: rest →
    a + cells.count ≤ capacity s.cfg cells.space → badElement? s.cfg cells = none →
    ∃ t, step s = .next t ∧
      (∀ k, a ≤ k → k < a + cells.count → match cells with
        | .input vs => vs[k - a]? = some (t.inCell k)
        | .output vs => vs[k - a]? = some (t.outCell k)
        | .data vs => vs[k - a]? = some (t.dataCell k)
        | .cand vs => vs[k - a]? = some (t.candCell k)) ∧
      (∀ k sp, sp ≠ cells.space ∨ k < a ∨ a + cells.count ≤ k → readCell t k sp = readCell s k sp) ∧
      t = { s with queue := rest, inMem := t.inMem, outMem := t.outMem, dataMem := t.dataMem, candMem := t.candMem }

/-- 10_state.md R43, 70_reset_and_hazards.md R221: every register and session variable of the reset state is 0, and
no cell has contents of the reset's. -/
def Obligations.ResetStateIsZero : Prop :=
  (∀ n, readReg State.reset n = 0) ∧ State.reset.stV = false ∧ State.reset.stF = false ∧
    State.reset.stCause = 0 ∧ State.reset.wopen = false ∧ State.reset.ropen = false ∧
    State.reset.inMem = [] ∧ State.reset.outMem = [] ∧ State.reset.dataMem = [] ∧ State.reset.candMem = []

/-- 70_reset_and_hazards.md R220, R221: the reset event, from any state, faulted or not, zeroes every register and
session variable and touches no memory. -/
def Obligations.ResetEventClearsAllButMemory : Prop :=
  ∀ (s : State) (rest : List HostAction), s.queue = .reset :: rest →
    ∃ t, step s = .next t ∧ (∀ n, readReg t n = 0) ∧ t.stV = false ∧ t.stF = false ∧ t.stCause = 0 ∧
      t.wopen = false ∧ t.ropen = false ∧ t.inMem = s.inMem ∧ t.outMem = s.outMem ∧ t.dataMem = s.dataMem ∧
      t.candMem = s.candMem ∧ t.cfg = s.cfg ∧ t.queue = rest

/-- The invariants hold at reset. -/
def Obligations.InvariantsHoldAtReset : Prop :=
  Inv State.reset ∧ Coherent State.reset

/-- 10_state.md R35 with the reader's, the status register's and the memories' invariants: every step, whatever the
host does in it, keeps them. -/
def Obligations.EveryStepKeepsTheInvariants : Prop :=
  ∀ s t : State, Inv s → step s = .next t → Inv t

/-- 10_state.md R39, items (a) to (f), item (e) among them: every command keeps the reader's invariants, the
buffered bits being the stream's bits at the logical position. -/
def Obligations.EveryCommandKeepsTheBufferedBits : Prop :=
  ∀ (i : Instr) (s t : State), Inv s → Coherent s → exec i s = .next t → ReaderInv t ∧ Coherent t

/-- 40_bitwidth_tbv.md R101. -/
def Obligations.BwNewGivesTheWidthOrNoValue : Prop :=
  decode 0x00000010 = .ok .bwNew ∧
    ∀ s : State, s.stF = false →
      exec .bwNew s = .next (if 1 ≤ s.a0.toNat ∧ s.a0.toNat ≤ 24 then { s with r0 := s.a0, stV := true }
        else { s with stV := false })

/-- 40_bitwidth_tbv.md R102. -/
def Obligations.BwNewuChecksAlways : Prop :=
  decode 0x00000011 = .ok .bwNewu ∧
    ∀ s : State, s.stF = false →
      exec .bwNewu s = .next (if 1 ≤ s.a0.toNat ∧ s.a0.toNat ≤ 24 then { s with r0 := s.a0, stV := true }
        else { s with stF := true, stV := false, stCause := 2 })

/-- 40_bitwidth_tbv.md R103, R104, R111: the mask is `2^w - 1`, the power of two `2^w`, its successor. -/
def Obligations.BwMaskAndBwPow2 : Prop :=
  decode 0x00000012 = .ok .bwMask ∧ decode 0x00000013 = .ok .bwPow2 ∧
    ∀ s : State, s.stF = false →
      (1 ≤ s.a0.toNat ∧ s.a0.toNat ≤ 24 →
        ∃ m p : Word, exec .bwMask s = .next { s with r0 := m, stV := true } ∧
          exec .bwPow2 s = .next { s with r0 := p, stV := true } ∧
          m.toNat = 2 ^ s.a0.toNat - 1 ∧ p.toNat = 2 ^ s.a0.toNat ∧ p.toNat = m.toNat + 1) ∧
      (¬(1 ≤ s.a0.toNat ∧ s.a0.toNat ≤ 24) →
        exec .bwMask s = .next { s with stF := true, stV := false, stCause := 2 } ∧
        exec .bwPow2 s = .next { s with stF := true, stV := false, stCause := 2 })

/-- 40_bitwidth_tbv.md R105: tag in bits 31:24, the 24 low bits of the value in bits 23:0, not cut to the width. -/
def Obligations.TbvNewTagsAndMasksTo24Bits : Prop :=
  decode 0x00000014 = .ok .tbvNew ∧
    ∀ s : State, s.stF = false →
      exec .tbvNew s = .next (if 1 ≤ s.a0.toNat ∧ s.a0.toNat ≤ 24 then
          { s with r0 := (s.a0.setWidth 8 ++ s.a1.setWidth 24 : BitVec 32), stV := true }
        else { s with stF := true, stV := false, stCause := 2 })

/-- 40_bitwidth_tbv.md R106: all 32 bits of `A1` are compared with `2^w`. -/
def Obligations.TbvNewcRejectsWideValues : Prop :=
  decode 0x00000015 = .ok .tbvNewc ∧
    ∀ s : State, s.stF = false →
      exec .tbvNewc s = .next (if 1 ≤ s.a0.toNat ∧ s.a0.toNat ≤ 24 then
          if 2 ^ s.a0.toNat ≤ s.a1.toNat then { s with stV := false }
          else { s with r0 := (s.a0.setWidth 8 ++ s.a1.setWidth 24 : BitVec 32), stV := true }
        else { s with stF := true, stV := false, stCause := 2 })

/-- 40_bitwidth_tbv.md R113: bit `i` of `bitrev(w, v)` is bit `w - 1 - i` of `v`. -/
def Obligations.BitrevReversesTheBits : Prop :=
  ∀ w v : Nat, 1 ≤ w → w ≤ 24 → v < 2 ^ w →
    bitrev w v < 2 ^ w ∧ ∀ i, i < w → (bitrev w v).testBit i = v.testBit (w - 1 - i)

/-- 40_bitwidth_tbv.md R107, R108: both reversals give the word with the same tag whose payload has bit `w - 1 - i`
of the operand at place `i` below `w` and zeros above; `TBV.REVD` writes it to `R0`, `TBV.REV` to `A0`; no other
command writes an operand register. -/
def Obligations.TbvReversals : Prop :=
  decode 0x00000016 = .ok .tbvRevd ∧ decode 0x00000017 = .ok .tbvRev ∧
    (∀ (i : Instr) (s t : State), i ≠ .tbvRev → exec i s = .next t →
      t.a0 = s.a0 ∧ t.a1 = s.a1 ∧ t.a2 = s.a2 ∧ t.a3 = s.a3 ∧ t.a4 = s.a4 ∧ t.a5 = s.a5) ∧
    ∀ s : State, s.stF = false →
      (1 ≤ s.a0.toNat / 2 ^ 24 ∧ s.a0.toNat / 2 ^ 24 ≤ 24 →
        ∃ r : Word, r.toNat / 2 ^ 24 = s.a0.toNat / 2 ^ 24 ∧
          (∀ i, i < 24 → r.getLsbD i =
            (decide (i < s.a0.toNat / 2 ^ 24) && s.a0.getLsbD (s.a0.toNat / 2 ^ 24 - 1 - i))) ∧
          exec .tbvRevd s = .next { s with r0 := r, stV := true } ∧
          exec .tbvRev s = .next { s with a0 := r, stV := true }) ∧
      (¬(1 ≤ s.a0.toNat / 2 ^ 24 ∧ s.a0.toNat / 2 ^ 24 ≤ 24) →
        exec .tbvRevd s = .next { s with stF := true, stV := false, stCause := 2 } ∧
        exec .tbvRev s = .next { s with stF := true, stV := false, stCause := 2 })

/-- 40_bitwidth_tbv.md R112: `TBV.REVD` applied to the result of `TBV.REVD` returns a fitting TBV as it was, and any
other valid TBV with its payload cut to its width. -/
def Obligations.ReversingTwiceGivesTheOriginal : Prop :=
  ∀ s : State, s.stF = false → tbvValid s.a0 = true →
    ∃ t u, exec .tbvRevd s = .next t ∧ exec .tbvRevd { t with a0 := t.r0 } = .next u ∧ u.stV = true ∧
      u.r0 = mkTbv (tbvWidth s.a0) (tbvPayload s.a0 % 2 ^ tbvWidth s.a0) ∧ (tbvFitting s.a0 = true → u.r0 = s.a0)

/-- 40_bitwidth_tbv.md R109: both tags are checked, the 24-bit payloads compared. -/
def Obligations.TbvEqComparesPayloads : Prop :=
  decode 0x00000018 = .ok .tbvEq ∧
    ∀ s : State, s.stF = false →
      exec .tbvEq s = .next (if (1 ≤ s.a0.toNat / 2 ^ 24 ∧ s.a0.toNat / 2 ^ 24 ≤ 24) ∧
            1 ≤ s.a1.toNat / 2 ^ 24 ∧ s.a1.toNat / 2 ^ 24 ≤ 24 then
          { s with r0 := if s.a0.setWidth 24 = s.a1.setWidth 24 then 1 else 0, stV := true }
        else { s with stF := true, stV := false, stCause := 2 })

/-- 40_bitwidth_tbv.md R110: 0 gives 0; else, `2^k` being the least power of two that is at least `n`, the result is
`2^k` when `n` is at or above 3/4 of it and half of it below; a result of `2^32` raises `NpotOverflow`, exactly when
`n >= 0xC0000000`. -/
def Obligations.NpotRoundsToTheNearerPowerOfTwo : Prop :=
  decode 0x00000019 = .ok .npot ∧
    ∀ s : State, s.stF = false →
      (s.a0 = 0 → exec .npot s = .next { s with r0 := 0, stV := true }) ∧
      (∀ k, s.a0.toNat ≤ 2 ^ k → 2 ^ k < 2 * s.a0.toNat → s.a0.toNat < 0xC0000000 →
        ∃ r : Word, r.toNat = (if 3 * 2 ^ k ≤ 4 * s.a0.toNat then 2 ^ k else 2 ^ k / 2) ∧
          exec .npot s = .next { s with r0 := r, stV := true }) ∧
      (0xC0000000 ≤ s.a0.toNat → exec .npot s = .next { s with stF := true, stV := false, stCause := 11 })

/-- 40_bitwidth_tbv.md R100: the frame of the field logic: nothing but `ST` and the result register changes, `R0`, or
`A0` for `TBV.REV`; every cell reads as before. -/
def Obligations.FieldLogicFrame : Prop :=
  ∀ (i : Instr) (s t : State), i.family = .fieldLogic → exec i s = .next t →
    t = { s with r0 := t.r0, a0 := t.a0, stV := t.stV, stF := t.stF, stCause := t.stCause } ∧
      (i = .tbvRev → t.r0 = s.r0) ∧ (i ≠ .tbvRev → t.a0 = s.a0) ∧
      ∀ a sp, readCell t a sp = readCell s a sp

/-- 41_writer.md R121. -/
def Obligations.WNewOpensAnEmptyWriter : Prop :=
  decode 0x00000020 = .ok .wNew ∧
    ∀ s : State, s.stF = false →
      exec .wNew s = .next { s with wopen := true, wlen := 0, wacc := 0, wpos := 0, stV := true }

/-- 41_writer.md R122 to R125, R129: the faults of the four pushes in their order, and what an append does: the bytes
it completes, the remainder it leaves pending, and nothing else. -/
def Obligations.PushesAppendOrRaise : Prop :=
  decode 0x00000021 = .ok .wPush ∧ decode 0x00000022 = .ok .wPbool ∧ decode 0x00000023 = .ok .wPbyte ∧
    decode 0x00000024 = .ok .wPnib ∧
    ∀ (i : Instr) (s : State) (w v : Nat), pushField i s = some (w, v) → s.cfg.wf → WriterInv s → s.stF = false →
      (s.wopen = false → exec i s = .next { s with stF := true, stV := false, stCause := 3 }) ∧
      (s.wopen = true →
        let nfull := (s.wpos.toNat + w) / 8
        let acc := s.wacc.toNat + v % 2 ^ w * 2 ^ s.wpos.toNat
        (¬(1 ≤ w ∧ w ≤ 24) → exec i s = .next { s with stF := true, stV := false, stCause := 2 }) ∧
        (1 ≤ w ∧ w ≤ 24 → s.cfg.outCap < s.wlen.toNat + nfull →
          exec i s = .next { s with stF := true, stV := false, stCause := 9 }) ∧
        (1 ≤ w ∧ w ≤ 24 → s.wlen.toNat + nfull ≤ s.cfg.outCap →
          ∃ t, exec i s = .next t ∧
            t.wlen.toNat = s.wlen.toNat + nfull ∧ t.wacc.toNat = acc / 2 ^ (8 * nfull) ∧
            t.wpos.toNat = (s.wpos.toNat + w) % 8 ∧
            (∀ k, k < nfull → (t.outCell (s.wlen.toNat + k)).toNat = acc / 2 ^ (8 * k) % 2 ^ 8) ∧
            (∀ a, a < s.wlen.toNat ∨ s.wlen.toNat + nfull ≤ a → t.outCell a = s.outCell a) ∧
            t = { s with outMem := t.outMem, wlen := t.wlen, wacc := t.wacc, wpos := t.wpos, stV := true }))

/-- 41_writer.md R123, R124, R125: each wrapper ends as `W.PUSH` of the matching TBV does, `A0` aside. -/
def Obligations.PushWrappersEqualWPush : Prop :=
  ∀ s : State,
    (∃ t, exec .wPush { s with a0 := mkTbv 1 (s.a0.toNat % 2) } = .next t ∧
      exec .wPbool s = .next { t with a0 := s.a0 }) ∧
    (∃ t, exec .wPush { s with a0 := mkTbv 8 (s.a0.toNat % 256) } = .next t ∧
      exec .wPbyte s = .next { t with a0 := s.a0 }) ∧
    (∃ t, exec .wPush { s with a0 := mkTbv 4 (s.a0.toNat % 16) } = .next t ∧
      exec .wPnib s = .next { t with a0 := s.a0 })

/-- 41_writer.md R130, the law of append: a push that fits lengthens the output bit string by exactly the `w` bits of
its value, least significant first, and changes nothing of it before them. -/
def Obligations.PushesAppendTheirBits : Prop :=
  ∀ (i : Instr) (s : State) (w v : Nat), pushField i s = some (w, v) → s.cfg.wf → WriterInv s → s.stF = false →
    s.wopen = true → 1 ≤ w → w ≤ 24 → s.wlen.toNat + (s.wpos.toNat + w) / 8 ≤ s.cfg.outCap →
    ∃ t, exec i s = .next t ∧ outBits t = outBits s ++ bitsOf w v ∧ (outBits t).length = (outBits s).length + w ∧
      t.stV = true ∧ t.stF = false ∧ t.wopen = true

/-- 41_writer.md R126: the writer's alignment, in all its cases. -/
def Obligations.WAlignFlushesAPartialByte : Prop :=
  decode 0x00000025 = .ok .wAlign ∧
    ∀ s : State, s.stF = false →
      exec .wAlign s = .next (
        if s.wopen = false then { s with stF := true, stV := false, stCause := 3 }
        else if s.wpos = 0 then { s with stV := true }
        else if s.cfg.outCap < s.wlen.toNat + 1 then { s with stF := true, stV := false, stCause := 9 }
        else { s with outMem := s.outMem.write s.wlen.toNat s.wacc, wlen := s.wlen + 1, wacc := 0, wpos := 0,
                      stV := true })

/-- 41_writer.md R128: `W.FIN` flushes, closes the writer and returns the byte count. -/
def Obligations.WFinFlushesAndCloses : Prop :=
  decode 0x00000027 = .ok .wFin ∧
    ∀ s : State, s.stF = false →
      exec .wFin s = .next (
        if s.wopen = false then { s with stF := true, stV := false, stCause := 3 }
        else if s.wpos = 0 then { s with wacc := 0, wopen := false, r0 := s.wlen, stV := true }
        else if s.cfg.outCap < s.wlen.toNat + 1 then { s with stF := true, stV := false, stCause := 9 }
        else { s with outMem := s.outMem.write s.wlen.toNat s.wacc, wlen := s.wlen + 1, wacc := 0, wpos := 0,
                      wopen := false, r0 := s.wlen + 1, stV := true })

/-- 41_writer.md R126, R128, corner cases: a flush appends the `(8 - WPOS) mod 8` zero bits that complete the last
byte, and `R0` of `W.FIN` counts the bytes of the whole string. -/
def Obligations.FlushPadsWithZeros : Prop :=
  ∀ s : State, s.cfg.wf → WriterInv s → s.stF = false → s.wopen = true →
    (s.wpos.toNat = 0 ∨ s.wlen.toNat + 1 ≤ s.cfg.outCap) →
    ∃ t u, exec .wAlign s = .next t ∧ exec .wFin s = .next u ∧
      outBits t = outBits s ++ List.replicate ((8 - s.wpos.toNat) % 8) false ∧ outBits u = outBits t ∧
      t.wpos = 0 ∧ 8 * u.r0.toNat = (outBits u).length ∧ u.wopen = false

/-- 41_writer.md R127, 10_state.md R36: `W.BITCNT` returns the length of the output bit string. -/
def Obligations.WBitcntCountsTheBits : Prop :=
  decode 0x00000026 = .ok .wBitcnt ∧
    ∀ s : State, s.cfg.wf → WriterInv s → s.stF = false →
      (s.wopen = true → ∃ r : Word, exec .wBitcnt s = .next { s with r0 := r, stV := true } ∧
        r.toNat = 8 * s.wlen.toNat + s.wpos.toNat ∧ r.toNat = (outBits s).length) ∧
      (s.wopen = false → exec .wBitcnt s = .next { s with stF := true, stV := false, stCause := 3 })

/-- 41_writer.md R120, 42_reader.md R140, 60_exceptions.md R204: a command on a session that does not exist raises
before anything else; with a session, a width operand outside 1..24 raises, before "no value" is looked at. -/
def Obligations.SessionsAreCheckedFirst : Prop :=
  ∀ s : State, s.stF = false →
    (s.wopen = false → ∀ i, i.family = .writer → i ≠ .wNew →
      exec i s = .next { s with stF := true, stV := false, stCause := 3 }) ∧
    (s.ropen = false → ∀ i, i.family = .reader → i ≠ .rNew →
      exec i s = .next { s with stF := true, stV := false, stCause := 4 }) ∧
    (s.ropen = true → ¬(1 ≤ s.a0.toNat ∧ s.a0.toNat ≤ 24) → ∀ i, i = .rBits ∨ i = .rPeek ∨ i = .rAdv →
      exec i s = .next { s with stF := true, stV := false, stCause := 2 })

/-- 41_writer.md R120: the frame of the writer commands: nothing but `ST`, the writer's session and `OUT` changes,
and `R0` for `W.BITCNT` and `W.FIN`; of `OUT` only the bytes from `WLEN` on that the command stores. -/
def Obligations.WriterFrame : Prop :=
  ∀ (i : Instr) (s t : State), i.family = .writer → exec i s = .next t →
    t = { s with r0 := t.r0, stV := t.stV, stF := t.stF, stCause := t.stCause, wopen := t.wopen, wlen := t.wlen,
                 wacc := t.wacc, wpos := t.wpos, outMem := t.outMem } ∧
      (i ≠ .wBitcnt → i ≠ .wFin → t.r0 = s.r0) ∧ (i ≠ .wNew → i ≠ .wFin → t.wopen = s.wopen) ∧
      (i = .wBitcnt → t.wlen = s.wlen ∧ t.wacc = s.wacc ∧ t.wpos = s.wpos) ∧
      (∀ a, a < s.wlen.toNat ∨ s.wlen.toNat + storedBytes i s ≤ a →
        readCell t a .output = readCell s a .output) ∧
      ∀ a, readCell t a .input = readCell s a .input ∧ readCell t a .data = readCell s a .data ∧
        readCell t a .cand = readCell s a .cand

/-- 42_reader.md R142. -/
def Obligations.RNewOpensAReader : Prop :=
  decode 0x00000030 = .ok .rNew ∧
    ∀ s : State, s.stF = false →
      exec .rNew s = .next (if s.cfg.inCap < s.a0.toNat then { s with stF := true, stV := false, stCause := 10 }
        else { s with ropen := true, rlen := s.a0, ridx := 0, racc := 0, rleft := 0, stV := true })

/-- 42_reader.md R143 to R146, R157: a consuming bit read checks the session, then its width; when `w` bits are left it
returns the field at the logical position and moves it by `w`, having pulled just the bytes it needed; else it ends
with no value and changes nothing but `ST.V`. -/
def Obligations.BitReadsReturnTheFieldAtThePosition : Prop :=
  decode 0x00000034 = .ok .rBits ∧ decode 0x00000031 = .ok .rBool ∧ decode 0x00000032 = .ok .rNib ∧
    decode 0x00000033 = .ok .rByte ∧
    ∀ (i : Instr) (s : State) (w : Nat), bitReadWidth i s = some w → ReaderInv s → Coherent s → s.stF = false →
      (s.ropen = false → exec i s = .next { s with stF := true, stV := false, stCause := 4 }) ∧
      (s.ropen = true → ¬(1 ≤ w ∧ w ≤ 24) → exec i s = .next { s with stF := true, stV := false, stCause := 2 }) ∧
      (s.ropen = true → 1 ≤ w → w ≤ 24 →
        (rbitpos s + w ≤ 8 * s.rlen.toNat → ∃ t, exec i s = .next t ∧
          t.r0.toNat = field s (rbitpos s) w ∧ rbitpos t = rbitpos s + w ∧
          t.ridx.toNat = s.ridx.toNat + (w - s.rleft.toNat + 7) / 8 ∧
          t.rleft.toNat = s.rleft.toNat + 8 * ((w - s.rleft.toNat + 7) / 8) - w ∧
          t.racc.toNat = field s (rbitpos s + w) t.rleft.toNat ∧
          t = { s with r0 := t.r0, ridx := t.ridx, racc := t.racc, rleft := t.rleft, stV := true }) ∧
        (8 * s.rlen.toNat < rbitpos s + w → exec i s = .next { s with stV := false }))

/-- 42_reader.md R147, R157: `R.PEEK` checks the session, then its width; a peek returns the same field as a read would,
leaves the logical position, and keeps what it pulled; with fewer bits left it ends with no value and pulls nothing. -/
def Obligations.PeekReturnsTheFieldAndStays : Prop :=
  decode 0x00000035 = .ok .rPeek ∧
    ∀ s : State, ReaderInv s → Coherent s → s.stF = false →
      (s.ropen = false → exec .rPeek s = .next { s with stF := true, stV := false, stCause := 4 }) ∧
      (s.ropen = true → ¬(1 ≤ s.a0.toNat ∧ s.a0.toNat ≤ 24) →
        exec .rPeek s = .next { s with stF := true, stV := false, stCause := 2 }) ∧
      (s.ropen = true → 1 ≤ s.a0.toNat → s.a0.toNat ≤ 24 →
        (rbitpos s + s.a0.toNat ≤ 8 * s.rlen.toNat → ∃ t, exec .rPeek s = .next t ∧
          t.r0.toNat = field s (rbitpos s) s.a0.toNat ∧ rbitpos t = rbitpos s ∧
          t.ridx.toNat = s.ridx.toNat + (s.a0.toNat - s.rleft.toNat + 7) / 8 ∧
          t.rleft.toNat = s.rleft.toNat + 8 * ((s.a0.toNat - s.rleft.toNat + 7) / 8) ∧
          t.racc.toNat = field s (rbitpos s) t.rleft.toNat ∧
          t = { s with r0 := t.r0, ridx := t.ridx, racc := t.racc, rleft := t.rleft, stV := true }) ∧
        (8 * s.rlen.toNat < rbitpos s + s.a0.toNat → exec .rPeek s = .next { s with stV := false }))

/-- 42_reader.md R154, the law of peek: after a peek any further peek of the same width ends as it did and leaves the
state as it is, and a read of the same width issued then ends the same way with the same `R0`; a peek never moves the
logical position. -/
def Obligations.PeekingTwiceAndThenReading : Prop :=
  ∀ s : State, ReaderInv s → s.stF = false → s.ropen = true → 1 ≤ s.a0.toNat → s.a0.toNat ≤ 24 →
    ∃ t v, exec .rPeek s = .next t ∧ exec .rPeek t = .next t ∧ exec .rBits t = .next v ∧
      rbitpos t = rbitpos s ∧ v.stV = t.stV ∧ v.stF = false ∧ v.r0 = t.r0

/-- 42_reader.md R148, R155, the law of advance: `R.ADV` ends as `R.BITS` of the same width does, in faults, in no value
and in value, and leaves the same state, `R0` aside, which it never writes. -/
def Obligations.AdvanceIsAReadWithoutResult : Prop :=
  decode 0x00000036 = .ok .rAdv ∧
    ∀ s : State, ReaderInv s → s.stF = false →
      (s.ropen = false → exec .rAdv s = .next { s with stF := true, stV := false, stCause := 4 } ∧
        exec .rBits s = exec .rAdv s) ∧
      (s.ropen = true → ¬(1 ≤ s.a0.toNat ∧ s.a0.toNat ≤ 24) →
        exec .rAdv s = .next { s with stF := true, stV := false, stCause := 2 } ∧ exec .rBits s = exec .rAdv s) ∧
      (s.ropen = true → 1 ≤ s.a0.toNat → s.a0.toNat ≤ 24 →
        ∃ t u, exec .rAdv s = .next t ∧ exec .rBits s = .next u ∧ t = { u with r0 := s.r0 } ∧
          t.stV = decide (rbitpos s + s.a0.toNat ≤ 8 * s.rlen.toNat) ∧
          (t.stV = true → rbitpos t = rbitpos s + s.a0.toNat) ∧ (t.stV = false → t = { s with stV := false }))

/-- 42_reader.md R149: `R.ALIGN` checks the session; it drops the rest of the current byte, keeps whole bytes pulled
ahead, and moves the logical position to the next multiple of 8. -/
def Obligations.RAlignDropsThePartialByte : Prop :=
  decode 0x00000037 = .ok .rAlign ∧
    ∀ s : State, ReaderInv s → s.stF = false →
      (s.ropen = false → exec .rAlign s = .next { s with stF := true, stV := false, stCause := 4 }) ∧
      (s.ropen = true → ∃ t, exec .rAlign s = .next t ∧
        t = { s with racc := s.racc >>> (s.rleft.toNat % 8),
                     rleft := BitVec.ofNat 5 (s.rleft.toNat - s.rleft.toNat % 8), stV := true } ∧
        rbitpos t = 8 * ((rbitpos s + 7) / 8))

/-- 42_reader.md R150, R152, R153: the range reads check the session; they return the `n` bytes at the logical byte
position, buffered whole bytes first, or align and end with no value; the two commands are one in effect. -/
def Obligations.RangeReadsTakeBytesAtThePosition : Prop :=
  decode 0x00000039 = .ok .rNxarr ∧ decode 0x0000003A = .ok .rNxslc ∧
    ∀ s : State, ReaderInv s → s.stF = false → ∀ i, i = .rNxarr ∨ i = .rNxslc →
      (s.ropen = false → exec i s = .next { s with stF := true, stV := false, stCause := 4 }) ∧
      (s.ropen = true →
        ((rbitpos s + 7) / 8 + s.a0.toNat ≤ s.rlen.toNat →
          exec i s = .next { s with
            r0 := BitVec.ofNat 32 ((rbitpos s + 7) / 8), r1 := s.a0
            ridx := BitVec.ofNat 32 ((rbitpos s + 7) / 8 + s.a0.toNat), racc := 0, rleft := 0, stV := true }) ∧
        (s.rlen.toNat < (rbitpos s + 7) / 8 + s.a0.toNat →
          exec i s = .next { s with
            racc := s.racc >>> (s.rleft.toNat % 8)
            rleft := BitVec.ofNat 5 (s.rleft.toNat - s.rleft.toNat % 8), stV := false }))

/-- 42_reader.md R151: `R.NXBYTE` checks the session; it aligns and returns the byte at the logical byte position, or
ends with no value, aligned. -/
def Obligations.NextByteReadReturnsTheByte : Prop :=
  decode 0x00000038 = .ok .rNxbyte ∧
    ∀ s : State, ReaderInv s → s.stF = false →
      (s.ropen = false → exec .rNxbyte s = .next { s with stF := true, stV := false, stCause := 4 }) ∧
      (s.ropen = true →
        ((rbitpos s + 7) / 8 + 1 ≤ s.rlen.toNat →
          exec .rNxbyte s = .next { s with
            r0 := (s.inCell ((rbitpos s + 7) / 8)).setWidth 32
            ridx := BitVec.ofNat 32 ((rbitpos s + 7) / 8 + 1), racc := 0, rleft := 0, stV := true }) ∧
        (s.rlen.toNat < (rbitpos s + 7) / 8 + 1 →
          exec .rNxbyte s = .next { s with
            racc := s.racc >>> (s.rleft.toNat % 8)
            rleft := BitVec.ofNat 5 (s.rleft.toNat - s.rleft.toNat % 8), stV := false }))

/-- 42_reader.md R140: the frame of the reader commands: nothing but `ST`, the reader's session and the results
changes; `R1` for the range reads only, `R0` never for `R.NEW`, `R.ADV`, `R.ALIGN`; every cell reads as before. -/
def Obligations.ReaderFrame : Prop :=
  ∀ (i : Instr) (s t : State), i.family = .reader → exec i s = .next t →
    t = { s with r0 := t.r0, r1 := t.r1, stV := t.stV, stF := t.stF, stCause := t.stCause, ropen := t.ropen,
                 rlen := t.rlen, ridx := t.ridx, racc := t.racc, rleft := t.rleft } ∧
      (i ≠ .rNxarr → i ≠ .rNxslc → t.r1 = s.r1) ∧
      (i = .rNew ∨ i = .rAdv ∨ i = .rAlign → t.r0 = s.r0) ∧
      (i ≠ .rNew → t.ropen = s.ropen ∧ t.rlen = s.rlen) ∧
      ∀ a sp, readCell t a sp = readCell s a sp

/-- 30_encoding.md R83: the single-bit iteration gives the `avail` bits of the stream from the logical position on,
in order, then ends with no value, and every further `R.BOOL` ends so too; whatever bound on the host's commands above
`avail` the model's iteration is given (log entry 12). -/
def Obligations.IterationGivesTheRemainingBits : Prop :=
  ∀ (s : State) (fuel : Nat), ReaderInv s → Coherent s → s.stF = false → s.ropen = true → avail s < fuel →
    (iterate fuel s).1 = (List.range (avail s)).map (fun j => streamBit s (rbitpos s + j)) ∧
      (iterate fuel s).2.stV = false ∧ (iterate fuel s).2.stF = false ∧ avail (iterate fuel s).2 = 0 ∧
      exec .rBool (iterate fuel s).2 = .next (iterate fuel s).2

/-- 42_reader.md R156, the law of the round trip: fields packed by `PACK`, copied by the host and read back in the
same order and widths give their exact values, and at most 7 zero bits are left. -/
def Obligations.RoundTripOfFields : Prop :=
  ∀ (s : State) (fields : List (Nat × Nat)), Inv s → s.stF = false →
    (∀ f ∈ fields, (Item.field f.1 f.2).wf = true) →
    ((fields.map Prod.fst).sum + 7) / 8 ≤ s.cfg.outCap → ((fields.map Prod.fst).sum + 7) / 8 ≤ s.cfg.inCap →
    ∃ t u, perform s (pack (fields.map fun f => mkTbv f.1 f.2)) = .next t ∧ t.stF = false ∧ t.stV = true ∧
      t.r0.toNat = ((fields.map Prod.fst).sum + 7) / 8 ∧
      perform t (copyAndOpen t) = .next u ∧ ReadsBack u (fields.map fun f => Item.field f.1 f.2)

/-- 42_reader.md R158, the law of alignment: with `W.ALIGN` at some points between the pushes and `R.ALIGN` at the
same points between the reads, the round trip still holds, whenever the writing ends without a fault; and the raw
reads return the bytes written with `W.PBYTE` straight after a `W.ALIGN`: a run of them as a range, or byte by byte. -/
def Obligations.RoundTripWithAlignments : Prop :=
  ∀ (s t : State) (items : List Item), Inv s → s.stF = false → (∀ x ∈ items, x.wf = true) →
    perform s (writeStream items) = .next t → t.stF = false → t.r0.toNat ≤ t.cfg.inCap →
    ∃ u, perform t (copyAndOpen t) = .next u ∧ ReadsBack u items

/-- 41_writer.md R131, binary compatibility: the finished buffer is a function of the writer commands since `W.NEW` and
their operands alone: two runs of the same commands, from any two states, whatever the parameters, that end without a
fault leave the same bytes. -/
def Obligations.TheFinishedBufferDependsOnTheCommandsAlone : Prop :=
  ∀ (s s' t t' : State) (calls : List (Instr × Word)), Inv s → Inv s' → s.stF = false → s'.stF = false →
    (∀ c ∈ calls, c.1.family = .writer) →
    perform s (issueOf .wNew :: writerCalls calls ++ [issueOf .wFin]) = .next t →
    perform s' (issueOf .wNew :: writerCalls calls ++ [issueOf .wFin]) = .next t' →
    t.stF = false → t'.stF = false →
    t.r0 = t'.r0 ∧ ∀ k, k < t.r0.toNat → t.outCell k = t'.outCell k

/-- 43_match.md R171, R173: the four faults of `M.LEN`, in their order, and else the length of the match, the greatest
number within the two caps up to which the elements agree, read from `DATA` as they stand, the ranges overlapping or
not. -/
def Obligations.MLenMeasuresTheMatch : Prop :=
  decode 0x00000040 = .ok .mLen ∧
    ∀ s : State, s.stF = false →
      (s.cfg.dataCap < s.dlen.toNat → exec .mLen s = .next { s with stF := true, stV := false, stCause := 10 }) ∧
      (s.dlen.toNat ≤ s.cfg.dataCap →
        (s.dlen.toNat < s.a0.toNat → exec .mLen s = .next { s with stF := true, stV := false, stCause := 5 }) ∧
        (s.a0.toNat ≤ s.dlen.toNat →
          (s.a1 = 0 → exec .mLen s = .next { s with stF := true, stV := false, stCause := 6 }) ∧
          (s.a0.toNat < s.a1.toNat → exec .mLen s = .next { s with stF := true, stV := false, stCause := 7 }) ∧
          (s.a1 ≠ 0 → s.a1.toNat ≤ s.a0.toNat →
            ∃ r : Word, exec .mLen s = .next { s with r0 := r, stV := true } ∧
              IsMatchLength s s.a0.toNat s.a1.toNat s.a2.toNat r.toNat)))

/-- 43_match.md R174, R175, R176, R178, R179: let the candidates examined be `0 .. m`, up to the first after which an
additional length reaches `threshold_max - g` or else to the last, each meeting the preconditions of `mlen`, and let `j`
be the first of the longest among them. Then `M.FIND` returns that length with `g` added and that distance, or ends
with no value when that length is 0 or the total is below `threshold_min`. Nothing is asked of the candidates after
`m`. -/
def Obligations.MFindReturnsTheFirstLongest : Prop :=
  decode 0x00000041 = .ok .mFind ∧
    ∀ (s : State) (m j : Nat) (add : Nat → Nat), s.stF = false → s.dlen.toNat ≤ s.cfg.dataCap →
      s.a5.toNat ≤ s.cfg.candCap → s.a4.toNat ≤ s.a1.toNat → s.a4.toNat ≤ s.a3.toNat →
      s.a0.toNat + s.a4.toNat ≤ s.dlen.toNat → m < s.a5.toNat → j ≤ m →
      (∀ i, i ≤ m → s.candCell i ≠ 0 ∧ (s.candCell i).toNat ≤ s.a0.toNat + s.a4.toNat ∧
        IsMatchLength s (s.a0.toNat + s.a4.toNat) (s.candCell i).toNat (s.a1.toNat - s.a4.toNat) (add i)) →
      (∀ i, i ≤ m → add i ≤ add j) → (∀ i, i < j → add i < add j) →
      (∀ i, i < m → add i < s.a3.toNat - s.a4.toNat) →
      (m + 1 = s.a5.toNat ∨ s.a3.toNat - s.a4.toNat ≤ add j) →
      exec .mFind s = .next (
        if add j = 0 ∨ add j + s.a4.toNat < s.a2.toNat then { s with stV := false }
        else { s with r0 := BitVec.ofNat 32 (add j + s.a4.toNat), r1 := s.candCell j, stV := true })

/-- 43_match.md R174, corner cases (e) and (d), 60_exceptions.md R204: the faults of `M.FIND` before the scan, in
their order, and the empty list, which gives no value with nothing else checked. -/
def Obligations.MFindChecksBeforeTheScan : Prop :=
  ∀ s : State, s.stF = false →
    (s.cfg.dataCap < s.dlen.toNat ∨ s.cfg.candCap < s.a5.toNat →
      exec .mFind s = .next { s with stF := true, stV := false, stCause := 10 }) ∧
    (s.dlen.toNat ≤ s.cfg.dataCap → s.a5.toNat ≤ s.cfg.candCap →
      (s.a1.toNat < s.a4.toNat ∨ s.a3.toNat < s.a4.toNat →
        exec .mFind s = .next { s with stF := true, stV := false, stCause := 8 }) ∧
      (s.a4.toNat ≤ s.a1.toNat → s.a4.toNat ≤ s.a3.toNat → s.a5 = 0 →
        exec .mFind s = .next { s with stV := false }))

/-- 43_match.md R174, corner case (e): a candidate the scan reaches that breaks a precondition of `mlen` raises its
fault, whatever was found before it. -/
def Obligations.MFindRaisesAtTheCandidateReached : Prop :=
  ∀ (s : State) (k : Nat), s.stF = false → s.dlen.toNat ≤ s.cfg.dataCap → s.a5.toNat ≤ s.cfg.candCap →
    s.a4.toNat ≤ s.a1.toNat → s.a4.toNat ≤ s.a3.toNat → k < s.a5.toNat →
    (∀ i, i < k → s.a0.toNat + s.a4.toNat ≤ s.dlen.toNat ∧ s.candCell i ≠ 0 ∧
      (s.candCell i).toNat ≤ s.a0.toNat + s.a4.toNat ∧
      ∃ n, n < s.a3.toNat - s.a4.toNat ∧
        IsMatchLength s (s.a0.toNat + s.a4.toNat) (s.candCell i).toNat (s.a1.toNat - s.a4.toNat) n) →
    (s.dlen.toNat < s.a0.toNat + s.a4.toNat →
      exec .mFind s = .next { s with stF := true, stV := false, stCause := 5 }) ∧
    (s.a0.toNat + s.a4.toNat ≤ s.dlen.toNat →
      (s.candCell k = 0 → exec .mFind s = .next { s with stF := true, stV := false, stCause := 6 }) ∧
      (s.a0.toNat + s.a4.toNat < (s.candCell k).toNat →
        exec .mFind s = .next { s with stF := true, stV := false, stCause := 7 }))

/-- 43_match.md R174, corner case (f), R176, 10_state.md R33: the bounds of a returned pair. -/
def Obligations.MFindResultBounds : Prop :=
  ∀ s t : State, exec .mFind s = .next t → s.stF = false → t.stV = true →
    s.a2.toNat ≤ t.r0.toNat ∧ s.a4.toNat + 1 ≤ t.r0.toNat ∧ t.r0.toNat ≤ s.a1.toNat ∧
      t.r0.toNat ≤ s.dlen.toNat - s.a0.toNat ∧ 0 < t.r1.toNat ∧
      ∃ i, i < s.a5.toNat ∧ t.r1 = s.candCell i

/-- 43_match.md R177: under the premise the caller guarantees (the first `g` elements match at every candidate
distance, and every candidate is at most `cursor`) the pair returned is a true match. -/
def Obligations.MFindReturnsATrueMatch : Prop :=
  ∀ s t : State, exec .mFind s = .next t → s.stF = false → t.stV = true →
    (∀ i, i < s.a5.toNat → (s.candCell i).toNat ≤ s.a0.toNat ∧
      ∀ n, n < s.a4.toNat →
        s.dataCell (s.a0.toNat + n) = s.dataCell (s.a0.toNat - (s.candCell i).toNat + n)) →
    ∀ n, n < t.r0.toNat → s.dataCell (s.a0.toNat + n) = s.dataCell (s.a0.toNat - t.r1.toNat + n)

/-- 43_match.md, introduction, R170: the frame of the match commands: nothing but `ST`, `R0` and, for `M.FIND`, `R1`
changes; every cell reads as before. -/
def Obligations.MatchUnitFrame : Prop :=
  ∀ (i : Instr) (s t : State), i.family = .matchUnit → exec i s = .next t →
    t = { s with r0 := t.r0, r1 := t.r1, stV := t.stV, stF := t.stF, stCause := t.stCause } ∧
      (i = .mLen → t.r1 = s.r1) ∧ ∀ a sp, readCell t a sp = readCell s a sp
end

