-- ==== Sys2Proof/Laws/State.lean ====
section
/-! SUPPORT. One lemma per field and named update of the state, so that no proof unfolds a record update. -/

namespace Sys2Proof.Machine

section withValue

@[simp] theorem State.withValue_a0 (s : State) : s.withValue.a0 = s.a0 := rfl
@[simp] theorem State.withValue_a1 (s : State) : s.withValue.a1 = s.a1 := rfl
@[simp] theorem State.withValue_a2 (s : State) : s.withValue.a2 = s.a2 := rfl
@[simp] theorem State.withValue_a3 (s : State) : s.withValue.a3 = s.a3 := rfl
@[simp] theorem State.withValue_a4 (s : State) : s.withValue.a4 = s.a4 := rfl
@[simp] theorem State.withValue_a5 (s : State) : s.withValue.a5 = s.a5 := rfl
@[simp] theorem State.withValue_r0 (s : State) : s.withValue.r0 = s.r0 := rfl
@[simp] theorem State.withValue_r1 (s : State) : s.withValue.r1 = s.r1 := rfl
@[simp] theorem State.withValue_stV (s : State) : s.withValue.stV = true := rfl
@[simp] theorem State.withValue_stF (s : State) : s.withValue.stF = s.stF := rfl
@[simp] theorem State.withValue_stCause (s : State) : s.withValue.stCause = s.stCause := rfl
@[simp] theorem State.withValue_dlen (s : State) : s.withValue.dlen = s.dlen := rfl
@[simp] theorem State.withValue_wopen (s : State) : s.withValue.wopen = s.wopen := rfl
@[simp] theorem State.withValue_wlen (s : State) : s.withValue.wlen = s.wlen := rfl
@[simp] theorem State.withValue_wacc (s : State) : s.withValue.wacc = s.wacc := rfl
@[simp] theorem State.withValue_wpos (s : State) : s.withValue.wpos = s.wpos := rfl
@[simp] theorem State.withValue_ropen (s : State) : s.withValue.ropen = s.ropen := rfl
@[simp] theorem State.withValue_rlen (s : State) : s.withValue.rlen = s.rlen := rfl
@[simp] theorem State.withValue_ridx (s : State) : s.withValue.ridx = s.ridx := rfl
@[simp] theorem State.withValue_racc (s : State) : s.withValue.racc = s.racc := rfl
@[simp] theorem State.withValue_rleft (s : State) : s.withValue.rleft = s.rleft := rfl
@[simp] theorem State.withValue_inMem (s : State) : s.withValue.inMem = s.inMem := rfl
@[simp] theorem State.withValue_outMem (s : State) : s.withValue.outMem = s.outMem := rfl
@[simp] theorem State.withValue_dataMem (s : State) : s.withValue.dataMem = s.dataMem := rfl
@[simp] theorem State.withValue_candMem (s : State) : s.withValue.candMem = s.candMem := rfl
@[simp] theorem State.withValue_cfg (s : State) : s.withValue.cfg = s.cfg := rfl
@[simp] theorem State.withValue_queue (s : State) : s.withValue.queue = s.queue := rfl

end withValue

section withoutValue

@[simp] theorem State.withoutValue_a0 (s : State) : s.withoutValue.a0 = s.a0 := rfl
@[simp] theorem State.withoutValue_a1 (s : State) : s.withoutValue.a1 = s.a1 := rfl
@[simp] theorem State.withoutValue_a2 (s : State) : s.withoutValue.a2 = s.a2 := rfl
@[simp] theorem State.withoutValue_a3 (s : State) : s.withoutValue.a3 = s.a3 := rfl
@[simp] theorem State.withoutValue_a4 (s : State) : s.withoutValue.a4 = s.a4 := rfl
@[simp] theorem State.withoutValue_a5 (s : State) : s.withoutValue.a5 = s.a5 := rfl
@[simp] theorem State.withoutValue_r0 (s : State) : s.withoutValue.r0 = s.r0 := rfl
@[simp] theorem State.withoutValue_r1 (s : State) : s.withoutValue.r1 = s.r1 := rfl
@[simp] theorem State.withoutValue_stV (s : State) : s.withoutValue.stV = false := rfl
@[simp] theorem State.withoutValue_stF (s : State) : s.withoutValue.stF = s.stF := rfl
@[simp] theorem State.withoutValue_stCause (s : State) : s.withoutValue.stCause = s.stCause := rfl
@[simp] theorem State.withoutValue_dlen (s : State) : s.withoutValue.dlen = s.dlen := rfl
@[simp] theorem State.withoutValue_wopen (s : State) : s.withoutValue.wopen = s.wopen := rfl
@[simp] theorem State.withoutValue_wlen (s : State) : s.withoutValue.wlen = s.wlen := rfl
@[simp] theorem State.withoutValue_wacc (s : State) : s.withoutValue.wacc = s.wacc := rfl
@[simp] theorem State.withoutValue_wpos (s : State) : s.withoutValue.wpos = s.wpos := rfl
@[simp] theorem State.withoutValue_ropen (s : State) : s.withoutValue.ropen = s.ropen := rfl
@[simp] theorem State.withoutValue_rlen (s : State) : s.withoutValue.rlen = s.rlen := rfl
@[simp] theorem State.withoutValue_ridx (s : State) : s.withoutValue.ridx = s.ridx := rfl
@[simp] theorem State.withoutValue_racc (s : State) : s.withoutValue.racc = s.racc := rfl
@[simp] theorem State.withoutValue_rleft (s : State) : s.withoutValue.rleft = s.rleft := rfl
@[simp] theorem State.withoutValue_inMem (s : State) : s.withoutValue.inMem = s.inMem := rfl
@[simp] theorem State.withoutValue_outMem (s : State) : s.withoutValue.outMem = s.outMem := rfl
@[simp] theorem State.withoutValue_dataMem (s : State) : s.withoutValue.dataMem = s.dataMem := rfl
@[simp] theorem State.withoutValue_candMem (s : State) : s.withoutValue.candMem = s.candMem := rfl
@[simp] theorem State.withoutValue_cfg (s : State) : s.withoutValue.cfg = s.cfg := rfl
@[simp] theorem State.withoutValue_queue (s : State) : s.withoutValue.queue = s.queue := rfl

end withoutValue

section raise

@[simp] theorem State.raise_a0 (s : State) (c : Cause) : (s.raise c).a0 = s.a0 := rfl
@[simp] theorem State.raise_a1 (s : State) (c : Cause) : (s.raise c).a1 = s.a1 := rfl
@[simp] theorem State.raise_a2 (s : State) (c : Cause) : (s.raise c).a2 = s.a2 := rfl
@[simp] theorem State.raise_a3 (s : State) (c : Cause) : (s.raise c).a3 = s.a3 := rfl
@[simp] theorem State.raise_a4 (s : State) (c : Cause) : (s.raise c).a4 = s.a4 := rfl
@[simp] theorem State.raise_a5 (s : State) (c : Cause) : (s.raise c).a5 = s.a5 := rfl
@[simp] theorem State.raise_r0 (s : State) (c : Cause) : (s.raise c).r0 = s.r0 := rfl
@[simp] theorem State.raise_r1 (s : State) (c : Cause) : (s.raise c).r1 = s.r1 := rfl
@[simp] theorem State.raise_stV (s : State) (c : Cause) : (s.raise c).stV = false := rfl
@[simp] theorem State.raise_stF (s : State) (c : Cause) : (s.raise c).stF = true := rfl
@[simp] theorem State.raise_stCause (s : State) (c : Cause) : (s.raise c).stCause = causeCode c := rfl
@[simp] theorem State.raise_dlen (s : State) (c : Cause) : (s.raise c).dlen = s.dlen := rfl
@[simp] theorem State.raise_wopen (s : State) (c : Cause) : (s.raise c).wopen = s.wopen := rfl
@[simp] theorem State.raise_wlen (s : State) (c : Cause) : (s.raise c).wlen = s.wlen := rfl
@[simp] theorem State.raise_wacc (s : State) (c : Cause) : (s.raise c).wacc = s.wacc := rfl
@[simp] theorem State.raise_wpos (s : State) (c : Cause) : (s.raise c).wpos = s.wpos := rfl
@[simp] theorem State.raise_ropen (s : State) (c : Cause) : (s.raise c).ropen = s.ropen := rfl
@[simp] theorem State.raise_rlen (s : State) (c : Cause) : (s.raise c).rlen = s.rlen := rfl
@[simp] theorem State.raise_ridx (s : State) (c : Cause) : (s.raise c).ridx = s.ridx := rfl
@[simp] theorem State.raise_racc (s : State) (c : Cause) : (s.raise c).racc = s.racc := rfl
@[simp] theorem State.raise_rleft (s : State) (c : Cause) : (s.raise c).rleft = s.rleft := rfl
@[simp] theorem State.raise_inMem (s : State) (c : Cause) : (s.raise c).inMem = s.inMem := rfl
@[simp] theorem State.raise_outMem (s : State) (c : Cause) : (s.raise c).outMem = s.outMem := rfl
@[simp] theorem State.raise_dataMem (s : State) (c : Cause) : (s.raise c).dataMem = s.dataMem := rfl
@[simp] theorem State.raise_candMem (s : State) (c : Cause) : (s.raise c).candMem = s.candMem := rfl
@[simp] theorem State.raise_cfg (s : State) (c : Cause) : (s.raise c).cfg = s.cfg := rfl
@[simp] theorem State.raise_queue (s : State) (c : Cause) : (s.raise c).queue = s.queue := rfl

end raise

section resetEvent

@[simp] theorem State.resetEvent_a0 (s : State) : s.resetEvent.a0 = 0 := rfl
@[simp] theorem State.resetEvent_a1 (s : State) : s.resetEvent.a1 = 0 := rfl
@[simp] theorem State.resetEvent_a2 (s : State) : s.resetEvent.a2 = 0 := rfl
@[simp] theorem State.resetEvent_a3 (s : State) : s.resetEvent.a3 = 0 := rfl
@[simp] theorem State.resetEvent_a4 (s : State) : s.resetEvent.a4 = 0 := rfl
@[simp] theorem State.resetEvent_a5 (s : State) : s.resetEvent.a5 = 0 := rfl
@[simp] theorem State.resetEvent_r0 (s : State) : s.resetEvent.r0 = 0 := rfl
@[simp] theorem State.resetEvent_r1 (s : State) : s.resetEvent.r1 = 0 := rfl
@[simp] theorem State.resetEvent_stV (s : State) : s.resetEvent.stV = false := rfl
@[simp] theorem State.resetEvent_stF (s : State) : s.resetEvent.stF = false := rfl
@[simp] theorem State.resetEvent_stCause (s : State) : s.resetEvent.stCause = 0 := rfl
@[simp] theorem State.resetEvent_dlen (s : State) : s.resetEvent.dlen = 0 := rfl
@[simp] theorem State.resetEvent_wopen (s : State) : s.resetEvent.wopen = false := rfl
@[simp] theorem State.resetEvent_wlen (s : State) : s.resetEvent.wlen = 0 := rfl
@[simp] theorem State.resetEvent_wacc (s : State) : s.resetEvent.wacc = 0 := rfl
@[simp] theorem State.resetEvent_wpos (s : State) : s.resetEvent.wpos = 0 := rfl
@[simp] theorem State.resetEvent_ropen (s : State) : s.resetEvent.ropen = false := rfl
@[simp] theorem State.resetEvent_rlen (s : State) : s.resetEvent.rlen = 0 := rfl
@[simp] theorem State.resetEvent_ridx (s : State) : s.resetEvent.ridx = 0 := rfl
@[simp] theorem State.resetEvent_racc (s : State) : s.resetEvent.racc = 0 := rfl
@[simp] theorem State.resetEvent_rleft (s : State) : s.resetEvent.rleft = 0 := rfl
@[simp] theorem State.resetEvent_inMem (s : State) : s.resetEvent.inMem = s.inMem := rfl
@[simp] theorem State.resetEvent_outMem (s : State) : s.resetEvent.outMem = s.outMem := rfl
@[simp] theorem State.resetEvent_dataMem (s : State) : s.resetEvent.dataMem = s.dataMem := rfl
@[simp] theorem State.resetEvent_candMem (s : State) : s.resetEvent.candMem = s.candMem := rfl
@[simp] theorem State.resetEvent_cfg (s : State) : s.resetEvent.cfg = s.cfg := rfl
@[simp] theorem State.resetEvent_queue (s : State) : s.resetEvent.queue = s.queue := rfl

end resetEvent

section keepPulled

@[simp] theorem keepPulled_a0 (s : State) (p : Pulled) : (keepPulled s p).a0 = s.a0 := rfl
@[simp] theorem keepPulled_a1 (s : State) (p : Pulled) : (keepPulled s p).a1 = s.a1 := rfl
@[simp] theorem keepPulled_a2 (s : State) (p : Pulled) : (keepPulled s p).a2 = s.a2 := rfl
@[simp] theorem keepPulled_a3 (s : State) (p : Pulled) : (keepPulled s p).a3 = s.a3 := rfl
@[simp] theorem keepPulled_a4 (s : State) (p : Pulled) : (keepPulled s p).a4 = s.a4 := rfl
@[simp] theorem keepPulled_a5 (s : State) (p : Pulled) : (keepPulled s p).a5 = s.a5 := rfl
@[simp] theorem keepPulled_r0 (s : State) (p : Pulled) : (keepPulled s p).r0 = s.r0 := rfl
@[simp] theorem keepPulled_r1 (s : State) (p : Pulled) : (keepPulled s p).r1 = s.r1 := rfl
@[simp] theorem keepPulled_stV (s : State) (p : Pulled) : (keepPulled s p).stV = s.stV := rfl
@[simp] theorem keepPulled_stF (s : State) (p : Pulled) : (keepPulled s p).stF = s.stF := rfl
@[simp] theorem keepPulled_stCause (s : State) (p : Pulled) : (keepPulled s p).stCause = s.stCause := rfl
@[simp] theorem keepPulled_dlen (s : State) (p : Pulled) : (keepPulled s p).dlen = s.dlen := rfl
@[simp] theorem keepPulled_wopen (s : State) (p : Pulled) : (keepPulled s p).wopen = s.wopen := rfl
@[simp] theorem keepPulled_wlen (s : State) (p : Pulled) : (keepPulled s p).wlen = s.wlen := rfl
@[simp] theorem keepPulled_wacc (s : State) (p : Pulled) : (keepPulled s p).wacc = s.wacc := rfl
@[simp] theorem keepPulled_wpos (s : State) (p : Pulled) : (keepPulled s p).wpos = s.wpos := rfl
@[simp] theorem keepPulled_ropen (s : State) (p : Pulled) : (keepPulled s p).ropen = s.ropen := rfl
@[simp] theorem keepPulled_rlen (s : State) (p : Pulled) : (keepPulled s p).rlen = s.rlen := rfl
@[simp] theorem keepPulled_ridx (s : State) (p : Pulled) : (keepPulled s p).ridx = BitVec.ofNat 32 p.idx := rfl
@[simp] theorem keepPulled_racc (s : State) (p : Pulled) : (keepPulled s p).racc = BitVec.ofNat 32 p.acc := rfl
@[simp] theorem keepPulled_rleft (s : State) (p : Pulled) : (keepPulled s p).rleft = BitVec.ofNat 5 p.left := rfl
@[simp] theorem keepPulled_inMem (s : State) (p : Pulled) : (keepPulled s p).inMem = s.inMem := rfl
@[simp] theorem keepPulled_outMem (s : State) (p : Pulled) : (keepPulled s p).outMem = s.outMem := rfl
@[simp] theorem keepPulled_dataMem (s : State) (p : Pulled) : (keepPulled s p).dataMem = s.dataMem := rfl
@[simp] theorem keepPulled_candMem (s : State) (p : Pulled) : (keepPulled s p).candMem = s.candMem := rfl
@[simp] theorem keepPulled_cfg (s : State) (p : Pulled) : (keepPulled s p).cfg = s.cfg := rfl
@[simp] theorem keepPulled_queue (s : State) (p : Pulled) : (keepPulled s p).queue = s.queue := rfl

end keepPulled

section consumePulled

@[simp] theorem consumePulled_a0 (s : State) (w : Nat) (p : Pulled) : (consumePulled s w p).a0 = s.a0 := rfl
@[simp] theorem consumePulled_a1 (s : State) (w : Nat) (p : Pulled) : (consumePulled s w p).a1 = s.a1 := rfl
@[simp] theorem consumePulled_a2 (s : State) (w : Nat) (p : Pulled) : (consumePulled s w p).a2 = s.a2 := rfl
@[simp] theorem consumePulled_a3 (s : State) (w : Nat) (p : Pulled) : (consumePulled s w p).a3 = s.a3 := rfl
@[simp] theorem consumePulled_a4 (s : State) (w : Nat) (p : Pulled) : (consumePulled s w p).a4 = s.a4 := rfl
@[simp] theorem consumePulled_a5 (s : State) (w : Nat) (p : Pulled) : (consumePulled s w p).a5 = s.a5 := rfl
@[simp] theorem consumePulled_r0 (s : State) (w : Nat) (p : Pulled) : (consumePulled s w p).r0 = s.r0 := rfl
@[simp] theorem consumePulled_r1 (s : State) (w : Nat) (p : Pulled) : (consumePulled s w p).r1 = s.r1 := rfl
@[simp] theorem consumePulled_stV (s : State) (w : Nat) (p : Pulled) : (consumePulled s w p).stV = s.stV := rfl
@[simp] theorem consumePulled_stF (s : State) (w : Nat) (p : Pulled) : (consumePulled s w p).stF = s.stF := rfl
@[simp] theorem consumePulled_stCause (s : State) (w : Nat) (p : Pulled) : (consumePulled s w p).stCause = s.stCause := rfl
@[simp] theorem consumePulled_dlen (s : State) (w : Nat) (p : Pulled) : (consumePulled s w p).dlen = s.dlen := rfl
@[simp] theorem consumePulled_wopen (s : State) (w : Nat) (p : Pulled) : (consumePulled s w p).wopen = s.wopen := rfl
@[simp] theorem consumePulled_wlen (s : State) (w : Nat) (p : Pulled) : (consumePulled s w p).wlen = s.wlen := rfl
@[simp] theorem consumePulled_wacc (s : State) (w : Nat) (p : Pulled) : (consumePulled s w p).wacc = s.wacc := rfl
@[simp] theorem consumePulled_wpos (s : State) (w : Nat) (p : Pulled) : (consumePulled s w p).wpos = s.wpos := rfl
@[simp] theorem consumePulled_ropen (s : State) (w : Nat) (p : Pulled) : (consumePulled s w p).ropen = s.ropen := rfl
@[simp] theorem consumePulled_rlen (s : State) (w : Nat) (p : Pulled) : (consumePulled s w p).rlen = s.rlen := rfl
@[simp] theorem consumePulled_ridx (s : State) (w : Nat) (p : Pulled) : (consumePulled s w p).ridx = BitVec.ofNat 32 p.idx := rfl
@[simp] theorem consumePulled_racc (s : State) (w : Nat) (p : Pulled) : (consumePulled s w p).racc = BitVec.ofNat 32 (p.acc / 2 ^ w) := rfl
@[simp] theorem consumePulled_rleft (s : State) (w : Nat) (p : Pulled) : (consumePulled s w p).rleft = BitVec.ofNat 5 (p.left - w) := rfl
@[simp] theorem consumePulled_inMem (s : State) (w : Nat) (p : Pulled) : (consumePulled s w p).inMem = s.inMem := rfl
@[simp] theorem consumePulled_outMem (s : State) (w : Nat) (p : Pulled) : (consumePulled s w p).outMem = s.outMem := rfl
@[simp] theorem consumePulled_dataMem (s : State) (w : Nat) (p : Pulled) : (consumePulled s w p).dataMem = s.dataMem := rfl
@[simp] theorem consumePulled_candMem (s : State) (w : Nat) (p : Pulled) : (consumePulled s w p).candMem = s.candMem := rfl
@[simp] theorem consumePulled_cfg (s : State) (w : Nat) (p : Pulled) : (consumePulled s w p).cfg = s.cfg := rfl
@[simp] theorem consumePulled_queue (s : State) (w : Nat) (p : Pulled) : (consumePulled s w p).queue = s.queue := rfl

end consumePulled

section alignReader

@[simp] theorem alignReader_a0 (s : State) : (alignReader s).a0 = s.a0 := rfl
@[simp] theorem alignReader_a1 (s : State) : (alignReader s).a1 = s.a1 := rfl
@[simp] theorem alignReader_a2 (s : State) : (alignReader s).a2 = s.a2 := rfl
@[simp] theorem alignReader_a3 (s : State) : (alignReader s).a3 = s.a3 := rfl
@[simp] theorem alignReader_a4 (s : State) : (alignReader s).a4 = s.a4 := rfl
@[simp] theorem alignReader_a5 (s : State) : (alignReader s).a5 = s.a5 := rfl
@[simp] theorem alignReader_r0 (s : State) : (alignReader s).r0 = s.r0 := rfl
@[simp] theorem alignReader_r1 (s : State) : (alignReader s).r1 = s.r1 := rfl
@[simp] theorem alignReader_stV (s : State) : (alignReader s).stV = s.stV := rfl
@[simp] theorem alignReader_stF (s : State) : (alignReader s).stF = s.stF := rfl
@[simp] theorem alignReader_stCause (s : State) : (alignReader s).stCause = s.stCause := rfl
@[simp] theorem alignReader_dlen (s : State) : (alignReader s).dlen = s.dlen := rfl
@[simp] theorem alignReader_wopen (s : State) : (alignReader s).wopen = s.wopen := rfl
@[simp] theorem alignReader_wlen (s : State) : (alignReader s).wlen = s.wlen := rfl
@[simp] theorem alignReader_wacc (s : State) : (alignReader s).wacc = s.wacc := rfl
@[simp] theorem alignReader_wpos (s : State) : (alignReader s).wpos = s.wpos := rfl
@[simp] theorem alignReader_ropen (s : State) : (alignReader s).ropen = s.ropen := rfl
@[simp] theorem alignReader_rlen (s : State) : (alignReader s).rlen = s.rlen := rfl
@[simp] theorem alignReader_ridx (s : State) : (alignReader s).ridx = s.ridx := rfl
@[simp] theorem alignReader_racc (s : State) : (alignReader s).racc = BitVec.ofNat 32 (s.racc.toNat / 2 ^ (s.rleft.toNat % 8)) := rfl
@[simp] theorem alignReader_rleft (s : State) : (alignReader s).rleft = BitVec.ofNat 5 (s.rleft.toNat - s.rleft.toNat % 8) := rfl
@[simp] theorem alignReader_inMem (s : State) : (alignReader s).inMem = s.inMem := rfl
@[simp] theorem alignReader_outMem (s : State) : (alignReader s).outMem = s.outMem := rfl
@[simp] theorem alignReader_dataMem (s : State) : (alignReader s).dataMem = s.dataMem := rfl
@[simp] theorem alignReader_candMem (s : State) : (alignReader s).candMem = s.candMem := rfl
@[simp] theorem alignReader_cfg (s : State) : (alignReader s).cfg = s.cfg := rfl
@[simp] theorem alignReader_queue (s : State) : (alignReader s).queue = s.queue := rfl

end alignReader

end Sys2Proof.Machine
end

