-- ==== Sys2Proof/Laws/Bits.lean ====
section
/-! SUPPORT. Facts about numbers as bit strings: `bitsOf`, `field`, `bitrev`, the TBV word, powers of two. -/

namespace Sys2Proof.Machine

theorem testBit_add_mul_two_pow {x k : Nat} (h : x < 2 ^ k) (y j : Nat) :
    (x + y * 2 ^ k).testBit j = if j < k then x.testBit j else y.testBit (j - k) := by
  rw [Nat.add_comm, Nat.mul_comm]
  exact Nat.testBit_two_pow_mul_add y h j

theorem testBit_div_two_pow' (x k j : Nat) : (x / 2 ^ k).testBit j = x.testBit (k + j) := by
  rw [Nat.testBit_div_two_pow, Nat.add_comm]

@[simp] theorem length_bitsOf (w v : Nat) : (bitsOf w v).length = w := by simp [bitsOf]

@[simp] theorem bitsOf_zero (v : Nat) : bitsOf 0 v = [] := rfl

@[simp] theorem bitsOf_of_zero (w : Nat) : bitsOf w 0 = List.replicate w false := by
  refine List.eq_replicate_iff.2 ⟨length_bitsOf w 0, fun b hb => ?_⟩
  obtain ⟨j, -, rfl⟩ := List.mem_map.1 hb
  exact Nat.zero_testBit j

theorem bitsOf_congr {w v v' : Nat} (h : ∀ j, j < w → v.testBit j = v'.testBit j) : bitsOf w v = bitsOf w v' := by
  simp only [bitsOf]
  exact List.map_congr_left fun j hj => h j (List.mem_range.1 hj)

theorem bitsOf_mod (w v : Nat) : bitsOf w (v % 2 ^ w) = bitsOf w v := by
  refine bitsOf_congr fun j hj => ?_
  simp [Nat.testBit_mod_two_pow, hj]

/-- A longer string of a number is the string of its low part and the string of the rest. -/
theorem bitsOf_add (a b x : Nat) : bitsOf (a + b) x = bitsOf a x ++ bitsOf b (x / 2 ^ a) := by
  simp only [bitsOf, List.range_add, List.map_append, List.map_map]
  congr 1
  refine List.map_congr_left fun j _ => ?_
  simp [testBit_div_two_pow']

/-- The string of `x` below `y`, placed next to each other. -/
theorem bitsOf_append {a x : Nat} (h : x < 2 ^ a) (b y : Nat) :
    bitsOf a x ++ bitsOf b y = bitsOf (a + b) (x + y * 2 ^ a) := by
  rw [bitsOf_add]
  congr 1
  · refine bitsOf_congr fun j hj => ?_
    rw [testBit_add_mul_two_pow h, if_pos hj]
  · rw [Nat.add_mul_div_right _ _ (Nat.two_pow_pos a), Nat.div_eq_of_lt h, Nat.zero_add]

/-- The string of `8n + r` bits as `n` bytes and a remainder. -/
theorem bitsOf_bytes (n r x : Nat) :
    bitsOf (8 * n + r) x =
      (List.range n).flatMap (fun k => bitsOf 8 (x / 2 ^ (8 * k))) ++ bitsOf r (x / 2 ^ (8 * n)) := by
  rw [bitsOf_add]
  congr 1
  induction n with
  | zero => simp [bitsOf]
  | succ n ih =>
    rw [Nat.mul_succ, bitsOf_add, ih, List.range_succ, List.flatMap_append]
    simp

theorem field_testBit (s : State) (p w j : Nat) :
    (field s p w).testBit j = (decide (j < w) && streamBit s (p + j)) := by
  induction w generalizing p j with
  | zero => simp [field]
  | succ w ih =>
    cases j with
    | zero =>
      cases h : streamBit s p <;> simp [field, h, Nat.testBit_zero]
    | succ j =>
      have e : ((streamBit s p).toNat + 2 * field s (p + 1) w) / 2 = field s (p + 1) w := by
        have := Bool.toNat_lt (streamBit s p)
        omega
      rw [field, Nat.testBit_succ, e, ih]
      simp [Nat.add_comm, Nat.add_left_comm]

theorem field_lt (s : State) (p w : Nat) : field s p w < 2 ^ w := by
  induction w generalizing p with
  | zero => simp [field]
  | succ w ih =>
    have := ih (p + 1)
    have h2 := Bool.toNat_lt (streamBit s p)
    rw [field, Nat.pow_succ]
    omega

/-- A number whose low `w` bits are the stream's is, cut to `w` bits, the field. -/
theorem mod_eq_field {s : State} {p w x : Nat} (h : ∀ j, j < w → x.testBit j = streamBit s (p + j)) :
    x % 2 ^ w = field s p w := by
  refine Nat.eq_of_testBit_eq fun j => ?_
  rw [field_testBit, Nat.testBit_mod_two_pow]
  by_cases hj : j < w
  · simp [hj, h j hj]
  · simp [hj]

theorem bitrev_lt (w v : Nat) : bitrev w v < 2 ^ w := by
  induction w generalizing v with
  | zero => simp [bitrev]
  | succ w ih =>
    have := ih (v / 2)
    rw [bitrev, Nat.pow_succ]
    rcases Nat.mod_two_eq_zero_or_one v with h | h <;> rw [h] <;> omega

theorem bitrev_testBit (w v : Nat) {i : Nat} (h : i < w) : (bitrev w v).testBit i = v.testBit (w - 1 - i) := by
  induction w generalizing v i with
  | zero => omega
  | succ w ih =>
    rw [bitrev, Nat.add_comm, testBit_add_mul_two_pow (bitrev_lt w _)]
    by_cases hi : i < w
    · rw [if_pos hi, ih _ hi, show w + 1 - 1 - i = (w - 1 - i) + 1 by omega, Nat.testBit_succ]
    · have : i = w := by omega
      subst this
      simp [Nat.testBit_zero]

theorem bitrev_bitrev {w v : Nat} (h : v < 2 ^ w) : bitrev w (bitrev w v) = v := by
  refine Nat.eq_of_testBit_eq fun i => ?_
  by_cases hi : i < w
  · rw [bitrev_testBit w _ hi, bitrev_testBit w _ (by omega)]
    congr 1
    omega
  · rw [Nat.testBit_lt_two_pow (lt_of_lt_of_le (bitrev_lt w _) (Nat.pow_le_pow_right (by omega) (by omega))),
      Nat.testBit_lt_two_pow (lt_of_lt_of_le h (Nat.pow_le_pow_right (by omega) (by omega)))]

theorem isBitWidth_iff (w : Nat) : isBitWidth w = true ↔ 1 ≤ w ∧ w ≤ 24 := by
  simp [isBitWidth]

theorem mkTbv_toNat {w : Nat} (h : w < 2 ^ 8) (v : Nat) : (mkTbv w v).toNat = w * 2 ^ 24 + v % 2 ^ 24 := by
  rw [mkTbv, BitVec.toNat_ofNat, Nat.mod_eq_of_lt]
  omega

@[simp] theorem tbvWidth_mkTbv {w : Nat} (h : w < 2 ^ 8) (v : Nat) : tbvWidth (mkTbv w v) = w := by
  rw [tbvWidth, mkTbv_toNat h]
  omega

@[simp] theorem tbvPayload_mkTbv {w : Nat} (h : w < 2 ^ 8) (v : Nat) : tbvPayload (mkTbv w v) = v % 2 ^ 24 := by
  rw [tbvPayload, mkTbv_toNat h]
  omega

theorem tbvWidth_lt (t : Word) : tbvWidth t < 2 ^ 8 := by
  rw [tbvWidth]
  have := t.isLt
  omega

theorem tbvPayload_lt (t : Word) : tbvPayload t < 2 ^ 24 :=
  Nat.mod_lt _ (by decide)

@[simp] theorem mkTbv_width_payload (t : Word) : mkTbv (tbvWidth t) (tbvPayload t) = t := by
  apply BitVec.eq_of_toNat_eq
  rw [mkTbv_toNat (tbvWidth_lt t), Nat.mod_eq_of_lt (tbvPayload_lt t), tbvWidth, tbvPayload]
  omega

theorem doubleUpTo_spec (fuel n k : Nat) (h : n ≤ 2 ^ (k + fuel)) :
    ∃ j, doubleUpTo fuel n (2 ^ k) = 2 ^ j ∧ k ≤ j ∧ j ≤ k + fuel ∧ n ≤ 2 ^ j ∧ (k < j → 2 ^ (j - 1) < n) := by
  induction fuel generalizing k with
  | zero => exact ⟨k, rfl, le_refl _, le_refl _, by simpa using h, fun hk => absurd hk (lt_irrefl _)⟩
  | succ fuel ih =>
    rw [doubleUpTo]
    by_cases hn : n ≤ 2 ^ k
    · exact ⟨k, by simp [hn], le_refl _, by omega, hn, fun hk => absurd hk (lt_irrefl _)⟩
    · rw [if_neg hn, show 2 * 2 ^ k = 2 ^ (k + 1) by rw [Nat.pow_succ, Nat.mul_comm]]
      obtain ⟨j, e, h1, h2, h3, h4⟩ := ih (k + 1) (by rwa [show k + 1 + fuel = k + (fuel + 1) by omega])
      refine ⟨j, e, by omega, by omega, h3, fun _ => ?_⟩
      by_cases hj : k + 1 < j
      · exact h4 hj
      · rw [show j - 1 = k by omega]
        omega

/-- `leastPow2 n` is the least power of two that is at least `n` (40_bitwidth_tbv.md R110). -/
theorem leastPow2_spec {n : Nat} (h1 : 1 ≤ n) (h : n ≤ 2 ^ 32) :
    ∃ j, leastPow2 n = 2 ^ j ∧ j ≤ 32 ∧ n ≤ 2 ^ j ∧ 2 ^ j < 2 * n := by
  obtain ⟨j, e, -, h2, h3, h4⟩ := doubleUpTo_spec 32 n 0 (by simpa using h)
  refine ⟨j, e, by omega, h3, ?_⟩
  rcases Nat.eq_zero_or_pos j with rfl | hj
  · simp; omega
  · have := h4 hj
    obtain ⟨j, rfl⟩ : ∃ i, j = i + 1 := ⟨j - 1, by omega⟩
    rw [Nat.pow_succ]
    simp only [Nat.add_sub_cancel] at this
    omega

end Sys2Proof.Machine
end

