-- ==== Sys2Proof/Laws/Memory.lean ====
section
/-! SUPPORT. The laws of a memory: read after write, the canonical form, and what holds of every cell. -/

namespace Sys2Proof.Machine

variable {α : Type}

@[simp] theorem Memory.read?_write_same (m : Memory α) (a : Nat) (v : α) :
    (Memory.write m a v).read? a = some v := by
  induction m with
  | nil => simp [Memory.write, Memory.read?]
  | cons c m ih =>
    obtain ⟨b, u⟩ := c
    simp only [Memory.write]
    split
    · simp [Memory.read?]
    · split
      · simp [Memory.read?]
      · have : b ≠ a := by omega
        simp [Memory.read?, this, ih]

theorem Memory.read?_write_other (m : Memory α) (a : Nat) (v : α) {i : Nat} (h : i ≠ a) :
    (Memory.write m a v).read? i = m.read? i := by
  induction m with
  | nil => simp [Memory.write, Memory.read?, h.symm]
  | cons c m ih =>
    obtain ⟨b, u⟩ := c
    simp only [Memory.write]
    split
    · simp [Memory.read?, h.symm]
    · split
      · rename_i hab
        subst hab
        simp [Memory.read?, h.symm]
      · simp [Memory.read?, ih]

/-- What a write leaves in the list: the written cell, and cells that were there. -/
theorem Memory.mem_write {m : Memory α} {a : Nat} {v : α} {c : Nat × α} (h : c ∈ Memory.write m a v) :
    c = (a, v) ∨ c ∈ m := by
  induction m with
  | nil => simpa [Memory.write] using h
  | cons d m ih =>
    obtain ⟨b, u⟩ := d
    simp only [Memory.write] at h
    split at h
    · simpa using h
    · split at h
      · rcases List.mem_cons.1 h with h | h
        · exact .inl h
        · exact .inr (List.mem_cons_of_mem _ h)
      · rcases List.mem_cons.1 h with h | h
        · exact .inr (by simp [h])
        · rcases ih h with h | h
          · exact .inl h
          · exact .inr (List.mem_cons_of_mem _ h)

theorem Memory.write_wf {m : Memory α} (h : m.wf) (a : Nat) (v : α) : (Memory.write m a v).wf := by
  induction m with
  | nil => simp [Memory.write]
  | cons d m ih =>
    obtain ⟨b, u⟩ := d
    obtain ⟨hb, hm⟩ := List.pairwise_cons.1 h
    simp only [Memory.write]
    split
    · rename_i hab
      refine List.pairwise_cons.2 ⟨?_, h⟩
      intro c hc
      rcases List.mem_cons.1 hc with rfl | hc
      · exact hab
      · exact lt_trans hab (hb c hc)
    · split
      · rename_i hab
        subst hab
        exact List.pairwise_cons.2 ⟨hb, hm⟩
      · refine List.pairwise_cons.2 ⟨?_, ih hm⟩
        intro c hc
        rcases Memory.mem_write hc with rfl | hc
        · show b < a
          omega
        · exact hb c hc

theorem Memory.writeFrom_wf {m : Memory α} (h : m.wf) (a : Nat) (vs : List α) : (Memory.writeFrom m a vs).wf := by
  induction vs generalizing m a with
  | nil => exact h
  | cons v vs ih => exact ih (Memory.write_wf h a v) (a + 1)

/-- A property of every listed cell is kept by a write of cells that have it. -/
theorem Memory.forall_writeFrom {P : Nat × α → Prop} {m : Memory α} {a : Nat} {vs : List α}
    (hm : ∀ c ∈ m, P c) (hv : ∀ k v, vs[k]? = some v → P (a + k, v)) :
    ∀ c ∈ Memory.writeFrom m a vs, P c := by
  induction vs generalizing m a with
  | nil => exact hm
  | cons v vs ih =>
    refine ih ?_ ?_
    · intro c hc
      rcases Memory.mem_write hc with rfl | hc
      · exact hv 0 v rfl
      · exact hm c hc
    · intro k u hk
      have := hv (k + 1) u (by simpa using hk)
      rwa [show a + (k + 1) = a + 1 + k by omega] at this

/-- A cell after consecutive cells are written. -/
theorem Memory.read?_writeFrom (m : Memory α) (a : Nat) (vs : List α) (i : Nat) :
    (Memory.writeFrom m a vs).read? i =
      if a ≤ i ∧ i < a + vs.length then vs[i - a]? else m.read? i := by
  induction vs generalizing m a with
  | nil => simp [Memory.writeFrom]
  | cons v vs ih =>
    rw [Memory.writeFrom, ih]
    by_cases h : i = a
    · subst h
      simp
    · rw [Memory.read?_write_other _ _ _ h]
      by_cases h' : a + 1 ≤ i ∧ i < a + 1 + vs.length
      · have e : i - a = (i - (a + 1)) + 1 := by omega
        rw [if_pos h', if_pos (by simp; omega), e, List.getElem?_cons_succ]
      · rw [if_neg h', if_neg (by simp; omega)]

theorem Memory.read?_writeFrom_outside (m : Memory α) (a : Nat) (vs : List α) {i : Nat}
    (h : i < a ∨ a + vs.length ≤ i) : (Memory.writeFrom m a vs).read? i = m.read? i := by
  rw [Memory.read?_writeFrom, if_neg (by omega)]

end Sys2Proof.Machine
end

