-- ==== Sys2Proof/Laws/Ops.lean ====
section
/-! SUPPORT. What the shared operations can do: the end of a command, the checks before a rule, the cells. -/

namespace Sys2Proof.Machine

/-- The rule of a command as the body `exec` serves. -/
def rule (i : Instr) (s : State) : Body :=
  match i with
  | .bwNew => ruleBwNew s
  | .bwNewu => ruleBwNewu s
  | .bwMask => ruleBwMask s
  | .bwPow2 => ruleBwPow2 s
  | .tbvNew => ruleTbvNew s
  | .tbvNewc => ruleTbvNewc s
  | .tbvRevd => ruleTbvRevd s
  | .tbvRev => ruleTbvRev s
  | .tbvEq => ruleTbvEq s
  | .npot => ruleNpot s
  | .wNew => ruleWNew s
  | .wPush => ruleWPush s
  | .wPbool => ruleWPbool s
  | .wPbyte => ruleWPbyte s
  | .wPnib => ruleWPnib s
  | .wAlign => ruleWAlign s
  | .wBitcnt => ruleWBitcnt s
  | .wFin => ruleWFin s
  | .rNew => ruleRNew s
  | .rBool => ruleRBool s
  | .rNib => ruleRNib s
  | .rByte => ruleRByte s
  | .rBits => ruleRBits s
  | .rPeek => ruleRPeek s
  | .rAdv => ruleRAdv s
  | .rAlign => ruleRAlign s
  | .rNxbyte => ruleRNxbyte s
  | .rNxarr => ruleRNxarr s
  | .rNxslc => ruleRNxslc s
  | .mLen => ruleMLen s
  | .mFind => ruleMFind s

/-- Every command is its rule, served. -/
theorem exec_eq_serve (i : Instr) (s : State) : exec i s = serve s (rule i s) := by
  cases i <;> rfl

theorem serve_of_serving {s : State} (h : Serving s) (b : Body) : serve s b = finish s b := by
  simp [serve, h]

theorem serve_of_faulted {s : State} (h : s.stF = true) (b : Body) : serve s b = .next s := by
  simp [serve, h]

theorem exec_of_serving {s : State} (h : Serving s) (i : Instr) : exec i s = finish s (rule i s) := by
  rw [exec_eq_serve, serve_of_serving h]

/-- The ways a command ends in a next state. -/
theorem finish_next {s t : State} {b : Body} (h : finish s b = .next t) :
    (∃ u, b = .ok (.value u) ∧ t = u.withValue) ∨ (∃ u, b = .ok (.noValue u) ∧ t = u.withoutValue) ∨
      ∃ c, b = .error (.raise c) ∧ t = s.raise c := by
  unfold finish at h
  split at h
  · cases h
    exact .inl ⟨_, rfl, rfl⟩
  · cases h
    exact .inr (.inl ⟨_, rfl, rfl⟩)
  · cases h
    exact .inr (.inr ⟨_, rfl, rfl⟩)
  · cases h

theorem exec_next {i : Instr} {s t : State} (h : exec i s = .next t) :
    (s.stF = true ∧ t = s) ∨ (Serving s ∧ ((∃ u, rule i s = .ok (.value u) ∧ t = u.withValue) ∨
      (∃ u, rule i s = .ok (.noValue u) ∧ t = u.withoutValue) ∨
      ∃ c, rule i s = .error (.raise c) ∧ t = s.raise c)) := by
  cases hF : s.stF
  · rw [exec_of_serving hF] at h
    exact .inr ⟨hF, finish_next h⟩
  · rw [exec_eq_serve, serve_of_faulted hF] at h
    cases h
    exact .inl ⟨rfl, rfl⟩

theorem needWidth_of_valid {w : Nat} (h : 1 ≤ w ∧ w ≤ 24) (b : Body) : needWidth w b = b := by
  simp [needWidth, isBitWidth, h]

theorem needWidth_of_invalid {w : Nat} (h : ¬(1 ≤ w ∧ w ≤ 24)) (b : Body) :
    needWidth w b = .error (.raise .invalidBitWidth) := by
  have : isBitWidth w = false := by
    simp only [isBitWidth, Bool.and_eq_false_iff, decide_eq_false_iff_not]
    omega
  simp [needWidth, this]

theorem needWriter_of_open {s : State} (h : s.wopen = true) (b : Body) : needWriter s b = b := by
  simp [needWriter, h]

theorem needWriter_of_closed {s : State} (h : s.wopen = false) (b : Body) :
    needWriter s b = .error (.raise .writerNotOpen) := by
  simp [needWriter, h]

theorem needReader_of_open {s : State} (h : s.ropen = true) (b : Body) : needReader s b = b := by
  simp [needReader, h]

theorem needReader_of_closed {s : State} (h : s.ropen = false) (b : Body) :
    needReader s b = .error (.raise .readerNotOpen) := by
  simp [needReader, h]

/-- A checked rule completes only through the check. -/
theorem needWidth_ok {w : Nat} {b : Body} {c : Completion} (h : needWidth w b = .ok c) :
    (1 ≤ w ∧ w ≤ 24) ∧ b = .ok c := by
  by_cases hw : 1 ≤ w ∧ w ≤ 24
  · exact ⟨hw, by rwa [needWidth_of_valid hw] at h⟩
  · rw [needWidth_of_invalid hw] at h
    cases h

theorem needWriter_ok {s : State} {b : Body} {c : Completion} (h : needWriter s b = .ok c) :
    s.wopen = true ∧ b = .ok c := by
  cases hw : s.wopen
  · rw [needWriter_of_closed hw] at h
    cases h
  · exact ⟨rfl, by rwa [needWriter_of_open hw] at h⟩

theorem needReader_ok {s : State} {b : Body} {c : Completion} (h : needReader s b = .ok c) :
    s.ropen = true ∧ b = .ok c := by
  cases hw : s.ropen
  · rw [needReader_of_closed hw] at h
    cases h
  · exact ⟨rfl, by rwa [needReader_of_open hw] at h⟩

theorem readIn_ok {s : State} {i : Nat} (h1 : i < s.rlen.toNat) (h2 : i < s.cfg.inCap) :
    readIn s i = .ok (s.inCell i) := by
  simp [readIn, h1, h2]

theorem readData_ok {s : State} {i : Nat} (h1 : i < s.dlen.toNat) (h2 : i < s.cfg.dataCap) :
    readData s i = .ok (s.dataCell i) := by
  simp [readData, h1, h2]

theorem readCand_ok {s : State} {i : Nat} (h1 : i < s.a5.toNat) (h2 : i < s.cfg.candCap) :
    readCand s i = .ok (s.candCell i) := by
  simp [readCand, h1, h2]

theorem writeOut_ok {s : State} {a : Nat} {bytes : List Byte} (h : a + bytes.length ≤ s.cfg.outCap) :
    writeOut s a bytes = .ok { s with outMem := s.outMem.writeFrom a bytes } := by
  simp [writeOut, h]

theorem causeCode_bounds (c : Cause) : 1 ≤ (causeCode c).toNat ∧ (causeCode c).toNat ≤ 11 := by
  cases c <;> decide

end Sys2Proof.Machine
end

