-- ==== Sys2Proof/Laws/MatchUnit.lean ====
section
/-! SUPPORT. What `mlen` and the scan of `fdm` do, once each. -/

namespace Sys2Proof.Machine

/-- The comparison loop within the buffer (43_match.md R171). -/
theorem matchLoop_spec {s : State} (current source : Nat) (hd : s.dlen.toNat ≤ s.cfg.dataCap)
    (hs : source ≤ current) (fuel n : Nat) (h : current + n + fuel ≤ s.dlen.toNat) :
    ∃ m, matchLoop s current source fuel n = .ok m ∧ n ≤ m ∧ m ≤ n + fuel ∧
      (∀ i, n ≤ i → i < m → s.dataCell (current + i) = s.dataCell (source + i)) ∧
      (m < n + fuel → s.dataCell (current + m) ≠ s.dataCell (source + m)) := by
  induction fuel generalizing n with
  | zero => exact ⟨n, rfl, le_refl _, le_refl _, fun i h1 h2 => by omega, fun h => by omega⟩
  | succ fuel ih =>
    have r1 : readData s (current + n) = .ok (s.dataCell (current + n)) := readData_ok (by omega) (by omega)
    have r2 : readData s (source + n) = .ok (s.dataCell (source + n)) := readData_ok (by omega) (by omega)
    simp only [matchLoop, r1, r2]
    by_cases he : s.dataCell (current + n) = s.dataCell (source + n)
    · rw [if_pos he]
      obtain ⟨m, e, h1, h2, h3, h4⟩ := ih (n + 1) (by omega)
      refine ⟨m, e, by omega, by omega, fun i hi hm => ?_, fun hm => h4 (by omega)⟩
      rcases Nat.eq_or_lt_of_le hi with rfl | hi
      · exact he
      · exact h3 i hi hm
    · rw [if_neg he]
      exact ⟨n, rfl, le_refl _, by omega, fun i h1 h2 => by omega, fun _ => he⟩

/-- `mlen` with its preconditions met (43_match.md R171). -/
theorem mlen_spec {s : State} {current distance : Nat} (maxLen : Nat) (hd : s.dlen.toNat ≤ s.cfg.dataCap)
    (h1 : current ≤ s.dlen.toNat) (h2 : distance ≠ 0) (h3 : distance ≤ current) :
    ∃ n, mlen s current distance maxLen = .ok n ∧ IsMatchLength s current distance maxLen n := by
  rw [mlen, if_neg (by omega), if_neg h2, if_neg (by omega)]
  obtain ⟨m, e, -, h5, h6, h7⟩ := matchLoop_spec current (current - distance) hd (by omega)
    (min maxLen (s.dlen.toNat - current)) 0 (by omega)
  refine ⟨m, e, by omega, by omega, fun i hi => h6 i (by omega) hi, fun h8 h9 => h7 (by omega)⟩

/-- The length of a match is one number (43_match.md R171). -/
theorem IsMatchLength.unique {s : State} {current distance maxLen n m : Nat}
    (hn : IsMatchLength s current distance maxLen n) (hm : IsMatchLength s current distance maxLen m) : n = m := by
  obtain ⟨a1, a2, a3, a4⟩ := hn
  obtain ⟨b1, b2, b3, b4⟩ := hm
  rcases Nat.lt_trichotomy n m with h | h | h
  · exact absurd (b3 n h) (a4 (by omega) (by omega))
  · exact h
  · exact absurd (a3 m h) (b4 (by omega) (by omega))

/-- Everything `mlen` can do over a buffer within the capacity: one of its three faults, in order, or the length. -/
theorem mlen_cases {s : State} (current distance maxLen : Nat) (hd : s.dlen.toNat ≤ s.cfg.dataCap) :
    (s.dlen.toNat < current ∧ mlen s current distance maxLen = .error (.raise .matchCurrentBeyondEnd)) ∨
      (current ≤ s.dlen.toNat ∧ distance = 0 ∧
        mlen s current distance maxLen = .error (.raise .matchZeroDistance)) ∨
      (current ≤ s.dlen.toNat ∧ distance ≠ 0 ∧ current < distance ∧
        mlen s current distance maxLen = .error (.raise .matchDistanceBeyondStart)) ∨
      ((current ≤ s.dlen.toNat ∧ distance ≠ 0 ∧ distance ≤ current) ∧
        ∃ n, mlen s current distance maxLen = .ok n ∧ IsMatchLength s current distance maxLen n) := by
  by_cases h1 : s.dlen.toNat < current
  · exact .inl ⟨h1, by rw [mlen, if_pos h1]⟩
  · by_cases h2 : distance = 0
    · exact .inr (.inl ⟨by omega, h2, by rw [mlen, if_neg h1, if_pos h2]⟩)
    · by_cases h3 : current < distance
      · exact .inr (.inr (.inl ⟨by omega, h2, h3, by rw [mlen, if_neg h1, if_neg h2, if_pos h3]⟩))
      · exact .inr (.inr (.inr ⟨⟨by omega, h2, by omega⟩, mlen_spec maxLen hd (by omega) h2 (by omega)⟩))

@[simp] theorem Best.update_of_lt {b : Best} {add : Nat} (h : b.len < add) (d : Nat) :
    b.update add d = { len := add, dist := d } := by
  simp [Best.update, h]

@[simp] theorem Best.update_of_le {b : Best} {add : Nat} (h : add ≤ b.len) (d : Nat) : b.update add d = b := by
  simp [Best.update, Nat.not_lt.2 h]

/-- The length after an update is the greater of the two. -/
theorem Best.update_len (b : Best) (add d : Nat) : (b.update add d).len = max b.len add := by
  rcases Nat.lt_or_ge b.len add with h | h
  · rw [Best.update_of_lt h]
    exact (max_eq_right (le_of_lt h)).symm
  · rw [Best.update_of_le h, max_eq_left h]

/-- The scan of `fdm` (43_match.md R175, R178). With a buffer and a list within their capacities it raises one of
`mlen`'s faults or ends with a best: the one it began with, or the first of the greatest additional lengths of the
candidates examined, `i .. m`. -/
theorem scan_spec {s : State} (start cap stop : Nat) (hd : s.dlen.toNat ≤ s.cfg.dataCap)
    (hcap : s.a5.toNat ≤ s.cfg.candCap) (fuel i : Nat) (b : Best) (h : i + fuel ≤ s.a5.toNat) :
    (∃ j c, scanCandidates s start cap stop fuel i b = .error (.raise c) ∧ i ≤ j ∧ j < i + fuel ∧
        mlen s start (s.candCell j).toNat cap = .error (.raise c)) ∨
      (∃ b' m, scanCandidates s start cap stop fuel i b = .ok b' ∧ i ≤ m ∧ m ≤ i + fuel ∧ (m = i → fuel = 0) ∧
        ∃ add : Nat → Nat,
          (∀ j, i ≤ j → j < m →
            mlen s start (s.candCell j).toNat cap = .ok (add j) ∧
            IsMatchLength s start (s.candCell j).toNat cap (add j)) ∧
          (∀ j, i ≤ j → j < m → add j ≤ b'.len) ∧ b.len ≤ b'.len ∧
          (∀ j, i ≤ j → j + 1 < m → add j < stop) ∧
          (m = i + fuel ∨ stop ≤ b'.len) ∧
          (b' = b ∨ ∃ j, i ≤ j ∧ j < m ∧ b.len < add j ∧ b' = { len := add j, dist := (s.candCell j).toNat } ∧
            ∀ k, i ≤ k → k < j → add k < add j)) := by
  induction fuel generalizing i b with
  | zero =>
    exact .inr ⟨b, i, rfl, le_refl _, le_refl _, fun _ => rfl, fun _ => 0, fun j h1 h2 => by omega,
      fun j h1 h2 => by omega, le_refl _, fun j h1 h2 => by omega, .inl rfl, .inl rfl⟩
  | succ fuel ih =>
    have r : readCand s i = .ok (s.candCell i) := readCand_ok (by omega) (by omega)
    rcases mlen_cases start (s.candCell i).toNat cap hd with ⟨-, e⟩ | ⟨-, -, e⟩ | ⟨-, -, -, e⟩ | ⟨-, n, e, hn⟩
    · exact .inl ⟨i, _, by rw [scanCandidates, r]; simp only [e], le_refl _, by omega, e⟩
    · exact .inl ⟨i, _, by rw [scanCandidates, r]; simp only [e], le_refl _, by omega, e⟩
    · exact .inl ⟨i, _, by rw [scanCandidates, r]; simp only [e], le_refl _, by omega, e⟩
    · have hupd := Best.update_len b n (s.candCell i).toNat
      have hcases : (n ≤ b.len ∧ b.update n (s.candCell i).toNat = b) ∨
          (b.len < n ∧ b.update n (s.candCell i).toNat = { len := n, dist := (s.candCell i).toNat }) := by
        rcases Nat.lt_or_ge b.len n with h' | h'
        · exact .inr ⟨h', Best.update_of_lt h' _⟩
        · exact .inl ⟨h', Best.update_of_le h' _⟩
      by_cases hs : stop ≤ (b.update n (s.candCell i).toNat).len
      · refine .inr ⟨b.update n (s.candCell i).toNat, i + 1, ?_, by omega, by omega, fun h => by omega,
          fun _ => n, ?_, ?_, ?_, ?_, .inr hs, ?_⟩
        · rw [scanCandidates, r]
          simp only [e, if_pos hs]
        · intro j h1 h2
          obtain rfl : j = i := by omega
          exact ⟨e, hn⟩
        · intro j _ _
          rw [hupd]
          exact le_max_right _ _
        · rw [hupd]
          exact le_max_left _ _
        · intro j h1 h2
          omega
        · rcases hcases with ⟨-, h2⟩ | ⟨h1, h2⟩
          · exact .inl h2
          · exact .inr ⟨i, le_refl _, by omega, h1, h2, fun k hk1 hk2 => by omega⟩
      · have e' : scanCandidates s start cap stop (fuel + 1) i b =
            scanCandidates s start cap stop fuel (i + 1) (b.update n (s.candCell i).toNat) := by
          rw [scanCandidates, r]
          simp only [e, if_neg hs]
        rcases ih (i + 1) (b.update n (s.candCell i).toNat) (by omega) with
          ⟨j, c, hc, hj1, hj2, hj3⟩ | ⟨b', m, h1, h2, h3, h4, add, h5, h6, h7, h8, h9, h10⟩
        · exact .inl ⟨j, c, by rw [e', hc], by omega, by omega, hj3⟩
        · have hnb : n ≤ b'.len := le_trans (by rw [hupd]; exact le_max_right _ _) h7
          have hbb : b.len ≤ b'.len := le_trans (by rw [hupd]; exact le_max_left _ _) h7
          have hns : n < stop := lt_of_le_of_lt (by rw [hupd]; exact le_max_right _ _) (Nat.not_le.1 hs)
          refine .inr ⟨b', m, by rw [e', h1], by omega, by omega, fun h => by omega,
            fun j => if j = i then n else add j, ?_, ?_, hbb, ?_, ?_, ?_⟩
          · intro j hj1 hj2
            by_cases hj : j = i
            · subst hj
              simpa using ⟨e, hn⟩
            · simpa [hj] using h5 j (by omega) hj2
          · intro j hj1 hj2
            by_cases hj : j = i
            · simpa [hj] using hnb
            · simpa [hj] using h6 j (by omega) hj2
          · intro j hj1 hj2
            by_cases hj : j = i
            · simpa [hj] using hns
            · simpa [hj] using h8 j (by omega) hj2
          · rcases h9 with h9 | h9
            · exact .inl (by omega)
            · exact .inr h9
          · rcases h10 with h10 | ⟨j, hj1, hj2, hj3, hj4, hj5⟩
            · rcases hcases with ⟨-, h2'⟩ | ⟨h1', h2'⟩
              · exact .inl (by rw [h10, h2'])
              · exact .inr ⟨i, le_refl _, by omega, by simpa using h1', by simpa using h10.trans h2',
                  fun k hk1 hk2 => by omega⟩
            · have hji : j ≠ i := by omega
              refine .inr ⟨j, by omega, hj2, ?_, by simpa [hji] using hj4, ?_⟩
              · rw [hupd] at hj3
                simpa [hji] using lt_of_le_of_lt (le_max_left _ _) hj3
              · intro k hk1 hk2
                by_cases hk : k = i
                · rw [hupd] at hj3
                  simpa [hk, hji] using lt_of_le_of_lt (le_max_right _ _) hj3
                · simpa [hk, hji] using hj5 k (by omega) hk2

end Sys2Proof.Machine
end

