-- ==== Sys2Proof/Laws/PerInstr.lean ====
section
/-! SUPPORT. Statements made for every instruction as syntax, one lemma per constructor. -/

/-- The shape of a command word (30_encoding.md R72 to R74): the instruction is well formed, its word is a legal
word, and the opcode's high nibble names its family. -/
def Sys2Proof.Laws.WordShape.Statement (i : Sys2Proof.Instr) : Prop :=
  i.wf = true ∧ Sys2Proof.legalWord (Sys2Proof.encode i) = true ∧
    Sys2Proof.opcode i / 2 ^ 4 = i.family.nibble

theorem Sys2Proof.Laws.WordShape.bwNew : Sys2Proof.Laws.WordShape.Statement .bwNew :=
  ⟨rfl, rfl, rfl⟩

theorem Sys2Proof.Laws.WordShape.bwNewu : Sys2Proof.Laws.WordShape.Statement .bwNewu :=
  ⟨rfl, rfl, rfl⟩

theorem Sys2Proof.Laws.WordShape.bwMask : Sys2Proof.Laws.WordShape.Statement .bwMask :=
  ⟨rfl, rfl, rfl⟩

theorem Sys2Proof.Laws.WordShape.bwPow2 : Sys2Proof.Laws.WordShape.Statement .bwPow2 :=
  ⟨rfl, rfl, rfl⟩

theorem Sys2Proof.Laws.WordShape.tbvNew : Sys2Proof.Laws.WordShape.Statement .tbvNew :=
  ⟨rfl, rfl, rfl⟩

theorem Sys2Proof.Laws.WordShape.tbvNewc : Sys2Proof.Laws.WordShape.Statement .tbvNewc :=
  ⟨rfl, rfl, rfl⟩

theorem Sys2Proof.Laws.WordShape.tbvRevd : Sys2Proof.Laws.WordShape.Statement .tbvRevd :=
  ⟨rfl, rfl, rfl⟩

theorem Sys2Proof.Laws.WordShape.tbvRev : Sys2Proof.Laws.WordShape.Statement .tbvRev :=
  ⟨rfl, rfl, rfl⟩

theorem Sys2Proof.Laws.WordShape.tbvEq : Sys2Proof.Laws.WordShape.Statement .tbvEq :=
  ⟨rfl, rfl, rfl⟩

theorem Sys2Proof.Laws.WordShape.npot : Sys2Proof.Laws.WordShape.Statement .npot :=
  ⟨rfl, rfl, rfl⟩

theorem Sys2Proof.Laws.WordShape.wNew : Sys2Proof.Laws.WordShape.Statement .wNew :=
  ⟨rfl, rfl, rfl⟩

theorem Sys2Proof.Laws.WordShape.wPush : Sys2Proof.Laws.WordShape.Statement .wPush :=
  ⟨rfl, rfl, rfl⟩

theorem Sys2Proof.Laws.WordShape.wPbool : Sys2Proof.Laws.WordShape.Statement .wPbool :=
  ⟨rfl, rfl, rfl⟩

theorem Sys2Proof.Laws.WordShape.wPbyte : Sys2Proof.Laws.WordShape.Statement .wPbyte :=
  ⟨rfl, rfl, rfl⟩

theorem Sys2Proof.Laws.WordShape.wPnib : Sys2Proof.Laws.WordShape.Statement .wPnib :=
  ⟨rfl, rfl, rfl⟩

theorem Sys2Proof.Laws.WordShape.wAlign : Sys2Proof.Laws.WordShape.Statement .wAlign :=
  ⟨rfl, rfl, rfl⟩

theorem Sys2Proof.Laws.WordShape.wBitcnt : Sys2Proof.Laws.WordShape.Statement .wBitcnt :=
  ⟨rfl, rfl, rfl⟩

theorem Sys2Proof.Laws.WordShape.wFin : Sys2Proof.Laws.WordShape.Statement .wFin :=
  ⟨rfl, rfl, rfl⟩

theorem Sys2Proof.Laws.WordShape.rNew : Sys2Proof.Laws.WordShape.Statement .rNew :=
  ⟨rfl, rfl, rfl⟩

theorem Sys2Proof.Laws.WordShape.rBool : Sys2Proof.Laws.WordShape.Statement .rBool :=
  ⟨rfl, rfl, rfl⟩

theorem Sys2Proof.Laws.WordShape.rNib : Sys2Proof.Laws.WordShape.Statement .rNib :=
  ⟨rfl, rfl, rfl⟩

theorem Sys2Proof.Laws.WordShape.rByte : Sys2Proof.Laws.WordShape.Statement .rByte :=
  ⟨rfl, rfl, rfl⟩

theorem Sys2Proof.Laws.WordShape.rBits : Sys2Proof.Laws.WordShape.Statement .rBits :=
  ⟨rfl, rfl, rfl⟩

theorem Sys2Proof.Laws.WordShape.rPeek : Sys2Proof.Laws.WordShape.Statement .rPeek :=
  ⟨rfl, rfl, rfl⟩

theorem Sys2Proof.Laws.WordShape.rAdv : Sys2Proof.Laws.WordShape.Statement .rAdv :=
  ⟨rfl, rfl, rfl⟩

theorem Sys2Proof.Laws.WordShape.rAlign : Sys2Proof.Laws.WordShape.Statement .rAlign :=
  ⟨rfl, rfl, rfl⟩

theorem Sys2Proof.Laws.WordShape.rNxbyte : Sys2Proof.Laws.WordShape.Statement .rNxbyte :=
  ⟨rfl, rfl, rfl⟩

theorem Sys2Proof.Laws.WordShape.rNxarr : Sys2Proof.Laws.WordShape.Statement .rNxarr :=
  ⟨rfl, rfl, rfl⟩

theorem Sys2Proof.Laws.WordShape.rNxslc : Sys2Proof.Laws.WordShape.Statement .rNxslc :=
  ⟨rfl, rfl, rfl⟩

theorem Sys2Proof.Laws.WordShape.mLen : Sys2Proof.Laws.WordShape.Statement .mLen :=
  ⟨rfl, rfl, rfl⟩

theorem Sys2Proof.Laws.WordShape.mFind : Sys2Proof.Laws.WordShape.Statement .mFind :=
  ⟨rfl, rfl, rfl⟩
end

