-- ==== Sys2Proof/Laws/Port.lean ====
section
/-! SUPPORT. What a step can do, and what the host's actions do: the one place a proof about `step` starts from. -/

namespace Sys2Proof.Machine

theorem step_nil {s : State} (h : s.queue = []) : step s = .next s := by
  simp only [step, hostStep, h]

/-- A step with an action left is that action, from the state that no longer lists it. -/
theorem step_cons {s : State} {a : HostAction} {rest : List HostAction} (h : s.queue = a :: rest) :
    step s = act { s with queue := rest } a := by
  simp only [step, hostStep, h]

/-- Everything a step can do. -/
theorem step_cases (s : State) :
    (s.queue = [] ∧ step s = .next s) ∨
      ∃ a rest, s.queue = a :: rest ∧ step s = act { s with queue := rest } a := by
  cases h : s.queue with
  | nil => exact .inl ⟨rfl, step_nil h⟩
  | cons a rest => exact .inr ⟨a, rest, rfl, step_cons h⟩

/-- A command word runs its command, or raises `IllegalCommand` unless the unit is faulted. -/
theorem issue_cases (s : State) (c : Word) :
    (∃ i, decode c = .ok i ∧ issue s c = exec i s) ∨
      (∃ e, decode c = .error e) ∧ issue s c = serve s (.error (.raise .illegalCommand)) := by
  unfold issue
  cases h : decode c with
  | ok i => exact .inl ⟨i, rfl, rfl⟩
  | error e => exact .inr ⟨⟨e, rfl⟩, rfl⟩

theorem decode_encode (i : Instr) : decode (encode i) = .ok i := by
  cases i <;> rfl

@[simp] theorem act_issueOf (i : Instr) (s : State) : act s (issueOf i) = exec i s := by
  simp only [issueOf, act, issue, decode_encode]

@[simp] theorem perform_nil (s : State) : perform s [] = .next s := rfl

theorem perform_cons {s t : State} {a : HostAction} (h : act s a = .next t) (l : List HostAction) :
    perform s (a :: l) = perform t l := by
  simp only [perform, h]

theorem perform_append {s t : State} {l : List HostAction} (h : perform s l = .next t) (l' : List HostAction) :
    perform s (l ++ l') = perform t l' := by
  induction l generalizing s with
  | nil =>
    cases h
    rfl
  | cons a l ih =>
    simp only [perform, List.cons_append] at h ⊢
    cases ha : act s a with
    | next u =>
      simp only [ha] at h ⊢
      exact ih h
    | fault r => simp [ha] at h
    | refused r => simp [ha] at h

/-- A program that ends in a next state ends there part by part. -/
theorem perform_append_next {s u : State} {l l' : List HostAction} (h : perform s (l ++ l') = .next u) :
    ∃ t, perform s l = .next t ∧ perform t l' = .next u := by
  induction l generalizing s with
  | nil => exact ⟨s, rfl, h⟩
  | cons a l ih =>
    simp only [perform, List.cons_append] at h ⊢
    cases ha : act s a with
    | next t =>
      simp only [ha] at h ⊢
      exact ih h
    | fault r => simp [ha] at h
    | refused r => simp [ha] at h

/-- Everything a host memory statement can do. -/
theorem writeMem_next {s t : State} {index : Nat} {cells : CellList} (h : writeMem s index cells = .next t) :
    (cells.count = 0 ∨ index + cells.count ≤ capacity s.cfg cells.space) ∧ badElement? s.cfg cells = none ∧
      t = storeCells s index cells := by
  unfold writeMem at h
  split at h
  · cases h
  · split at h
    · cases h
    · cases h
      exact ⟨by omega, ‹_›, rfl⟩

/-- The reset state's memories have the canonical form. -/
theorem memoryInv_reset : MemoryInv State.reset := by decide

/-- A host memory statement keeps the canonical form, the capacities and the element width. -/
theorem memoryInv_storeCells {s : State} {index : Nat} {cells : CellList} (h : MemoryInv s)
    (hc : cells.count = 0 ∨ index + cells.count ≤ capacity s.cfg cells.space)
    (hb : badElement? s.cfg cells = none) : MemoryInv (storeCells s index cells) := by
  obtain ⟨⟨w1, w2, w3, w4⟩, b1, b2, b3, b4⟩ := h
  have bound : ∀ {α : Type} {vs : List α} {k : Nat} {v : α}, vs[k]? = some v → k < vs.length :=
    fun hk => (List.getElem?_eq_some_iff.1 hk).1
  cases cells with
  | input vs =>
    refine ⟨⟨Memory.writeFrom_wf w1 _ _, w2, w3, w4⟩, Memory.forall_writeFrom b1 fun k v hk => ?_, b2, b3, b4⟩
    have := bound hk
    simp only [CellList.count, CellList.space, capacity, storeCells] at hc ⊢
    omega
  | output vs =>
    refine ⟨⟨w1, Memory.writeFrom_wf w2 _ _, w3, w4⟩, b1, Memory.forall_writeFrom b2 fun k v hk => ?_, b3, b4⟩
    have := bound hk
    simp only [CellList.count, CellList.space, capacity, storeCells] at hc ⊢
    omega
  | data vs =>
    refine ⟨⟨w1, w2, Memory.writeFrom_wf w3 _ _, w4⟩, b1, b2, Memory.forall_writeFrom b3 fun k v hk => ?_, b4⟩
    have hl := bound hk
    have hv : v < 2 ^ s.cfg.elemW := by
      have := List.find?_eq_none.1 hb v (List.mem_of_getElem? hk)
      simpa using this
    simp only [CellList.count, CellList.space, capacity, storeCells] at hc ⊢
    exact ⟨by omega, hv⟩
  | cand vs =>
    refine ⟨⟨w1, w2, w3, Memory.writeFrom_wf w4 _ _⟩, b1, b2, b3, Memory.forall_writeFrom b4 fun k v hk => ?_⟩
    have := bound hk
    simp only [CellList.count, CellList.space, capacity, storeCells] at hc ⊢
    omega

/-- A store of the unit into `OUT` within the capacity keeps the canonical form. -/
theorem memoryInv_writeOut {s : State} {a : Nat} {bytes : List Byte} (h : MemoryInv s)
    (hb : a + bytes.length ≤ s.cfg.outCap) :
    MemoryInv { s with outMem := s.outMem.writeFrom a bytes } := by
  obtain ⟨⟨w1, w2, w3, w4⟩, b1, b2, b3, b4⟩ := h
  refine ⟨⟨w1, Memory.writeFrom_wf w2 _ _, w3, w4⟩, b1, Memory.forall_writeFrom b2 fun k v hk => ?_, b3, b4⟩
  have := (List.getElem?_eq_some_iff.1 hk).1
  simp only
  omega

end Sys2Proof.Machine
end

