-- ==== Sys2Proof/Laws/Reader.lean ====
section
/-! SUPPORT. What `fill`, the bit reads, the alignment and `raw_take` do, once each. -/

namespace Sys2Proof.Machine

/-- What holds of the local values of `fill` at every round (42_reader.md R141): nothing but whole bytes moved from
the slice into the accumulator, so the logical position stands still. -/
structure PulledInv (s : State) (p : Pulled) : Prop where
  idx_le : p.idx ≤ s.rlen.toNat
  ridx_le : s.ridx.toNat ≤ p.idx
  position : p.left + 8 * s.ridx.toNat = s.rleft.toNat + 8 * p.idx
  acc_lt : p.acc < 2 ^ p.left
  bits : Coherent s → ∀ j, j < p.left → p.acc.testBit j = streamBit s (rbitpos s + j)

theorem rleft_lt (s : State) : s.rleft.toNat < 32 := s.rleft.isLt

/-- One pull keeps what holds of the local values. -/
theorem PulledInv.pull {s : State} {p : Pulled} (hr : ReaderInv s) (hp : PulledInv s p)
    (h : p.idx < s.rlen.toNat) :
    PulledInv s { acc := p.acc + (s.inCell p.idx).toNat * 2 ^ p.left, left := p.left + 8, idx := p.idx + 1 } := by
  have hb : (s.inCell p.idx).toNat < 2 ^ 8 := (s.inCell p.idx).isLt
  have hpos := hp.position
  have hle := hp.ridx_le
  obtain ⟨-, -, h3, -, -⟩ := hr
  refine ⟨h, by simp only; omega, by simp only; omega, ?_, ?_⟩
  · have h1 : (s.inCell p.idx).toNat * 2 ^ p.left + 2 ^ p.left ≤ 2 ^ 8 * 2 ^ p.left := by
      rw [← Nat.succ_mul]
      exact Nat.mul_le_mul_right _ hb
    have := hp.acc_lt
    simp only [Nat.pow_add, Nat.mul_comm (2 ^ p.left)]
    omega
  · intro hc j hj
    simp only at hj
    rw [testBit_add_mul_two_pow hp.acc_lt]
    split
    · exact hp.bits hc j ‹_›
    · have e : rbitpos s + j = 8 * p.idx + (j - p.left) := by
        rw [rbitpos]
        omega
      rw [e, streamBit, show (8 * p.idx + (j - p.left)) / 8 = p.idx by omega,
        show (8 * p.idx + (j - p.left)) % 8 = j - p.left by omega]
      rfl

theorem fillLoop_spec {s : State} {w : Nat} (hr : ReaderInv s) (fuel : Nat) {p : Pulled} (hp : PulledInv s p)
    (hw : w ≤ p.left + 8 * (s.rlen.toNat - p.idx)) (hf : w ≤ p.left + fuel) :
    ∃ q, fillLoop s w fuel p = .ok q ∧ PulledInv s q ∧ w ≤ q.left ∧ p.left ≤ q.left ∧
      (q = p ∨ q.left < w + 8) := by
  induction fuel generalizing p with
  | zero => exact ⟨p, rfl, hp, hf, le_refl _, .inl rfl⟩
  | succ fuel ih =>
    by_cases h : p.left < w
    · have hi : p.idx < s.rlen.toNat := by omega
      have e : fillLoop s w (fuel + 1) p = fillLoop s w fuel
          { acc := p.acc + (s.inCell p.idx).toNat * 2 ^ p.left, left := p.left + 8, idx := p.idx + 1 } := by
        rw [fillLoop, if_pos h, readIn_ok hi (lt_of_lt_of_le hi hr.2.1)]
      obtain ⟨q, h1, h2, h3, h4, h5⟩ := ih (hp.pull hr hi) (by simp only; omega) (by simp only; omega)
      simp only at h4
      refine ⟨q, by rw [e, h1], h2, h3, by omega, .inr ?_⟩
      rcases h5 with rfl | h5
      · simp only
        omega
      · exact h5
    · exact ⟨p, by rw [fillLoop, if_neg h], hp, by omega, le_refl _, .inl rfl⟩

/-- The local values `fill` starts from. -/
def pulledStart (s : State) : Pulled :=
  { acc := s.racc.toNat, left := s.rleft.toNat, idx := s.ridx.toNat }

theorem pulledInv_start {s : State} (hr : ReaderInv s) : PulledInv s (pulledStart s) :=
  ⟨hr.1, le_refl _, rfl, hr.2.2.2.1, fun hc j hj => hc j hj⟩

/-- `fill(w)` with enough bits left (42_reader.md R141). -/
theorem fill_spec {s : State} {w : Nat} (hr : ReaderInv s) (h : w ≤ avail s) :
    ∃ q, fill s w = .ok q ∧ PulledInv s q ∧ w ≤ q.left ∧ s.rleft.toNat ≤ q.left ∧
      (q = pulledStart s ∨ q.left < w + 8) :=
  fillLoop_spec hr w (pulledInv_start hr) h (by simp)

theorem fillLoop_error {s : State} {w : Nat} (fuel : Nat) {p : Pulled} {e : Abort}
    (h : fillLoop s w fuel p = .error e) : ∃ f, e = .stop f := by
  induction fuel generalizing p with
  | zero => cases h
  | succ fuel ih =>
    rw [fillLoop] at h
    split at h
    · split at h
      · rename_i hread
        cases h
        rw [readIn] at hread
        split at hread
        · cases hread
        · cases hread
          exact ⟨_, rfl⟩
      · exact ih h
    · cases h

/-- Everything a bit read can do: no value, a value from pulled bits, or (never in a state that meets the
invariants) a stop of the model. -/
theorem bitRead_cases (s : State) (w : Nat) (k : Pulled → State) :
    (avail s < w ∧ bitRead s w k = .ok (.noValue s)) ∨
      (w ≤ avail s ∧ ∃ p, fill s w = .ok p ∧ bitRead s w k = .ok (.value (k p))) ∨
        ∃ f, bitRead s w k = .error (.stop f) := by
  by_cases h : avail s < w
  · exact .inl ⟨h, by rw [bitRead, if_pos h]⟩
  · rw [bitRead, if_neg h]
    cases hf : fill s w with
    | error e =>
      obtain ⟨f, rfl⟩ := fillLoop_error w hf
      exact .inr (.inr ⟨f, rfl⟩)
    | ok p => exact .inr (.inl ⟨by omega, p, rfl, rfl⟩)

theorem PulledInv.left_lt {s : State} {q : Pulled} {w : Nat} (hw : w ≤ 24)
    (h : q = pulledStart s ∨ q.left < w + 8) : q.left < 2 ^ 5 := by
  rcases h with rfl | h
  · exact rleft_lt s
  · omega

/-- The reader after pulled bits are kept or consumed, as numbers: what `fill` gave, less the consumed bits. -/
theorem consumePulled_toNat {s : State} {q : Pulled} {w : Nat} (hq : PulledInv s q) (hl : q.left < 2 ^ 5)
    (hw : w ≤ q.left) :
    (consumePulled s w q).racc.toNat = q.acc / 2 ^ w ∧ (consumePulled s w q).rleft.toNat = q.left - w ∧
      (consumePulled s w q).ridx.toNat = q.idx := by
  have h1 := hq.acc_lt
  have h2 := hq.idx_le
  have h3 := s.rlen.isLt
  have h4 : 2 ^ q.left ≤ 2 ^ 32 := Nat.pow_le_pow_right (by omega) (by omega)
  have h5 : q.acc / 2 ^ w ≤ q.acc := Nat.div_le_self _ _
  simp only [consumePulled_racc, consumePulled_rleft, consumePulled_ridx, BitVec.toNat_ofNat]
  refine ⟨Nat.mod_eq_of_lt (by omega), Nat.mod_eq_of_lt (by omega), Nat.mod_eq_of_lt (by omega)⟩

theorem keepPulled_eq (s : State) (q : Pulled) : keepPulled s q = consumePulled s 0 q := by
  simp [consumePulled]

theorem div_two_pow_lt {x a b : Nat} (h : x < 2 ^ a) (hb : b ≤ a) : x / 2 ^ b < 2 ^ (a - b) := by
  rw [Nat.div_lt_iff_lt_mul (Nat.two_pow_pos _), ← Nat.pow_add, Nat.sub_add_cancel hb]
  exact h

/-- A consuming read keeps the reader invariants (10_state.md R39) of an open reader. -/
theorem readerInv_consume {s : State} {q : Pulled} {w : Nat} (hr : ReaderInv s) (ho : s.ropen = true)
    (hq : PulledInv s q) (hl : q.left < 2 ^ 5) (hw : w ≤ q.left) : ReaderInv (consumePulled s w q) := by
  obtain ⟨e1, e2, e3⟩ := consumePulled_toNat hq hl hw
  have h3 := hr.2.2.1
  have hpos := hq.position
  have hle := hq.ridx_le
  refine ⟨?_, hr.2.1, ?_, ?_, fun hn => ?_⟩
  · rw [e3]
    exact hq.idx_le
  · rw [e2, e3]
    omega
  · rw [e1, e2]
    exact div_two_pow_lt hq.acc_lt hw
  · rw [consumePulled_ropen, ho] at hn
    cases hn

/-- A consuming read moves the logical position by the bits it consumes (42_reader.md R157). -/
theorem rbitpos_consume {s : State} {q : Pulled} {w : Nat} (hr : ReaderInv s) (hq : PulledInv s q)
    (hl : q.left < 2 ^ 5) (hw : w ≤ q.left) : rbitpos (consumePulled s w q) = rbitpos s + w := by
  obtain ⟨-, e2, e3⟩ := consumePulled_toNat hq hl hw
  have h3 := hr.2.2.1
  have hpos := hq.position
  rw [rbitpos, rbitpos, e2, e3]
  omega

/-- A consuming read keeps the buffered bits the stream's (10_state.md R39, item (e)). -/
theorem coherent_consume {s : State} {q : Pulled} {w : Nat} (hr : ReaderInv s) (hc : Coherent s)
    (hq : PulledInv s q) (hl : q.left < 2 ^ 5) (hw : w ≤ q.left) : Coherent (consumePulled s w q) := by
  obtain ⟨e1, e2, -⟩ := consumePulled_toNat hq hl hw
  intro j hj
  rw [e2] at hj
  rw [rbitpos_consume hr hq hl hw, ← BitVec.testBit_toNat, e1, testBit_div_two_pow',
    hq.bits hc _ (by omega), Nat.add_assoc]
  rfl

/-- The pulled bits below `w` are the field at the logical position (42_reader.md R157). -/
theorem pulled_field {s : State} {q : Pulled} {w : Nat} (hc : Coherent s) (hq : PulledInv s q) (hw : w ≤ q.left) :
    q.acc % 2 ^ w = field s (rbitpos s) w :=
  mod_eq_field fun j hj => hq.bits hc j (by omega)

theorem alignReader_toNat (s : State) :
    (alignReader s).racc.toNat = s.racc.toNat / 2 ^ (s.rleft.toNat % 8) ∧
      (alignReader s).rleft.toNat = s.rleft.toNat - s.rleft.toNat % 8 := by
  have h1 := s.racc.isLt
  have h2 := rleft_lt s
  have h3 : s.racc.toNat / 2 ^ (s.rleft.toNat % 8) ≤ s.racc.toNat := Nat.div_le_self _ _
  simp only [alignReader_racc, alignReader_rleft, BitVec.toNat_ofNat]
  exact ⟨Nat.mod_eq_of_lt (by omega), Nat.mod_eq_of_lt (by omega)⟩

/-- The alignment keeps the reader invariants. -/
theorem readerInv_align {s : State} (hr : ReaderInv s) : ReaderInv (alignReader s) := by
  obtain ⟨e1, e2⟩ := alignReader_toNat s
  refine ⟨hr.1, hr.2.1, ?_, ?_, fun hn => ?_⟩
  · rw [e2]
    have := hr.2.2.1
    simp only [alignReader_ridx]
    omega
  · rw [e1, e2]
    exact div_two_pow_lt hr.2.2.2.1 (Nat.mod_le _ _)
  · obtain ⟨h1, h2, h3, h4⟩ := hr.2.2.2.2 hn
    refine ⟨h1, h2, ?_, ?_⟩ <;> apply BitVec.eq_of_toNat_eq
    · rw [e1, h3]
      simp
    · rw [e2, h4]
      simp

/-- The alignment moves the logical position to the next multiple of 8 (42_reader.md R149). -/
theorem rbitpos_align {s : State} (hr : ReaderInv s) : rbitpos (alignReader s) = 8 * ((rbitpos s + 7) / 8) := by
  obtain ⟨-, e2⟩ := alignReader_toNat s
  have := hr.2.2.1
  rw [rbitpos, rbitpos, e2, alignReader_ridx]
  omega

theorem coherent_align {s : State} (hr : ReaderInv s) (hc : Coherent s) : Coherent (alignReader s) := by
  obtain ⟨e1, e2⟩ := alignReader_toNat s
  intro j hj
  rw [e2] at hj
  have h := hc (s.rleft.toNat % 8 + j) (by omega)
  have hp : rbitpos (alignReader s) + j = rbitpos s + (s.rleft.toNat % 8 + j) := by
    have := hr.2.2.1
    rw [rbitpos, rbitpos, e2, alignReader_ridx]
    omega
  rw [hp, ← BitVec.testBit_toNat, e1, testBit_div_two_pow', BitVec.testBit_toNat, h]
  rfl

/-- The byte position of an aligned reader is its logical position in bytes (42_reader.md R150). -/
theorem bytePos_align {s : State} (hr : ReaderInv s) : bytePos (alignReader s) = (rbitpos s + 7) / 8 := by
  obtain ⟨-, e2⟩ := alignReader_toNat s
  have := hr.2.2.1
  rw [bytePos, rbitpos, e2, alignReader_ridx]
  omega

/-- The state a raw read that takes `n` bytes leaves. -/
def rawTaken (s : State) (n : Nat) : State :=
  { alignReader s with ridx := BitVec.ofNat 32 (bytePos (alignReader s) + n), racc := 0, rleft := 0 }

/-- Everything `raw_take(n)` can do (42_reader.md R150). -/
theorem rawTake_cases (s : State) (n : Nat) :
    (s.rlen.toNat - bytePos (alignReader s) < n ∧ rawTake s n = (alignReader s, none)) ∨
      (n ≤ s.rlen.toNat - bytePos (alignReader s) ∧
        rawTake s n = (rawTaken s n, some (bytePos (alignReader s)))) := by
  by_cases h : s.rlen.toNat - bytePos (alignReader s) < n
  · exact .inl ⟨h, if_pos h⟩
  · exact .inr ⟨by omega, if_neg h⟩

/-- A raw read keeps the reader invariants of an open reader. -/
theorem readerInv_rawTaken {s : State} {n : Nat} (hr : ReaderInv s) (ho : s.ropen = true)
    (h : n ≤ s.rlen.toNat - bytePos (alignReader s)) : ReaderInv (rawTaken s n) := by
  have h1 : bytePos (alignReader s) ≤ s.rlen.toNat := by
    have := hr.1
    rw [bytePos, alignReader_ridx]
    omega
  have h2 := s.rlen.isLt
  refine ⟨?_, hr.2.1, ?_, ?_, fun hn => ?_⟩
  · simp only [rawTaken, BitVec.toNat_ofNat, alignReader_rlen]
    omega
  · simp [rawTaken]
  · simp [rawTaken]
  · simp only [rawTaken, alignReader_ropen, ho] at hn
    cases hn

/-- A bit read that does not break off ends with no value and nothing changed, or with the pulled bits. -/
theorem bitRead_ok {s : State} {w : Nat} {k : Pulled → State} {c : Completion} (h : bitRead s w k = .ok c) :
    c = .noValue s ∨ ∃ p, fill s w = .ok p ∧ w ≤ avail s ∧ c = .value (k p) := by
  rcases bitRead_cases s w k with ⟨_, e⟩ | ⟨hl, p, hp, e⟩ | ⟨f, e⟩ <;> rw [e] at h <;> cases h
  · exact .inl rfl
  · exact .inr ⟨p, hp, hl, rfl⟩

/-- `fill` pulls nothing when the bits are buffered already. -/
theorem fill_enough {s : State} {w : Nat} (h : w ≤ s.rleft.toNat) : fill s w = .ok (pulledStart s) := by
  cases w with
  | zero => rfl
  | succ w => rw [fill, fillLoop, if_neg (by simpa using h)]; rfl

/-- "Enough bits left", by `avail` (10_state.md R40) and by the logical position (R41). -/
theorem avail_le_iff {s : State} (hr : ReaderInv s) (w : Nat) :
    w ≤ avail s ↔ rbitpos s + w ≤ 8 * s.rlen.toNat := by
  have h1 := hr.1
  have h2 := hr.2.2.1
  rw [avail, rbitpos]
  omega

/-- A field depends on `IN` alone. -/
theorem field_congr {s t : State} (h : t.inMem = s.inMem) (p w : Nat) : field t p w = field s p w := by
  induction w generalizing p with
  | zero => rfl
  | succ w ih => rw [field, field, ih]; simp [streamBit, State.inCell, h]

end Sys2Proof.Machine
end

