-- ==== Sys2Proof/Laws/Writer.lean ====
section
/-! SUPPORT. What `append_bits` and the flush do, once each: the state they leave, the bits they append, the
invariants they keep. -/

namespace Sys2Proof.Machine

/-- The pending bits and the new ones as one number (41_writer.md R129). -/
def appendAcc (s : State) (w v : Nat) : Nat :=
  s.wacc.toNat + v % 2 ^ w * 2 ^ s.wpos.toNat

/-- The bytes an append completes (41_writer.md R129). -/
def appendFull (s : State) (w : Nat) : Nat :=
  (s.wpos.toNat + w) / 8

/-- The state an append that fits leaves. -/
def appended (s : State) (w v : Nat) : State :=
  { s with
    outMem := s.outMem.writeFrom s.wlen.toNat (bytesOf (appendFull s w) (appendAcc s w v))
    wlen := BitVec.ofNat 32 (s.wlen.toNat + appendFull s w)
    wacc := BitVec.ofNat 8 (appendAcc s w v / 2 ^ (8 * appendFull s w))
    wpos := BitVec.ofNat 3 ((s.wpos.toNat + w) % 8) }

@[simp] theorem length_bytesOf (n acc : Nat) : (bytesOf n acc).length = n := by simp [bytesOf]

theorem appendBits_fits {s : State} {w : Nat} (v : Nat) (h : s.wlen.toNat + appendFull s w ≤ s.cfg.outCap) :
    appendBits s w v = .ok (.value (appended s w v)) := by
  have h' : ¬ s.cfg.outCap < s.wlen.toNat + (s.wpos.toNat + w) / 8 := by
    rw [appendFull] at h
    omega
  simp only [appendBits, if_neg h']
  rw [writeOut_ok (by simpa [appendFull] using h)]
  rfl

theorem appendBits_overflows {s : State} {w : Nat} (v : Nat) (h : s.cfg.outCap < s.wlen.toNat + appendFull s w) :
    appendBits s w v = .error (.raise .outOverflow) := by
  rw [appendFull] at h
  simp only [appendBits, if_pos h]

/-- Everything an append can do. -/
theorem appendBits_cases (s : State) (w v : Nat) :
    (s.wlen.toNat + appendFull s w ≤ s.cfg.outCap ∧ appendBits s w v = .ok (.value (appended s w v))) ∨
      (s.cfg.outCap < s.wlen.toNat + appendFull s w ∧ appendBits s w v = .error (.raise .outOverflow)) := by
  rcases Nat.lt_or_ge s.cfg.outCap (s.wlen.toNat + appendFull s w) with h | h
  · exact .inr ⟨h, appendBits_overflows v h⟩
  · exact .inl ⟨h, appendBits_fits v h⟩

/-- The state a flush that fits leaves (41_writer.md R126). -/
def flushed (s : State) : State :=
  if s.wpos.toNat = 0 then s
  else { s with
    outMem := s.outMem.write s.wlen.toNat s.wacc
    wlen := BitVec.ofNat 32 (s.wlen.toNat + 1), wacc := 0, wpos := 0 }

/-- Everything a flush can do. -/
theorem flush_cases (s : State) :
    ((s.wpos.toNat = 0 ∨ s.wlen.toNat + 1 ≤ s.cfg.outCap) ∧ flush s = .ok (flushed s)) ∨
      (s.wpos.toNat ≠ 0 ∧ s.cfg.outCap < s.wlen.toNat + 1 ∧ flush s = .error (.raise .outOverflow)) := by
  by_cases h0 : s.wpos.toNat = 0
  · exact .inl ⟨.inl h0, by simp [flush, flushed, h0]⟩
  · by_cases h1 : s.cfg.outCap < s.wlen.toNat + 1
    · exact .inr ⟨h0, h1, by simp only [flush, if_neg h0, if_pos h1]⟩
    · refine .inl ⟨.inr (by omega), ?_⟩
      simp only [flush, flushed, if_neg h0, if_neg h1]
      rw [writeOut_ok (by simp; omega)]
      rfl

/-- What the flush leaves alone. -/
theorem flushed_frame (s : State) :
    flushed s = { s with outMem := (flushed s).outMem, wlen := (flushed s).wlen,
                         wacc := (flushed s).wacc, wpos := (flushed s).wpos } := by
  unfold flushed
  split <;> rfl

theorem wpos_lt (s : State) : s.wpos.toNat < 8 := s.wpos.isLt

theorem appendAcc_lt {s : State} (h : s.wacc.toNat < 2 ^ s.wpos.toNat) (w v : Nat) :
    appendAcc s w v < 2 ^ (s.wpos.toNat + w) := by
  have h1 : v % 2 ^ w < 2 ^ w := Nat.mod_lt _ (Nat.two_pow_pos w)
  have h2 : v % 2 ^ w * 2 ^ s.wpos.toNat + 2 ^ s.wpos.toNat ≤ 2 ^ w * 2 ^ s.wpos.toNat := by
    rw [← Nat.succ_mul]
    exact Nat.mul_le_mul_right _ h1
  rw [appendAcc, Nat.pow_add, Nat.mul_comm (2 ^ s.wpos.toNat)]
  omega

/-- The remainder an append leaves pending is below `2 ^ (total mod 8)` (41_writer.md R129). -/
theorem appended_rest_lt {s : State} (h : s.wacc.toNat < 2 ^ s.wpos.toNat) (w v : Nat) :
    appendAcc s w v / 2 ^ (8 * appendFull s w) < 2 ^ ((s.wpos.toNat + w) % 8) := by
  rw [Nat.div_lt_iff_lt_mul (Nat.two_pow_pos _), ← Nat.pow_add]
  have := appendAcc_lt h w v
  rwa [show (s.wpos.toNat + w) % 8 + 8 * appendFull s w = s.wpos.toNat + w by
    rw [appendFull]
    omega]

theorem appended_wpos (s : State) (w v : Nat) : (appended s w v).wpos.toNat = (s.wpos.toNat + w) % 8 := by
  simp only [appended, BitVec.toNat_ofNat]
  omega

theorem appended_wacc {s : State} (h : s.wacc.toNat < 2 ^ s.wpos.toNat) (w v : Nat) :
    (appended s w v).wacc.toNat = appendAcc s w v / 2 ^ (8 * appendFull s w) := by
  simp only [appended, BitVec.toNat_ofNat]
  refine Nat.mod_eq_of_lt (lt_trans (appended_rest_lt h w v) ?_)
  exact Nat.pow_lt_pow_right (by omega) (by omega)

theorem appended_wlen {s : State} {w : Nat} (hc : s.cfg.wf) (h : s.wlen.toNat + appendFull s w ≤ s.cfg.outCap)
    (v : Nat) : (appended s w v).wlen.toNat = s.wlen.toNat + appendFull s w := by
  simp only [appended, BitVec.toNat_ofNat]
  have := hc.2.2.1
  omega

theorem getElem?_bytesOf {n acc k : Nat} (h : k < n) :
    (bytesOf n acc)[k]? = some (BitVec.ofNat 8 (acc / 2 ^ (8 * k))) := by
  simp [bytesOf, h]

/-- A cell of `OUT` after an append: the completed bytes from the old `WLEN` on, all else as before. -/
theorem appended_outCell (s : State) (w v i : Nat) :
    (appended s w v).outCell i =
      if s.wlen.toNat ≤ i ∧ i < s.wlen.toNat + appendFull s w then
        BitVec.ofNat 8 (appendAcc s w v / 2 ^ (8 * (i - s.wlen.toNat)))
      else s.outCell i := by
  simp only [State.outCell, appended, Memory.read?_writeFrom, length_bytesOf]
  split
  · rename_i h
    rw [getElem?_bytesOf (by omega)]
    rfl
  · rfl

/-- An append keeps the writer invariants (10_state.md R35). -/
theorem writerInv_appended {s : State} {w : Nat} (hc : s.cfg.wf) (hw : WriterInv s) (ho : s.wopen = true)
    (h : s.wlen.toNat + appendFull s w ≤ s.cfg.outCap) (v : Nat) : WriterInv (appended s w v) := by
  refine ⟨?_, ?_, fun hn => ?_⟩
  · rw [appended_wacc hw.1, appended_wpos]
    exact appended_rest_lt hw.1 w v
  · rw [appended_wlen hc h]
    exact h
  · exact absurd (show s.wopen = false from hn) (by simp [ho])

/-- The law of append (41_writer.md R130): the output bit string grows by the `w` low bits of the value. -/
theorem outBits_appended {s : State} {w : Nat} (hc : s.cfg.wf) (hw : WriterInv s)
    (h : s.wlen.toNat + appendFull s w ≤ s.cfg.outCap) (v : Nat) :
    outBits (appended s w v) = outBits s ++ bitsOf w v := by
  rw [outBits, appended_wlen hc h, appended_wacc hw.1, appended_wpos]
  have e1 : ((List.range (s.wlen.toNat + appendFull s w)).flatMap fun k =>
      bitsOf 8 ((appended s w v).outCell k).toNat) =
      ((List.range s.wlen.toNat).flatMap fun k => bitsOf 8 (s.outCell k).toNat) ++
        (List.range (appendFull s w)).flatMap fun k => bitsOf 8 (appendAcc s w v / 2 ^ (8 * k)) := by
    rw [List.range_add, List.flatMap_append, List.flatMap_map]
    congr 1
    · refine List.flatMap_congr fun k hk => ?_
      have := List.mem_range.1 hk
      rw [appended_outCell, if_neg (by omega)]
    · refine List.flatMap_congr fun k hk => ?_
      have := List.mem_range.1 hk
      rw [appended_outCell, if_pos (by omega), BitVec.toNat_ofNat, bitsOf_mod]
      simp
  rw [e1, outBits, List.append_assoc, List.append_assoc, ← bitsOf_bytes,
    show 8 * appendFull s w + (s.wpos.toNat + w) % 8 = s.wpos.toNat + w by rw [appendFull]; omega, appendAcc,
    ← bitsOf_append hw.1, bitsOf_mod]

theorem flushed_wlen {s : State} (hc : s.cfg.wf) (h : s.wpos.toNat = 0 ∨ s.wlen.toNat + 1 ≤ s.cfg.outCap) :
    (flushed s).wlen.toNat = s.wlen.toNat + (s.wpos.toNat + 7) / 8 := by
  have h1 := hc.2.2.1
  have h2 := wpos_lt s
  unfold flushed
  split
  · rename_i h0
    rw [h0]
    simp
  · simp only [BitVec.toNat_ofNat]
    omega

theorem flushed_wpos (s : State) : (flushed s).wpos.toNat = 0 := by
  unfold flushed
  split
  · assumption
  · rfl

theorem flushed_wacc {s : State} (hw : WriterInv s) : (flushed s).wacc = 0 := by
  unfold flushed
  split
  · rename_i h0
    have := hw.1
    rw [h0] at this
    exact BitVec.eq_of_toNat_eq (by simpa using this)
  · rfl

/-- A cell of `OUT` after a flush. -/
theorem flushed_outCell (s : State) (i : Nat) :
    (flushed s).outCell i = if s.wpos.toNat ≠ 0 ∧ i = s.wlen.toNat then s.wacc else s.outCell i := by
  unfold flushed
  by_cases h0 : s.wpos.toNat = 0
  · simp [h0]
  · simp only [if_neg h0]
    by_cases hi : i = s.wlen.toNat
    · subst hi
      simp [h0, State.outCell]
    · simp [State.outCell, hi, Memory.read?_write_other _ _ _ hi]

/-- A flush pads the output bit string with zeros to a whole number of bytes (41_writer.md R126). -/
theorem outBits_flushed {s : State} (hc : s.cfg.wf) (hw : WriterInv s)
    (h : s.wpos.toNat = 0 ∨ s.wlen.toNat + 1 ≤ s.cfg.outCap) :
    outBits (flushed s) = outBits s ++ List.replicate ((8 - s.wpos.toNat) % 8) false := by
  have hp := wpos_lt s
  by_cases h0 : s.wpos.toNat = 0
  · have : flushed s = s := by simp [flushed, h0]
    simp [this, h0]
  · have hl : (flushed s).wlen.toNat = s.wlen.toNat + 1 := by
      rw [flushed_wlen hc h]
      omega
    rw [outBits, hl, flushed_wpos, List.range_succ, List.flatMap_append]
    have e : (List.range s.wlen.toNat).flatMap (fun k => bitsOf 8 ((flushed s).outCell k).toNat) =
        (List.range s.wlen.toNat).flatMap fun k => bitsOf 8 (s.outCell k).toNat := by
      refine List.flatMap_congr fun k hk => ?_
      have := List.mem_range.1 hk
      rw [flushed_outCell, if_neg (by omega)]
    have e2 : bitsOf 8 s.wacc.toNat =
        bitsOf s.wpos.toNat s.wacc.toNat ++ List.replicate (8 - s.wpos.toNat) false := by
      rw [show bitsOf 8 s.wacc.toNat = bitsOf (s.wpos.toNat + (8 - s.wpos.toNat)) s.wacc.toNat by
        rw [show s.wpos.toNat + (8 - s.wpos.toNat) = 8 by omega], bitsOf_add, Nat.div_eq_of_lt hw.1]
      simp
    rw [e, outBits, show (8 - s.wpos.toNat) % 8 = 8 - s.wpos.toNat by omega]
    simp [flushed_outCell, h0, e2]

/-- The flush keeps the writer invariants (10_state.md R35). -/
theorem writerInv_flushed {s : State} (hc : s.cfg.wf) (hw : WriterInv s)
    (h : s.wpos.toNat = 0 ∨ s.wlen.toNat + 1 ≤ s.cfg.outCap) : WriterInv (flushed s) := by
  have h1 := flushed_wlen hc h
  have h2 := flushed_wacc hw
  have h3 := flushed_wpos s
  have h4 : (flushed s).cfg = s.cfg := by rw [flushed_frame]
  have h5 := wpos_lt s
  have h6 := hw.2.1
  refine ⟨?_, ?_, fun _ => ⟨h2, BitVec.eq_of_toNat_eq h3⟩⟩
  · rw [h2, h3]
    simp
  · rw [h1, h4]
    omega

/-- The length of the output bit string (10_state.md R36). -/
theorem length_outBits (s : State) : (outBits s).length = 8 * s.wlen.toNat + s.wpos.toNat := by
  simp [outBits, List.length_flatMap, Nat.mul_comm]

end Sys2Proof.Machine
end

