-- ==== Sys2Proof/Tests/Slice0.lean ====
section
/-! SUPPORT. The model's own tests. The words are written out from the opcode map of 30_encoding.md R73; the expected
results are the vectors of 95_test_vectors.md, named at each test. Then the witnesses: for each statement of
Obligations.lean with hypotheses, values that meet them together, one for each clause. -/

namespace Sys2Proof.Tests

open Sys2Proof Sys2Proof.Machine

/-- The start of the vectors: reset, with the results preloaded to show what is left unchanged. -/
def idle : State := { State.reset with r0 := 0xDEAD, r1 := 0xBEEF }

/-- A unit with operands. -/
def withOperands (s : State) (a0 a1 a2 a3 a4 a5 : Word) : State :=
  { s with a0 := a0, a1 := a1, a2 := a2, a3 := a3, a4 := a4, a5 := a5 }

/-- An open writer over `OUT` of `cap` bytes: `WLEN`, `WACC`, `WPOS`, and `A0`. -/
def writing (cap : Nat) (wlen : Word) (wacc : Byte) (wpos : BitVec 3) (a0 : Word) : State :=
  { idle with wopen := true, wlen := wlen, wacc := wacc, wpos := wpos, a0 := a0
              cfg := { Config.reference with outCap := cap } }

/-- An open reader over bytes: `RIDX`, `RACC`, `RLEFT`, and `A0`. -/
def reading (bytes : List Byte) (ridx racc : Word) (rleft : BitVec 5) (a0 : Word) : State :=
  { idle with ropen := true, rlen := BitVec.ofNat 32 bytes.length, ridx := ridx, racc := racc, rleft := rleft
              inMem := Memory.writeFrom [] 0 bytes, a0 := a0 }

/-- A match buffer and a list of candidate distances. -/
def matching (elems : List Nat) (cands : List Word) : State :=
  { idle with dlen := BitVec.ofNat 32 elems.length, dataMem := Memory.writeFrom [] 0 elems
              candMem := Memory.writeFrom [] 0 cands }

/-- What a step shows of its next state; `none` when it has none. -/
def shows {α : Type} (o : Host.Outcome State Fault Refusal) (f : State → α) : Option α :=
  match o with
  | .next t => some (f t)
  | .fault _ => none
  | .refused _ => none

theorem exists_next {o : Host.Outcome State Fault Refusal} {p : State → Bool} (h : shows o p = some true) :
    ∃ t, o = .next t ∧ p t = true := by
  cases o with
  | next t => exact ⟨t, rfl, Option.some.inj h⟩
  | fault r => cases h
  | refused r => cases h

/-- The bytes `B` of section 4 of 95_test_vectors.md. -/
def bytesB : List Byte := [0xFF, 0xF7, 0xE6, 0x55]

/-! ## Well-formedness -/

theorem test_wf_rejects_high_bits : legalWord 0x80000020 = false := by decide
theorem test_wf_rejects_unlisted_opcode :
    legalWord 0x0000000F = false ∧ legalWord 0x0000001A = false ∧ legalWord 0x00000028 = false ∧
      legalWord 0x0000003B = false ∧ legalWord 0x00000042 = false ∧ legalWord 0 = false := by decide
theorem test_wf_accepts_range_ends :
    legalWord 0x10 = true ∧ legalWord 0x19 = true ∧ legalWord 0x20 = true ∧ legalWord 0x27 = true ∧
      legalWord 0x30 = true ∧ legalWord 0x3A = true ∧ legalWord 0x40 = true ∧ legalWord 0x41 = true := by decide
theorem test_wf_rejects_elements_without_bits : ¬ ({ Config.reference with elemW := 0 } : Config).wf := by decide
theorem test_wf_rejects_large_in : ¬ ({ Config.reference with inCap := 2 ^ 32 } : Config).wf := by decide
theorem test_wf_rejects_large_out : ¬ ({ Config.reference with outCap := 2 ^ 29 } : Config).wf := by decide
theorem test_wf_rejects_large_data : ¬ ({ Config.reference with dataCap := 2 ^ 32 } : Config).wf := by decide
theorem test_wf_rejects_large_cand : ¬ ({ Config.reference with candCap := 2 ^ 32 } : Config).wf := by decide
theorem test_wf_accepts_the_largest :
    ({ elemW := 1, inCap := 2 ^ 32 - 1, outCap := 2 ^ 29 - 1, dataCap := 2 ^ 32 - 1, candCap := 2 ^ 32 - 1 } :
      Config).wf := by decide
theorem test_wf_rejects_a_statement_beyond_the_space :
    act idle (.writeMem 63 (.input [1, 2])) = .fault (.outOfBounds .input 64) := rfl
theorem test_wf_rejects_an_element_too_wide :
    act idle (.writeMem 0 (.data [255, 256])) = .fault (.elementTooWide 0 256) := rfl
theorem test_wf_rejects_a_read_beyond_the_space :
    act idle (.readMem .cand 16) = .fault (.outOfBounds .cand 16) := rfl
theorem test_wf_rejects_a_field_too_wide :
    (Item.field 25 0).wf = false ∧ (Item.field 0 0).wf = false ∧ (Item.field 3 8).wf = false := by decide

/-! ## Decoding (30_encoding.md R73, R74) -/

theorem test_decode_field_logic :
    decode 0b00000000000000000000000000010000 = .ok .bwNew ∧
      decode 0b00000000000000000000000000010001 = .ok .bwNewu ∧
      decode 0b00000000000000000000000000010010 = .ok .bwMask ∧
      decode 0b00000000000000000000000000010011 = .ok .bwPow2 ∧
      decode 0b00000000000000000000000000010100 = .ok .tbvNew ∧
      decode 0b00000000000000000000000000010101 = .ok .tbvNewc ∧
      decode 0b00000000000000000000000000010110 = .ok .tbvRevd ∧
      decode 0b00000000000000000000000000010111 = .ok .tbvRev ∧
      decode 0b00000000000000000000000000011000 = .ok .tbvEq ∧
      decode 0b00000000000000000000000000011001 = .ok .npot := by decide
theorem test_decode_writer :
    decode 0b00000000000000000000000000100000 = .ok .wNew ∧
      decode 0b00000000000000000000000000100001 = .ok .wPush ∧
      decode 0b00000000000000000000000000100010 = .ok .wPbool ∧
      decode 0b00000000000000000000000000100011 = .ok .wPbyte ∧
      decode 0b00000000000000000000000000100100 = .ok .wPnib ∧
      decode 0b00000000000000000000000000100101 = .ok .wAlign ∧
      decode 0b00000000000000000000000000100110 = .ok .wBitcnt ∧
      decode 0b00000000000000000000000000100111 = .ok .wFin := by decide
theorem test_decode_reader :
    decode 0b00000000000000000000000000110000 = .ok .rNew ∧
      decode 0b00000000000000000000000000110001 = .ok .rBool ∧
      decode 0b00000000000000000000000000110010 = .ok .rNib ∧
      decode 0b00000000000000000000000000110011 = .ok .rByte ∧
      decode 0b00000000000000000000000000110100 = .ok .rBits ∧
      decode 0b00000000000000000000000000110101 = .ok .rPeek ∧
      decode 0b00000000000000000000000000110110 = .ok .rAdv ∧
      decode 0b00000000000000000000000000110111 = .ok .rAlign ∧
      decode 0b00000000000000000000000000111000 = .ok .rNxbyte ∧
      decode 0b00000000000000000000000000111001 = .ok .rNxarr ∧
      decode 0b00000000000000000000000000111010 = .ok .rNxslc := by decide
theorem test_decode_match_unit :
    decode 0b00000000000000000000000001000000 = .ok .mLen ∧
      decode 0b00000000000000000000000001000001 = .ok .mFind := by decide
/-- X1. -/
theorem test_decode_rejects :
    decode 0x00000000 = .error .unlistedOpcode ∧ decode 0x0000001A = .error .unlistedOpcode ∧
      decode 0x00000028 = .error .unlistedOpcode ∧ decode 0x0000003B = .error .unlistedOpcode ∧
      decode 0x00000042 = .error .unlistedOpcode ∧ decode 0x000000FF = .error .unlistedOpcode ∧
      decode 0x00000120 = .error .highBitsNotZero ∧ decode 0x80000020 = .error .highBitsNotZero := by decide
theorem test_decode_table_word :
    decodeTableWord 32 0x41 = some .mFind ∧ decodeTableWord 8 0x20 = some .wNew ∧
      decodeTableWord 32 0x120 = none ∧ decodeTableWord 40 0x100000020 = none := by decide
theorem test_fetch_word_runs_first :
    shows (step (State.reset.withFetchWord 32 0x20)) (fun t => (t.wopen, stWord t, t.queue)) =
      some (true, 0x5, []) := by decide

/-! ## Field logic (vectors F1 to F9) -/

theorem test_bwNew_value : shows (exec .bwNew { idle with a0 := 24 }) (fun t => (t.r0, stWord t)) = some (24, 0x1) := by
  decide
theorem test_bwNew_no_value :
    shows (exec .bwNew { idle with a0 := 0x108 }) (fun t => (t.r0, stWord t)) = some (0xDEAD, 0) := by decide
theorem test_bwNewu_value : shows (exec .bwNewu { idle with a0 := 1 }) (fun t => (t.r0, stWord t)) = some (1, 0x1) := by
  decide
theorem test_bwNewu_fault :
    shows (exec .bwNewu { idle with a0 := 25 }) (fun t => (t.r0, stWord t)) = some (0xDEAD, 0x202) := by decide
theorem test_bwMask_24 : shows (exec .bwMask { idle with a0 := 24 }) (fun t => t.r0) = some 0x00FFFFFF := by decide
theorem test_bwMask_fault : shows (exec .bwMask { idle with a0 := 0 }) (fun t => stWord t) = some 0x202 := by decide
theorem test_bwPow2_24 : shows (exec .bwPow2 { idle with a0 := 24 }) (fun t => t.r0) = some 0x01000000 := by decide
theorem test_bwPow2_1 : shows (exec .bwPow2 { idle with a0 := 1 }) (fun t => t.r0) = some 2 := by decide
theorem test_tbvNew_keeps_24_bits :
    shows (exec .tbvNew { idle with a0 := 8, a1 := 0x123456AB }) (fun t => t.r0) = some 0x083456AB := by decide
theorem test_tbvNew_not_fitting :
    shows (exec .tbvNew { idle with a0 := 4, a1 := 0xFF }) (fun t => t.r0) = some 0x040000FF := by decide
theorem test_tbvNewc_full_width_test :
    shows (exec .tbvNewc { idle with a0 := 24, a1 := 0x01000000 }) (fun t => (t.r0, stWord t)) = some (0xDEAD, 0) := by
  decide
theorem test_tbvNewc_value :
    shows (exec .tbvNewc { idle with a0 := 4, a1 := 0xF }) (fun t => (t.r0, stWord t)) = some (0x0400000F, 1) := by decide
theorem test_tbvRevd_16_bits :
    shows (exec .tbvRevd { idle with a0 := 0x100000B4 }) (fun t => (t.r0, t.a0)) = some (0x10002D00, 0x100000B4) := by
  decide
theorem test_tbvRevd_tag_25 :
    shows (exec .tbvRevd { idle with a0 := 0x19000001 }) (fun t => (t.r0, stWord t)) = some (0xDEAD, 0x202) := by decide
theorem test_tbvRev_not_fitting :
    shows (exec .tbvRev { idle with a0 := 0x040000F1 }) (fun t => (t.a0, t.r0)) = some (0x04000008, 0xDEAD) := by decide
theorem test_tbvRev_24_bits :
    shows (exec .tbvRev { idle with a0 := 0x18ABCDEF }) (fun t => t.a0) = some 0x18F7B3D5 := by decide
theorem test_tbvEq_ignores_the_tags :
    shows (exec .tbvEq { idle with a0 := 0x04000005, a1 := 0x08000005 }) (fun t => t.r0) = some 1 := by decide
theorem test_tbvEq_compares_24_bits :
    shows (exec .tbvEq { idle with a0 := 0x040000F5, a1 := 0x04000005 }) (fun t => t.r0) = some 0 := by decide
theorem test_npot_tie_goes_up :
    shows (exec .npot { idle with a0 := 12 }) (fun t => t.r0) = some 16 ∧
      shows (exec .npot { idle with a0 := 11 }) (fun t => t.r0) = some 8 := by decide
theorem test_npot_largest :
    shows (exec .npot { idle with a0 := 0xBFFFFFFF }) (fun t => t.r0) = some 0x80000000 ∧
      shows (exec .npot { idle with a0 := 0xC0000000 }) (fun t => (t.r0, stWord t)) = some (0xDEAD, 0xB02) := by decide

/-! ## Writer (vectors W1 to W11, S5) -/

/-- W11. -/
theorem test_wNew_drops_the_writer :
    shows (exec .wNew (writing 64 1 0x0A 4 0)) (fun t => (t.wlen, t.wacc, t.wpos, stWord t)) = some (0, 0, 0, 0x5) := by
  decide
/-- W1. -/
theorem test_wPush_widest :
    shows (exec .wPush (writing 64 0 0x7F 7 0x18ABCDEF)) (fun t => (t.wlen, t.wacc, t.wpos, t.outMem)) =
      some (3, 0x55, 7, [(0, 0xFF), (1, 0xF7), (2, 0xE6)]) := by decide
/-- W10 (a). -/
theorem test_wPush_overflow :
    shows (exec .wPush (writing 2 1 0x0A 4 0x0C000DEF)) (fun t => (t.wlen, t.wpos, t.outMem, stWord t)) =
      some (1, 4, [], 0x906) := by decide
/-- W8. -/
theorem test_wPbool_reads_bit_0 :
    shows (exec .wPbool (writing 64 0 0 0 0xFFFFFFFE)) (fun t => (t.wacc, t.wpos)) = some (0, 1) ∧
      shows (exec .wPbool (writing 64 0 0 1 3)) (fun t => (t.wacc, t.wpos)) = some (2, 2) := by decide
/-- S5. -/
theorem test_wPbyte_spans :
    shows (exec .wPbyte (writing 64 0 1 1 0xAB)) (fun t => (t.wlen, t.wacc, t.wpos, t.outMem)) =
      some (1, 1, 1, [(0, 0x57)]) := by decide
/-- W3. -/
theorem test_wPbyte_ignores_bit_8 :
    shows (exec .wPbyte (writing 64 1 0 0 0x1FF)) (fun t => (t.wlen, t.outMem)) = some (2, [(1, 0xFF)]) := by decide
/-- W7. -/
theorem test_wPnib_low_nibble :
    shows (exec .wPnib (writing 64 0 0x0F 4 0xFA)) (fun t => (t.wlen, t.wpos, t.outMem)) =
      some (1, 0, [(0, 0xAF)]) := by decide
/-- W3. -/
theorem test_wAlign_flushes :
    shows (exec .wAlign (writing 64 0 5 3 0)) (fun t => (t.wlen, t.wacc, t.wpos, t.outMem)) =
      some (1, 0, 0, [(0, 5)]) := by decide
/-- W10 (c). -/
theorem test_wAlign_overflow :
    shows (exec .wAlign (writing 2 2 1 1 0)) (fun t => (t.wlen, t.wpos, stWord t)) = some (2, 1, 0x906) := by decide
/-- S5. -/
theorem test_wBitcnt : shows (exec .wBitcnt (writing 64 1 7 5 0)) (fun t => t.r0) = some 13 := by decide
/-- S5. -/
theorem test_wFin_flushes_and_closes :
    shows (exec .wFin (writing 64 1 7 5 0)) (fun t => (t.r0, t.wpos, stWord t, t.outMem)) =
      some (2, 0, 1, [(1, 7)]) := by decide
/-- W4. -/
theorem test_wFin_then_closed :
    shows (exec .wPbool { idle with a0 := 1 }) (fun t => stWord t) = some 0x302 := by decide

/-! ## Reader (vectors D1 to D14, P2) -/

/-- D8, with `IN_CAP = 64`. -/
theorem test_rNew_length :
    shows (exec .rNew { idle with a0 := 65 }) (fun t => (t.ropen, stWord t)) = some (false, 0xA02) ∧
      shows (exec .rNew { idle with a0 := 64 }) (fun t => (t.ropen, t.rlen, stWord t)) = some (true, 64, 0x9) := by decide
/-- D10. -/
theorem test_rNew_replaces :
    shows (exec .rNew (reading bytesB 2 7 3 1)) (fun t => (t.rlen, t.ridx, t.racc, t.rleft)) = some (1, 0, 0, 0) := by
  decide
/-- D14. -/
theorem test_rBool :
    shows (exec .rBool (reading [0x57, 0x07] 0 0 0 0)) (fun t => (t.r0, t.racc, t.rleft, t.ridx)) =
      some (1, 0x2B, 7, 1) := by decide
/-- D1. -/
theorem test_rBool_exhausted :
    shows (exec .rBool (reading bytesB 4 0 0 0)) (fun t => (t.r0, stWord t)) = some (0xDEAD, 8) := by decide
/-- D14. -/
theorem test_rNib :
    shows (exec .rNib (reading [0x57, 0x07] 2 3 7 0)) (fun t => (t.r0, t.racc, t.rleft)) = some (3, 0, 3) := by decide
/-- D14. -/
theorem test_rByte :
    shows (exec .rByte (reading [0x57, 0x07] 1 0x2B 7 0)) (fun t => (t.r0, t.racc, t.rleft, t.ridx)) =
      some (0xAB, 3, 7, 2) := by decide
/-- D12. -/
theorem test_rBits_fullest_accumulator :
    shows (exec .rBits (reading [0x80, 0x01, 0x02, 0x83] 1 0x40 7 24)) (fun t => (t.r0, t.racc, t.rleft, t.ridx)) =
      some (0x8100C0, 0x41, 7, 4) := by decide
/-- D8. -/
theorem test_rBits_width_before_no_value :
    shows (exec .rBits (reading [] 0 0 0 0)) (fun t => stWord t) = some 0x20A := by decide
/-- D3. -/
theorem test_rPeek_keeps_the_pulled_bytes :
    shows (exec .rPeek (reading bytesB 1 0x1F 5 20)) (fun t => (t.r0, t.racc, t.rleft, t.ridx, rbitpos t)) =
      some (0xCDEFF, 0x1CDEFF, 21, 3, 3) := by decide
/-- D2. -/
theorem test_rPeek_no_value :
    shows (exec .rPeek (reading bytesB 3 0 0 9)) (fun t => (t.ridx, t.rleft, stWord t)) = some (3, 0, 8) := by decide
/-- D9. -/
theorem test_rAdv :
    shows (exec .rAdv (reading bytesB 0 0 0 13)) (fun t => (t.r0, t.ridx, t.racc, t.rleft)) =
      some (0xDEAD, 2, 7, 3) := by decide
/-- D3. -/
theorem test_rAlign_keeps_whole_bytes :
    shows (exec .rAlign (reading bytesB 3 0x1CDEFF 21 0)) (fun t => (t.racc, t.rleft, rbitpos t)) =
      some (0xE6F7, 16, 8) := by decide
/-- D3. -/
theorem test_rNxbyte_from_the_buffer :
    shows (exec .rNxbyte (reading bytesB 3 0xE6F7 16 0)) (fun t => (t.r0, t.ridx, t.racc, t.rleft)) =
      some (0xF7, 2, 0, 0) := by decide
/-- D11. -/
theorem test_rNxbyte_no_value_aligns :
    shows (exec .rNxbyte (reading [0xA5] 1 0x52 7 0)) (fun t => (t.racc, t.rleft, stWord t)) = some (0, 0, 8) := by
  decide
/-- D4. -/
theorem test_rNxarr_after_a_peek :
    shows (exec .rNxarr (reading bytesB 3 0x1CDEFF 21 3)) (fun t => (t.r0, t.r1, t.ridx, t.racc, t.rleft)) =
      some (1, 3, 4, 0, 0) := by decide
/-- D4. -/
theorem test_rNxarr_of_nothing :
    shows (exec .rNxarr (reading bytesB 4 0 0 0)) (fun t => (t.r0, t.r1, stWord t)) = some (4, 0, 9) := by decide
/-- D5. -/
theorem test_rNxslc_no_value_aligns :
    shows (exec .rNxslc (reading bytesB 1 0x1F 5 4)) (fun t => (t.r0, t.racc, t.rleft, t.ridx, stWord t)) =
      some (0xDEAD, 0, 0, 1, 8) := by decide
/-- D13. -/
theorem test_rNxslc_huge :
    shows (exec .rNxslc (reading bytesB 0 0 0 0xFFFFFFFF)) (fun t => (t.ridx, stWord t)) = some (0, 8) := by decide

/-! ## Match unit (vectors S1 to S4, M1 to M7) -/

/-- S1. -/
theorem test_mLen_worked_example :
    shows (exec .mLen (withOperands (matching [1, 2, 3, 1, 2, 3, 9] []) 3 3 10 0 0 0)) (fun t => (t.r0, stWord t)) =
      some (3, 1) := by decide
/-- M1: the order of the checks. -/
theorem test_mLen_checks_in_order :
    shows (exec .mLen (withOperands (matching [1, 2, 3, 1, 2, 3, 9] []) 8 0 10 0 0 0)) (fun t => (t.r0, stWord t)) =
      some (0xDEAD, 0x502) ∧
    shows (exec .mLen (withOperands (matching [1, 2, 3, 1, 2, 3, 9] []) 0 0 5 0 0 0)) (fun t => stWord t) =
      some 0x602 := by decide
/-- S3 and M4's last but one row: first seen wins; the cut-off. -/
theorem test_mFind_first_seen_wins :
    shows (exec .mFind (withOperands (matching [0, 0, 0, 0, 0, 0] [1, 2]) 2 4 2 10 0 2))
      (fun t => (t.r0, t.r1, stWord t)) = some (4, 1, 1) ∧
    shows (exec .mFind (withOperands (matching [0, 0, 0, 0, 0, 0] [1, 0]) 2 3 2 3 0 2))
      (fun t => (t.r0, t.r1, stWord t)) = some (3, 1, 1) := by decide
/-- M5: a guaranteed prefix; and the total capped at `max_len`. -/
theorem test_mFind_guaranteed_prefix :
    shows (exec .mFind (withOperands (matching [1, 2, 3, 4, 1, 2, 3, 4, 1, 2, 9, 9] [4]) 4 5 3 100 2 1))
      (fun t => (t.r0, t.r1)) = some (5, 4) ∧
    shows (exec .mFind (withOperands (matching [1, 2, 3, 4, 1, 2, 3, 4, 1, 2, 9, 9] [4]) 4 2 0 100 2 1))
      (fun t => (t.r0, t.r1, stWord t)) = some (0xDEAD, 0xBEEF, 0) := by decide

/-! ## Witnesses: the hypotheses of each statement of Obligations.lean, met together, one line for each clause -/

/-- A faulted unit with a writer open and a command word waiting. -/
def faulted (c : Word) : State :=
  { writing 64 1 0 0 0 with stF := true, stCause := 6, queue := [.command c] }

/-- A reader in the middle of the bytes `B`, after three bits and a peek of 20 (vector D3). -/
def midStream : State := reading bytesB 3 0x1CDEFF 21 24

/-- The match buffer and the list of vector M6, with its first operands. -/
def m6 : State :=
  withOperands (matching [1, 1, 2, 1, 1, 1, 2, 1, 1, 2, 5] [1, 3, 4, 7]) 7 100 2 3 0 4

theorem witness_next {o : Host.Outcome State Fault Refusal} {P : State → Prop} [DecidablePred P]
    (h : shows o (fun t => decide (P t)) = some true) : ∃ t, o = .next t ∧ P t := by
  obtain ⟨t, e, ht⟩ := exists_next h
  exact ⟨t, e, of_decide_eq_true ht⟩

theorem witness_DecodeIsExact : Instr.wf .bwNew = true ∧ Instr.wf .mFind = true := by decide

theorem witness_StepRunsTheDecodedCommand :
    decode 0x41 = .ok .mFind ∧ ({ idle with queue := [.command 0x41] } : State).queue = [.command 0x41] := by decide

theorem witness_IllegalWordsRaiseIllegalCommand :
    ({ idle with queue := [.command 0x120] } : State).queue = [.command 0x120] ∧ idle.stF = false ∧
      legalWord 0x120 = false ∧ legalWord 0x1A = false := by decide

theorem witness_FaultedUnitRefusesEveryCommand :
    (faulted 0x120).stF = true ∧ (faulted 0x120).queue = [.command 0x120] ∧
      (faulted 0x27).stF = true ∧ (faulted 0x27).queue = [.command 0x27] := by decide

theorem witness_FatalFaultChangesOnlyStatus :
    ∃ t, exec .bwNewu { idle with a0 := 25 } = .next t ∧ idle.stF = false ∧ t.stF = true :=
  witness_next (by decide)

theorem witness_NoValueChangesOnlyTheFlag :
    (∃ t, exec .bwNew { idle with a0 := 25 } = .next t ∧ idle.stF = false ∧ t.stF = false ∧ t.stV = false) ∧
      ∃ t, exec .rNxslc (reading bytesB 1 0x1F 5 4) = .next t ∧ (reading bytesB 1 0x1F 5 4).stF = false ∧
        t.stF = false ∧ t.stV = false :=
  ⟨witness_next (by decide), witness_next (by decide)⟩

theorem witness_OnlyResetClearsAFault :
    (∃ t, step (faulted 0x20) = .next t ∧ (faulted 0x20).stF = true) ∧
      ∀ rest, (faulted 0x20).queue ≠ .reset :: rest :=
  ⟨witness_next (by decide), fun rest h => by cases h⟩

theorem witness_CommandsNeverStop : Inv midStream ∧ Inv (writing 2 2 1 1 0) ∧ Inv m6 := by
  refine ⟨?_, ?_, ?_⟩ <;> decide

theorem witness_RegistersTheUnitMayWrite :
    (∃ t, exec .tbvRev { idle with a0 := 0x04000003 } = .next t ∧ t.stV = true) ∧
      (∃ t, exec .mFind m6 = .next t ∧ t.stV = true) ∧ (∃ t, exec .rBool (reading [] 0 0 0 0) = .next t ∧ t.stV = false) ∧
      ({ idle with queue := [.writeReg 1 5] } : State).queue = [.writeReg 1 5] ∧
      ∃ t, step { idle with queue := [.writeReg 1 5] } = .next t ∧ t.r0 = 0xDEAD :=
  ⟨witness_next (by decide), witness_next (by decide), witness_next (by decide), rfl, witness_next (by decide)⟩

theorem witness_OnlyTheWriterStoresAndOnlyAtItsEnd :
    (∃ t, exec .wPush (writing 64 1 0x7F 7 0x18ABCDEF) = .next t ∧ t.stF = false) ∧
      0 < (writing 64 1 0x7F 7 0x18ABCDEF).wlen.toNat ∧
      (writing 64 1 0x7F 7 0x18ABCDEF).wlen.toNat + storedBytes .wPush (writing 64 1 0x7F 7 0x18ABCDEF) ≤ 4 :=
  ⟨witness_next (by decide), by decide, by decide⟩

theorem witness_RegisterPort :
    17 ≤ 17 ∧ ({ idle with queue := [.writeReg 2 7] } : State).queue = [.writeReg 2 7] ∧ 2 < 3 ∧
      ({ idle with queue := [.writeReg 3 7] } : State).queue = [.writeReg 3 7] ∧ 3 ≤ 3 ∧ 3 ≤ 9 ∧
      ({ idle with queue := [.writeReg 9 7] } : State).queue = [.writeReg 9 7] ∧ 3 ≤ 9 ∧ 9 ≤ 9 ∧
      ({ idle with queue := [.writeReg 10 7] } : State).queue = [.writeReg 10 7] ∧ 10 ≤ 10 ∧
      ({ idle with queue := [.readReg 0] } : State).queue = [.readReg 0] := by decide

theorem witness_HostMemoryStatementsWriteTheirCells :
    (({ idle with queue := [.writeMem 62 (.input [1, 2])] } : State).queue = [.writeMem 62 (.input [1, 2])] ∧
      62 + (CellList.input [1, 2]).count ≤ capacity idle.cfg .input ∧ badElement? idle.cfg (.input [1, 2]) = none ∧
      62 ≤ 63 ∧ 63 < 62 + (CellList.input [1, 2]).count) ∧
    (({ idle with queue := [.writeMem 63 (.data [255])] } : State).queue = [.writeMem 63 (.data [255])] ∧
      63 + (CellList.data [255]).count ≤ capacity idle.cfg .data ∧ badElement? idle.cfg (.data [255]) = none) ∧
    (({ idle with queue := [.writeMem 15 (.cand [9])] } : State).queue = [.writeMem 15 (.cand [9])] ∧
      15 + (CellList.cand [9]).count ≤ capacity idle.cfg .cand ∧ badElement? idle.cfg (.cand [9]) = none) ∧
    (({ idle with queue := [.writeMem 64 (.output [])] } : State).queue = [.writeMem 64 (.output [])] ∧
      64 + (CellList.output []).count ≤ capacity idle.cfg .output ∧ badElement? idle.cfg (.output []) = none) := by
  decide

theorem witness_ResetEventClearsAllButMemory :
    ({ faulted 0 with queue := [.reset, .command 0x20] } : State).queue = .reset :: [.command 0x20] := by decide

theorem witness_EveryStepKeepsTheInvariants :
    (Inv { midStream with queue := [.command 0x37] } ∧
      ∃ t, step { midStream with queue := [.command 0x37] } = .next t ∧ t.stV = true) ∧
    Inv { m6 with queue := [.writeMem 0 (.data [255])] } ∧
      ∃ t, step { m6 with queue := [.writeMem 0 (.data [255])] } = .next t ∧ t.stV = false :=
  ⟨⟨by decide, witness_next (by decide)⟩, by decide, witness_next (by decide)⟩

theorem coherent_midStream : Coherent midStream := by
  unfold Coherent
  decide

theorem witness_EveryCommandKeepsTheBufferedBits :
    Inv midStream ∧ Coherent midStream ∧ ∃ t, exec .rBits midStream = .next t ∧ t.stV = true :=
  ⟨by decide, coherent_midStream, witness_next (by decide)⟩

theorem witness_BwNewGivesTheWidthOrNoValue :
    ({ idle with a0 := 24 } : State).stF = false ∧ ({ idle with a0 := 25 } : State).stF = false := by decide

theorem witness_BwNewuChecksAlways :
    ({ idle with a0 := 1 } : State).stF = false ∧ ({ idle with a0 := 0 } : State).stF = false := by decide

theorem witness_BwMaskAndBwPow2 :
    (({ idle with a0 := 1 } : State).stF = false ∧ 1 ≤ (1 : Word).toNat ∧ (1 : Word).toNat ≤ 24) ∧
      (({ idle with a0 := 24 } : State).stF = false ∧ 1 ≤ (24 : Word).toNat ∧ (24 : Word).toNat ≤ 24) ∧
      ({ idle with a0 := 25 } : State).stF = false ∧ ¬(1 ≤ (25 : Word).toNat ∧ (25 : Word).toNat ≤ 24) := by decide

theorem witness_TbvNewTagsAndMasksTo24Bits :
    ({ idle with a0 := 24, a1 := 0xFFFFFFFF } : State).stF = false ∧ ({ idle with a0 := 0 } : State).stF = false := by
  decide

theorem witness_TbvNewcRejectsWideValues :
    ({ idle with a0 := 24, a1 := 0x01000000 } : State).stF = false ∧
      ({ idle with a0 := 24, a1 := 0x00FFFFFF } : State).stF = false ∧
      ({ idle with a0 := 25 } : State).stF = false := by decide

theorem witness_BitrevReversesTheBits :
    (1 ≤ 24 ∧ 24 ≤ 24 ∧ 2 ^ 24 - 1 < 2 ^ 24 ∧ 23 < 24) ∧ 1 ≤ 1 ∧ 1 ≤ 24 ∧ 1 < 2 ^ 1 ∧ 0 < 1 := by decide

theorem witness_TbvReversals :
    (({ idle with a0 := 0x18000001 } : State).stF = false ∧
      1 ≤ (0x18000001 : Word).toNat / 2 ^ 24 ∧ (0x18000001 : Word).toNat / 2 ^ 24 ≤ 24) ∧
    (({ idle with a0 := 0x19000001 } : State).stF = false ∧
      ¬(1 ≤ (0x19000001 : Word).toNat / 2 ^ 24 ∧ (0x19000001 : Word).toNat / 2 ^ 24 ≤ 24)) ∧
    Instr.tbvRevd ≠ .tbvRev ∧ ∃ t, exec .tbvRevd { idle with a0 := 0x18000001 } = .next t ∧ t.stV = true :=
  ⟨by decide, by decide, by decide, witness_next (by decide)⟩

theorem witness_ReversingTwiceGivesTheOriginal :
    ({ idle with a0 := 0x100000B4 } : State).stF = false ∧ tbvValid 0x100000B4 = true ∧ tbvFitting 0x100000B4 = true ∧
      tbvValid 0x040000F1 = true ∧ tbvFitting 0x040000F1 = false := by decide

theorem witness_TbvEqComparesPayloads :
    ({ idle with a0 := 0x04000005, a1 := 0x08000005 } : State).stF = false := by decide

theorem witness_NpotRoundsToTheNearerPowerOfTwo :
    (({ idle with a0 := 0 } : State).stF = false ∧ ({ idle with a0 := 0 } : State).a0 = 0) ∧
    (({ idle with a0 := 12 } : State).stF = false ∧
      (12 : Word).toNat ≤ 2 ^ 4 ∧ 2 ^ 4 < 2 * (12 : Word).toNat ∧ (12 : Word).toNat < 0xC0000000) ∧
    (({ idle with a0 := 0xBFFFFFFF } : State).stF = false ∧ (0xBFFFFFFF : Word).toNat ≤ 2 ^ 32 ∧
      2 ^ 32 < 2 * (0xBFFFFFFF : Word).toNat ∧ (0xBFFFFFFF : Word).toNat < 0xC0000000) ∧
    ({ idle with a0 := 0xC0000000 } : State).stF = false ∧ 0xC0000000 ≤ (0xC0000000 : Word).toNat := by decide

theorem witness_FieldLogicFrame :
    Instr.family .tbvRev = .fieldLogic ∧ (∃ t, exec .tbvRev { idle with a0 := 0x04000003 } = .next t ∧ t.stV = true) ∧
      Instr.family .npot = .fieldLogic ∧ ∃ t, exec .npot { idle with a0 := 6 } = .next t ∧ t.stV = true :=
  ⟨rfl, witness_next (by decide), rfl, witness_next (by decide)⟩

theorem witness_WNewOpensAnEmptyWriter : (writing 64 1 0x0A 4 0).stF = false := by decide

theorem witness_PushesAppendOrRaise :
    (pushField .wPush { idle with a0 := 0x18ABCDEF } = some (24, 0xABCDEF) ∧ idle.cfg.wf ∧ WriterInv idle ∧
      idle.stF = false ∧ idle.wopen = false) ∧
    (pushField .wPush (writing 2 1 0 0 0x190000FF) = some (25, 0xFF) ∧ WriterInv (writing 2 1 0 0 0x190000FF) ∧
      (writing 2 1 0 0 0x190000FF).cfg.wf ∧ (writing 2 1 0 0 0x190000FF).wopen = true ∧ ¬(1 ≤ 25 ∧ 25 ≤ 24)) ∧
    (pushField .wPush (writing 2 1 0x0A 4 0x0C000DEF) = some (12, 0xDEF) ∧ WriterInv (writing 2 1 0x0A 4 0x0C000DEF) ∧
      (writing 2 1 0x0A 4 0x0C000DEF).stF = false ∧ 2 < 1 + (4 + 12) / 8) ∧
    pushField .wPnib (writing 2 1 0x0A 4 0xD) = some (4, 0xD) ∧ WriterInv (writing 2 1 0x0A 4 0xD) ∧
      (writing 2 1 0x0A 4 0xD).wopen = true ∧ 1 + (4 + 4) / 8 ≤ 2 := by decide

theorem witness_PushesAppendTheirBits :
    pushField .wPush (writing 64 0 0x7F 7 0x18ABCDEF) = some (24, 0xABCDEF) ∧
      (writing 64 0 0x7F 7 0x18ABCDEF).cfg.wf ∧ WriterInv (writing 64 0 0x7F 7 0x18ABCDEF) ∧
      (writing 64 0 0x7F 7 0x18ABCDEF).stF = false ∧ (writing 64 0 0x7F 7 0x18ABCDEF).wopen = true ∧
      1 ≤ 24 ∧ 24 ≤ 24 ∧ 0 + (7 + 24) / 8 ≤ 64 := by decide

theorem witness_WAlignFlushesAPartialByte :
    (writing 2 2 1 1 0).stF = false ∧ (writing 2 1 1 1 0).stF = false ∧ (writing 2 2 0 0 0).stF = false := by decide

theorem witness_WFinFlushesAndCloses :
    (writing 2 2 1 1 0).stF = false ∧ (writing 2 1 1 1 0).stF = false ∧ (writing 2 2 0 0 0).stF = false := by decide

theorem witness_FlushPadsWithZeros :
    ((writing 2 1 1 1 0).cfg.wf ∧ WriterInv (writing 2 1 1 1 0) ∧ (writing 2 1 1 1 0).stF = false ∧
      (writing 2 1 1 1 0).wopen = true ∧ (writing 2 1 1 1 0).wlen.toNat + 1 ≤ (writing 2 1 1 1 0).cfg.outCap) ∧
    WriterInv (writing 2 2 0 0 0) ∧ (writing 2 2 0 0 0).wpos.toNat = 0 := by decide

theorem witness_WBitcntCountsTheBits :
    ((writing 64 1 7 5 0).cfg.wf ∧ WriterInv (writing 64 1 7 5 0) ∧ (writing 64 1 7 5 0).stF = false ∧
      (writing 64 1 7 5 0).wopen = true) ∧ WriterInv idle ∧ idle.stF = false ∧ idle.wopen = false := by decide

theorem witness_SessionsAreCheckedFirst :
    idle.stF = false ∧ (idle.wopen = false ∧ Instr.family .wPush = .writer ∧ Instr.wPush ≠ .wNew) ∧
      (idle.ropen = false ∧ Instr.family .rBits = .reader ∧ Instr.rBits ≠ .rNew) ∧
      (reading [] 0 0 0 25).stF = false ∧ (reading [] 0 0 0 25).ropen = true ∧
        ¬(1 ≤ (reading [] 0 0 0 25).a0.toNat ∧ (reading [] 0 0 0 25).a0.toNat ≤ 24) := by decide

theorem witness_WriterFrame :
    Instr.family .wPush = .writer ∧ (∃ t, exec .wPush (writing 64 1 0x7F 7 0x18ABCDEF) = .next t ∧ t.stV = true) ∧
      Instr.family .wBitcnt = .writer ∧ ∃ t, exec .wBitcnt (writing 64 1 7 5 0) = .next t ∧ t.stV = true :=
  ⟨rfl, witness_next (by decide), rfl, witness_next (by decide)⟩

theorem witness_RNewOpensAReader :
    ({ idle with a0 := 64 } : State).stF = false ∧ ({ idle with a0 := 65 } : State).stF = false := by decide

theorem coherent_fresh (a0 : Word) : Coherent (reading bytesB 0 0 0 a0) := fun _ hj => absurd hj (Nat.not_lt_zero _)

/-- D1, after `R.BITS 7`. -/
theorem coherent_afterSeven : Coherent (reading bytesB 1 1 1 24) := by
  unfold Coherent
  decide

theorem witness_BitReadsReturnTheFieldAtThePosition :
    (bitReadWidth .rBits (reading bytesB 1 1 1 24) = some 24 ∧ ReaderInv (reading bytesB 1 1 1 24) ∧
      Coherent (reading bytesB 1 1 1 24) ∧ (reading bytesB 1 1 1 24).ropen = true ∧
      rbitpos (reading bytesB 1 1 1 24) + 24 ≤ 8 * (reading bytesB 1 1 1 24).rlen.toNat) ∧
    (bitReadWidth .rByte (reading bytesB 3 0 0 0) = some 8 ∧ ReaderInv (reading bytesB 3 0 0 0) ∧
      Coherent (reading bytesB 3 0 0 0) ∧ (reading bytesB 3 0 0 0).stF = false ∧
      (reading bytesB 3 0 0 0).ropen = true ∧
      rbitpos (reading bytesB 3 0 0 0) + 8 = 8 * (reading bytesB 3 0 0 0).rlen.toNat) ∧
    (bitReadWidth .rBits midStream = some 24 ∧ ReaderInv midStream ∧ Coherent midStream ∧ midStream.stF = false ∧
      midStream.ropen = true ∧ rbitpos midStream + 24 ≤ 8 * midStream.rlen.toNat) ∧
    (bitReadWidth .rBits (reading [] 0 0 0 25) = some 25 ∧ ReaderInv (reading [] 0 0 0 25) ∧
      Coherent (reading [] 0 0 0 25) ∧ (reading [] 0 0 0 25).ropen = true ∧ ¬(1 ≤ 25 ∧ 25 ≤ 24)) ∧
    (bitReadWidth .rBool (reading [] 0 0 0 0) = some 1 ∧ ReaderInv (reading [] 0 0 0 0) ∧
      Coherent (reading [] 0 0 0 0) ∧
      8 * (reading [] 0 0 0 0).rlen.toNat < rbitpos (reading [] 0 0 0 0) + 1) ∧
    (bitReadWidth .rNib idle = some 4 ∧ ReaderInv idle ∧ Coherent idle ∧ idle.stF = false ∧ idle.ropen = false) :=
  ⟨⟨by decide, by decide, coherent_afterSeven, by decide, by decide⟩,
    ⟨by decide, by decide, fun _ hj => absurd hj (Nat.not_lt_zero _), by decide, by decide, by decide⟩,
    ⟨by decide, by decide, coherent_midStream, by decide, by decide, by decide⟩,
    ⟨by decide, by decide, fun _ hj => absurd hj (Nat.not_lt_zero _), by decide, by decide⟩,
    ⟨by decide, by decide, fun _ hj => absurd hj (Nat.not_lt_zero _), by decide⟩,
    ⟨by decide, by decide, fun _ hj => absurd hj (Nat.not_lt_zero _), by decide, by decide⟩⟩

theorem witness_PeekReturnsTheFieldAndStays :
    (ReaderInv midStream ∧ Coherent midStream ∧ midStream.stF = false ∧ midStream.ropen = true ∧
      1 ≤ midStream.a0.toNat ∧ midStream.a0.toNat ≤ 24 ∧
      rbitpos midStream + midStream.a0.toNat ≤ 8 * midStream.rlen.toNat) ∧
    (ReaderInv (reading bytesB 3 0 0 8) ∧ Coherent (reading bytesB 3 0 0 8) ∧ (reading bytesB 3 0 0 8).ropen = true ∧
      rbitpos (reading bytesB 3 0 0 8) + 8 = 8 * (reading bytesB 3 0 0 8).rlen.toNat) ∧
    (ReaderInv (reading bytesB 4 0 0 1) ∧ Coherent (reading bytesB 4 0 0 1) ∧
      8 * (reading bytesB 4 0 0 1).rlen.toNat < rbitpos (reading bytesB 4 0 0 1) + 1) ∧
    (ReaderInv (reading bytesB 0 0 0 0) ∧ Coherent (reading bytesB 0 0 0 0) ∧
      (reading bytesB 0 0 0 0).ropen = true ∧ ¬(1 ≤ (reading bytesB 0 0 0 0).a0.toNat)) ∧
    (ReaderInv idle ∧ Coherent idle ∧ idle.stF = false ∧ idle.ropen = false) :=
  ⟨⟨by decide, coherent_midStream, by decide, by decide, by decide, by decide, by decide⟩,
    ⟨by decide, fun _ hj => absurd hj (Nat.not_lt_zero _), by decide, by decide⟩,
    ⟨by decide, fun _ hj => absurd hj (Nat.not_lt_zero _), by decide⟩,
    ⟨by decide, coherent_fresh 0, by decide, by decide⟩,
    ⟨by decide, fun _ hj => absurd hj (Nat.not_lt_zero _), by decide, by decide⟩⟩

theorem witness_PeekingTwiceAndThenReading :
    (ReaderInv midStream ∧ midStream.stF = false ∧ midStream.ropen = true ∧ 1 ≤ midStream.a0.toNat ∧
      midStream.a0.toNat ≤ 24) ∧
    ReaderInv (reading bytesB 4 0 0 1) ∧ (reading bytesB 4 0 0 1).stF = false ∧
      (reading bytesB 4 0 0 1).ropen = true ∧ 1 ≤ (reading bytesB 4 0 0 1).a0.toNat := by decide

theorem witness_AdvanceIsAReadWithoutResult :
    (ReaderInv midStream ∧ midStream.stF = false ∧ midStream.ropen = true ∧ 1 ≤ midStream.a0.toNat ∧
      midStream.a0.toNat ≤ 24) ∧
    (ReaderInv (reading bytesB 0 0 0 25) ∧ (reading bytesB 0 0 0 25).ropen = true ∧
      ¬((reading bytesB 0 0 0 25).a0.toNat ≤ 24)) ∧
    ReaderInv idle ∧ idle.stF = false ∧ idle.ropen = false := by decide

theorem witness_RAlignDropsThePartialByte :
    (ReaderInv midStream ∧ midStream.stF = false ∧ midStream.ropen = true) ∧
      ReaderInv idle ∧ idle.stF = false ∧ idle.ropen = false := by decide

theorem witness_RangeReadsTakeBytesAtThePosition :
    (ReaderInv { midStream with a0 := 3 } ∧ midStream.stF = false ∧ midStream.ropen = true ∧
      (rbitpos midStream + 7) / 8 + 3 ≤ midStream.rlen.toNat) ∧
    (ReaderInv { midStream with a0 := 4 } ∧ midStream.rlen.toNat < (rbitpos midStream + 7) / 8 + 4) ∧
    ReaderInv idle ∧ idle.stF = false ∧ idle.ropen = false := by decide

theorem witness_NextByteReadReturnsTheByte :
    (ReaderInv midStream ∧ midStream.stF = false ∧ midStream.ropen = true ∧
      (rbitpos midStream + 7) / 8 + 1 ≤ midStream.rlen.toNat) ∧
    (ReaderInv (reading bytesB 4 0 0 0) ∧
      (reading bytesB 4 0 0 0).rlen.toNat < (rbitpos (reading bytesB 4 0 0 0) + 7) / 8 + 1) ∧
    ReaderInv idle ∧ idle.stF = false ∧ idle.ropen = false := by decide

theorem witness_ReaderFrame :
    Instr.family .rNxslc = .reader ∧ (∃ t, exec .rNxslc (reading bytesB 1 0x1F 5 3) = .next t ∧ t.stV = true) ∧
      Instr.family .rNew = .reader ∧ ∃ t, exec .rNew { idle with a0 := 4 } = .next t ∧ t.stV = true :=
  ⟨rfl, witness_next (by decide), rfl, witness_next (by decide)⟩

theorem witness_IterationGivesTheRemainingBits :
    ReaderInv midStream ∧ Coherent midStream ∧ midStream.stF = false ∧ midStream.ropen = true ∧ avail midStream < 30 :=
  ⟨by decide, coherent_midStream, by decide, by decide, by decide⟩

theorem witness_RoundTripOfFields :
    Inv idle ∧ idle.stF = false ∧
      (∀ f ∈ [(1, 1), (24, 0xFEDCBA)], (Item.field f.1 f.2).wf = true) ∧
      (([(1, 1), (24, 0xFEDCBA)].map Prod.fst).sum + 7) / 8 ≤ idle.cfg.outCap ∧
      (([(1, 1), (24, 0xFEDCBA)].map Prod.fst).sum + 7) / 8 ≤ idle.cfg.inCap := by
  refine ⟨?_, ?_, ?_, ?_, ?_⟩ <;> decide

theorem witness_RoundTripWithAlignments :
    Inv idle ∧ idle.stF = false ∧ (∀ x ∈ [Item.field 3 5, .align, .raw [0x48, 0x69]], x.wf = true) ∧
      ∃ t, perform idle (writeStream [.field 3 5, .align, .raw [0x48, 0x69]]) = .next t ∧
        t.stF = false ∧ t.r0.toNat ≤ t.cfg.inCap :=
  ⟨by decide, by decide, by decide, witness_next (by decide)⟩

theorem witness_TheFinishedBufferDependsOnTheCommandsAlone :
    Inv idle ∧ Inv midStream ∧ idle.stF = false ∧ midStream.stF = false ∧
      (∀ c ∈ [(Instr.wPbool, (1 : Word)), (.wPush, 0x03000005)], c.1.family = .writer) ∧
      (∃ t, perform idle (issueOf .wNew :: writerCalls [(.wPbool, 1), (.wPush, 0x03000005)] ++ [issueOf .wFin]) =
        .next t ∧ t.stF = false) ∧
      ∃ t, perform midStream (issueOf .wNew :: writerCalls [(.wPbool, 1), (.wPush, 0x03000005)] ++ [issueOf .wFin]) =
        .next t ∧ t.stF = false :=
  ⟨by decide, by decide, by decide, by decide, by decide, witness_next (by decide), witness_next (by decide)⟩

theorem witness_MLenMeasuresTheMatch :
    (({ idle with dlen := 65 } : State).stF = false ∧ idle.cfg.dataCap < (65 : Word).toNat) ∧
    ((withOperands m6 12 1 1 0 0 0).dlen.toNat ≤ m6.cfg.dataCap ∧ m6.dlen.toNat < (12 : Word).toNat) ∧
    ((withOperands m6 11 0 1 0 0 0).dlen.toNat ≤ m6.cfg.dataCap ∧ (11 : Word).toNat ≤ m6.dlen.toNat ∧
      (withOperands m6 11 0 1 0 0 0).a1 = 0) ∧
    ((withOperands m6 1 2 1 0 0 0).a0.toNat < (withOperands m6 1 2 1 0 0 0).a1.toNat) ∧
    (withOperands m6 7 7 9 0 0 0).stF = false ∧ (withOperands m6 7 7 9 0 0 0).a1 ≠ 0 ∧
      (withOperands m6 7 7 9 0 0 0).a1.toNat ≤ (withOperands m6 7 7 9 0 0 0).a0.toNat := by decide

/-- M6: the additional lengths are 0 and 3 for the first two candidates; the cut-off is at 3. -/
theorem witness_MFindReturnsTheFirstLongest :
    m6.stF = false ∧ m6.dlen.toNat ≤ m6.cfg.dataCap ∧ m6.a5.toNat ≤ m6.cfg.candCap ∧ m6.a4.toNat ≤ m6.a1.toNat ∧
      m6.a4.toNat ≤ m6.a3.toNat ∧ m6.a0.toNat + m6.a4.toNat ≤ m6.dlen.toNat ∧ 1 < m6.a5.toNat ∧ 1 ≤ 1 ∧
      (∀ i, i < 2 → m6.candCell i ≠ 0 ∧ (m6.candCell i).toNat ≤ m6.a0.toNat + m6.a4.toNat ∧
        IsMatchLength m6 (m6.a0.toNat + m6.a4.toNat) (m6.candCell i).toNat (m6.a1.toNat - m6.a4.toNat) (3 * i)) ∧
      (∀ i, i < 2 → 3 * i ≤ 3 * 1) ∧ (∀ i, i < 1 → 3 * i < 3 * 1) ∧
      (∀ i, i < 1 → 3 * i < m6.a3.toNat - m6.a4.toNat) ∧ m6.a3.toNat - m6.a4.toNat ≤ 3 * 1 := by
  unfold IsMatchLength
  decide

theorem witness_MFindChecksBeforeTheScan :
    (m6.stF = false ∧ ({ m6 with a5 := 17 } : State).cfg.candCap < ({ m6 with a5 := 17 } : State).a5.toNat) ∧
    (m6.dlen.toNat ≤ m6.cfg.dataCap ∧ m6.a5.toNat ≤ m6.cfg.candCap ∧
      ({ m6 with a4 := 4 } : State).a3.toNat < ({ m6 with a4 := 4 } : State).a4.toNat) ∧
    m6.a4.toNat ≤ m6.a1.toNat ∧ m6.a4.toNat ≤ m6.a3.toNat ∧ ({ m6 with a5 := 0 } : State).a5 = 0 := by decide

/-- M4: `CAND = 1, 0` and `CAND = 1, 3` at cursor 2 with the cut-off at 10, and cursor 7 beyond the end. -/
theorem witness_MFindRaisesAtTheCandidateReached :
    (∀ c ∈ [(0 : Word), 3],
      let s := withOperands (matching [0, 0, 0, 0, 0, 0] [1, c]) 2 4 2 10 0 2
      s.stF = false ∧ s.dlen.toNat ≤ s.cfg.dataCap ∧ s.a5.toNat ≤ s.cfg.candCap ∧ s.a4.toNat ≤ s.a1.toNat ∧
        s.a4.toNat ≤ s.a3.toNat ∧ 1 < s.a5.toNat ∧
        (∀ i, i < 1 → s.a0.toNat + s.a4.toNat ≤ s.dlen.toNat ∧ s.candCell i ≠ 0 ∧
          (s.candCell i).toNat ≤ s.a0.toNat + s.a4.toNat ∧ 4 < s.a3.toNat - s.a4.toNat ∧
          IsMatchLength s (s.a0.toNat + s.a4.toNat) (s.candCell i).toNat (s.a1.toNat - s.a4.toNat) 4) ∧
        s.a0.toNat + s.a4.toNat ≤ s.dlen.toNat ∧
        (s.candCell 1 = 0 ∨ s.a0.toNat + s.a4.toNat < (s.candCell 1).toNat)) ∧
    (let s := withOperands (matching [0, 0, 0, 0, 0, 0] [1]) 7 4 0 10 0 1;
      s.stF = false ∧ 0 < s.a5.toNat ∧ s.dlen.toNat < s.a0.toNat + s.a4.toNat) := by
  unfold IsMatchLength
  refine ⟨?_, by decide⟩
  intro c hc
  rcases List.mem_pair.1 hc with rfl | rfl <;> decide

theorem witness_MFindResultBounds :
    ∃ t, exec .mFind m6 = .next t ∧ m6.stF = false ∧ t.stV = true :=
  witness_next (by decide)

/-- M5: the guaranteed prefix of two elements holds at distance 4. -/
theorem witness_MFindReturnsATrueMatch :
    let s := withOperands (matching [1, 2, 3, 4, 1, 2, 3, 4, 1, 2, 9, 9] [4]) 4 100 3 100 2 1;
    (∃ t, exec .mFind s = .next t ∧ s.stF = false ∧ t.stV = true) ∧
      ∀ i, i < s.a5.toNat → (s.candCell i).toNat ≤ s.a0.toNat ∧
        ∀ n, n < s.a4.toNat → s.dataCell (s.a0.toNat + n) = s.dataCell (s.a0.toNat - (s.candCell i).toNat + n) :=
  ⟨witness_next (by decide), by decide⟩

theorem witness_MatchUnitFrame :
    Instr.family .mFind = .matchUnit ∧ (∃ t, exec .mFind m6 = .next t ∧ t.stV = true) ∧
      Instr.family .mLen = .matchUnit ∧ ∃ t, exec .mLen (withOperands m6 7 7 9 0 0 0) = .next t ∧ t.stV = true :=
  ⟨rfl, witness_next (by decide), rfl, witness_next (by decide)⟩

end Sys2Proof.Tests
end

