-- ==== Sys2Proof/Proofs/RegisterPort.lean ====
section
/-! The register port (10_state.md R27, R28): what a host write to a register number leaves in each register, then
what each number reads after it. -/

namespace Sys2Proof.Machine

/-! ### A host write, field by field -/

/-- A host write touches nothing beyond `A0`..`A5` and `DLEN`. -/
theorem writeReg_frame (s : State) (n : Nat) (v : Word) :
    writeReg s n v = { s with
      a0 := (writeReg s n v).a0, a1 := (writeReg s n v).a1, a2 := (writeReg s n v).a2, a3 := (writeReg s n v).a3,
      a4 := (writeReg s n v).a4, a5 := (writeReg s n v).a5, dlen := (writeReg s n v).dlen } := by
  unfold writeReg
  split <;> rfl

theorem writeReg_a0 (s : State) (n : Nat) (v : Word) : (writeReg s n v).a0 = if n = 3 then v else s.a0 := by
  unfold writeReg
  split <;> simp_all

theorem writeReg_a1 (s : State) (n : Nat) (v : Word) : (writeReg s n v).a1 = if n = 4 then v else s.a1 := by
  unfold writeReg
  split <;> simp_all

theorem writeReg_a2 (s : State) (n : Nat) (v : Word) : (writeReg s n v).a2 = if n = 5 then v else s.a2 := by
  unfold writeReg
  split <;> simp_all

theorem writeReg_a3 (s : State) (n : Nat) (v : Word) : (writeReg s n v).a3 = if n = 6 then v else s.a3 := by
  unfold writeReg
  split <;> simp_all

theorem writeReg_a4 (s : State) (n : Nat) (v : Word) : (writeReg s n v).a4 = if n = 7 then v else s.a4 := by
  unfold writeReg
  split <;> simp_all

theorem writeReg_a5 (s : State) (n : Nat) (v : Word) : (writeReg s n v).a5 = if n = 8 then v else s.a5 := by
  unfold writeReg
  split <;> simp_all

theorem writeReg_dlen (s : State) (n : Nat) (v : Word) : (writeReg s n v).dlen = if n = 9 then v else s.dlen := by
  unfold writeReg
  split <;> simp_all

/-- A host write to a number it may not write is ignored (R28). -/
theorem writeReg_of_readOnly {n : Nat} (h : n < 3 ∨ 10 ≤ n) (s : State) (v : Word) : writeReg s n v = s := by
  unfold writeReg
  split
  case h_8 => rfl
  all_goals omega

/-! ### What a register number reads -/

/-- Numbers 17 and above do not exist and read 0 (R27). -/
theorem readReg_of_nonexistent {n : Nat} (h : 17 ≤ n) (s : State) : readReg s n = 0 := by
  unfold readReg
  split
  case h_18 => rfl
  all_goals omega

/-- The host's list of actions is no register. -/
@[simp] theorem readReg_setQueue (s : State) (q : List HostAction) (m : Nat) :
    readReg { s with queue := q } m = readReg s m := rfl

/-- A number the host may write reads the whole value written (R28). -/
theorem readReg_writeReg_same {n : Nat} (h₁ : 3 ≤ n) (h₂ : n ≤ 9) (s : State) (v : Word) :
    readReg (writeReg s n v) n = v := by
  interval_cases n <;> rfl

/-- A host write changes the reading of no other number. -/
theorem readReg_writeReg_of_ne {m n : Nat} (h : m ≠ n) (s : State) (v : Word) :
    readReg (writeReg s n v) m = readReg s m := by
  rw [writeReg_frame]
  unfold readReg
  split
  case h_4 => exact (writeReg_a0 s n v).trans (if_neg h.symm)
  case h_5 => exact (writeReg_a1 s n v).trans (if_neg h.symm)
  case h_6 => exact (writeReg_a2 s n v).trans (if_neg h.symm)
  case h_7 => exact (writeReg_a3 s n v).trans (if_neg h.symm)
  case h_8 => exact (writeReg_a4 s n v).trans (if_neg h.symm)
  case h_9 => exact (writeReg_a5 s n v).trans (if_neg h.symm)
  case h_10 => exact (writeReg_dlen s n v).trans (if_neg h.symm)
  all_goals rfl

/-! ### A step on the register port -/

theorem step_writeReg {s : State} {n : Nat} {v : Word} {rest : List HostAction}
    (h : s.queue = .writeReg n v :: rest) : step s = .next (writeReg { s with queue := rest } n v) :=
  step_cons h

theorem step_readReg {s : State} {n : Nat} {rest : List HostAction} (h : s.queue = .readReg n :: rest) :
    step s = .next { s with queue := rest } :=
  step_cons h

/-- Settles O13: the step is `writeReg` on the state that no longer lists the action, and `writeReg` is read back
number by number. -/
theorem registerPort : Obligations.RegisterPort := by
  unfold Obligations.RegisterPort
  intro s n v rest
  refine ⟨?reads, fun hw => ⟨fun hn => ?readOnly, fun h₁ h₂ => ?writable⟩, step_readReg⟩
  case reads =>
    have zeroExtends {k : Nat} (hk : k ≤ 32) (x : BitVec k) : (x.setWidth 32).toNat = x.toNat :=
      BitVec.toNat_setWidth_of_le hk
    exact ⟨rfl, rfl, rfl, rfl, rfl, rfl, rfl, rfl, rfl, rfl, rfl, zeroExtends (by decide) s.wpos,
      zeroExtends (by decide) s.wacc, rfl, rfl, zeroExtends (by decide) s.rleft, rfl,
      fun hn => readReg_of_nonexistent hn s⟩
  case readOnly => rw [step_writeReg hw, writeReg_of_readOnly hn]
  case writable =>
    refine ⟨_, step_writeReg hw, readReg_writeReg_same h₁ h₂ _ v, fun m hm => ?_, writeReg_frame _ n v⟩
    rw [readReg_writeReg_of_ne hm, readReg_setQueue]

end Sys2Proof.Machine
end

