-- ==== Sys2Proof/Proofs/IllegalWords.lean ====
section
/-! Illegal command words (30_encoding.md R74): a word that decodes is its command's own word, which is legal; so an
illegal word decodes to nothing, and writing it to `CMD` raises. -/

namespace Sys2Proof.Machine

/-! ### The words that decode -/

/-- The opcode map is the inverse of `opcode` (R73). -/
theorem eq_opcode_of_opcodeMap {op : Nat} {i : Instr} (h : opcodeMap op = some i) : op = opcode i := by
  unfold opcodeMap at h
  split at h <;> cases h <;> rfl

theorem eq_encode_of_decode {c : Word} {i : Instr} (h : decode c = .ok i) : c = encode i := by
  unfold decode at h
  split at h
  case isTrue => cases h
  case isFalse hHigh =>
    split at h
    case h_1 j hMap =>
      cases h
      have hLow : c.toNat % 2 ^ 8 = opcode i := eq_opcode_of_opcodeMap hMap
      apply BitVec.eq_of_toNat_eq
      rw [encode, BitVec.toNat_ofNat]
      omega
    case h_2 => cases h

theorem legalWord_encode (i : Instr) : legalWord (encode i) = true := by
  cases i <;> rfl

theorem legalWord_of_decode {c : Word} {i : Instr} (h : decode c = .ok i) : legalWord c = true :=
  eq_encode_of_decode h ▸ legalWord_encode i

/-! ### The command port -/

theorem issue_of_illegal {c : Word} (h : legalWord c = false) (s : State) :
    issue s c = serve s (.error (.raise .illegalCommand)) := by
  obtain ⟨i, hi, -⟩ | ⟨-, hIssue⟩ := issue_cases s c
  · rw [legalWord_of_decode hi] at h
    cases h
  · exact hIssue

/-- Settles O4: the step is `issue` of a word that decodes to nothing, and a serving unit then enters the fault. -/
theorem illegalWordsRaiseIllegalCommand : Obligations.IllegalWordsRaiseIllegalCommand := by
  unfold Obligations.IllegalWordsRaiseIllegalCommand
  intro s c rest hq hF hc
  have hServing : Serving { s with queue := rest } := hF
  calc step s = issue { s with queue := rest } c := step_cons hq
    _ = serve { s with queue := rest } (.error (.raise .illegalCommand)) := issue_of_illegal hc _
    _ = .next (State.raise { s with queue := rest } .illegalCommand) := serve_of_serving hServing _

end Sys2Proof.Machine
end

