-- ==== Sys2Proof/Proofs/Ensures.lean ====
section
/-! What a rule ensures: a property of every state it completes with. The property passes through the checks before
a rule and the shared operations, and from the rule to the command. The operand registers (10_state.md R21) are the
first use. -/

namespace Sys2Proof.Machine

/-- The state a rule completes with, with a value or without (00_scope.md R11). -/
def Completion.state : Completion → State
  | .value s => s
  | .noValue s => s

/-- Whenever the rule completes, the state it completes with has the property; a rule that breaks off is free. -/
def Ensures (b : Body) (P : State → Prop) : Prop :=
  ∀ c, b = .ok c → P c.state

section ensures

variable {P : State → Prop} {b : Body} {s t : State}

theorem ensures_value (h : P t) : Ensures (.ok (.value t)) P := by
  rintro _ ⟨⟩
  exact h

theorem ensures_noValue (h : P t) : Ensures (.ok (.noValue t)) P := by
  rintro _ ⟨⟩
  exact h

theorem ensures_error (e : Abort) : Ensures (.error e) P := by
  rintro _ ⟨⟩

theorem ensures_needWidth (w : Nat) (h : Ensures b P) : Ensures (needWidth w b) P :=
  fun c hc => h c (needWidth_ok hc).2

theorem ensures_needWriter (h : Ensures b P) : Ensures (needWriter s b) P :=
  fun c hc => h c (needWriter_ok hc).2

theorem ensures_needReader (h : Ensures b P) : Ensures (needReader s b) P :=
  fun c hc => h c (needReader_ok hc).2

theorem ensures_appendBits {w v : Nat} (h : P (appended s w v)) : Ensures (appendBits s w v) P := by
  obtain ⟨-, e⟩ | ⟨-, e⟩ := appendBits_cases s w v <;> rw [e]
  · exact ensures_value h
  · exact ensures_error _

theorem ensures_bitRead {w : Nat} {k : Pulled → State} (hs : P s) (hk : ∀ p, P (k p)) :
    Ensures (bitRead s w k) P := by
  intro c hc
  obtain rfl | ⟨p, -, -, rfl⟩ := bitRead_ok hc
  · exact hs
  · exact hk p

theorem ensures_takeRange {n : Nat} (hAlign : P (alignReader s))
    (hTake : ∀ r₀ r₁, P { rawTaken s n with r0 := r₀, r1 := r₁ }) : Ensures (takeRange s n) P := by
  unfold takeRange
  obtain ⟨-, e⟩ | ⟨-, e⟩ := rawTake_cases s n <;> rw [e]
  · exact ensures_noValue hAlign
  · exact ensures_value (hTake _ _)

/-- What a rule ensures holds after its command, when the state before has it too and it does not speak of `ST`'s
flags and cause: a faulted unit refuses, and a fault entry writes nothing else. -/
theorem exec_ensures {i : Instr} (hStatus : ∀ u v f c, P u → P { u with stV := v, stF := f, stCause := c })
    (hs : P s) (hRule : Ensures (rule i s) P) (h : exec i s = .next t) : P t := by
  obtain ⟨-, rfl⟩ | ⟨-, ⟨u, hu, rfl⟩ | ⟨u, hu, rfl⟩ | ⟨c, -, rfl⟩⟩ := exec_next h
  · exact hs
  · exact hStatus u true u.stF u.stCause (hRule _ hu)
  · exact hStatus u false u.stF u.stCause (hRule _ hu)
  · exact hStatus s false true (causeCode c) hs

end ensures

/-! ### The operand registers -/

/-- `A0`..`A5` hold what they held (10_state.md R21). -/
def SameOperands (s t : State) : Prop :=
  t.a0 = s.a0 ∧ t.a1 = s.a1 ∧ t.a2 = s.a2 ∧ t.a3 = s.a3 ∧ t.a4 = s.a4 ∧ t.a5 = s.a5

theorem SameOperands.refl (s : State) : SameOperands s s :=
  ⟨rfl, rfl, rfl, rfl, rfl, rfl⟩

/-- `R0` is no operand register. -/
theorem sameOperands_setR0 (s : State) (r : Word) : SameOperands s { s with r0 := r } :=
  ⟨rfl, rfl, rfl, rfl, rfl, rfl⟩

theorem sameOperands_flushed (s : State) : SameOperands s (flushed s) := by
  rw [flushed_frame]
  exact .refl s

theorem takeBits_keepsOperands (s : State) (w : Nat) : Ensures (takeBits s w) (SameOperands s) :=
  ensures_bitRead (.refl s) fun _ => .refl s

theorem appendBits_keepsOperands (s : State) (w v : Nat) : Ensures (appendBits s w v) (SameOperands s) :=
  ensures_appendBits (.refl s)

theorem takeRange_keepsOperands (s : State) (n : Nat) : Ensures (takeRange s n) (SameOperands s) :=
  ensures_takeRange (.refl s) fun _ _ => .refl s

theorem ruleRNxbyte_keepsOperands (s : State) : Ensures (ruleRNxbyte s) (SameOperands s) := by
  refine ensures_needReader ?_
  obtain ⟨-, e⟩ | ⟨-, e⟩ := rawTake_cases s 1 <;> rw [e]
  · exact ensures_noValue (.refl s)
  · dsimp only
    split
    · exact ensures_error _
    · exact ensures_value (.refl s)

theorem ruleMLen_keepsOperands (s : State) : Ensures (ruleMLen s) (SameOperands s) := by
  unfold ruleMLen
  split
  · exact ensures_error _
  · split
    · exact ensures_error _
    · exact ensures_value (sameOperands_setR0 s _)

theorem findMatch_keepsOperands (s : State) (cursor maxLen tmin tmax g ncand : Nat) :
    Ensures (findMatch s cursor maxLen tmin tmax g ncand) (SameOperands s) := by
  unfold findMatch
  split
  · exact ensures_error _
  split
  · exact ensures_error _
  split
  · exact ensures_error _
  split
  · exact ensures_noValue (.refl s)
  split
  · exact ensures_noValue (.refl s)
  · exact ensures_value (.refl s)

theorem ruleMFind_keepsOperands (s : State) : Ensures (ruleMFind s) (SameOperands s) := by
  unfold ruleMFind
  split
  · exact ensures_error _
  split
  · exact ensures_error _
  · exact findMatch_keepsOperands s _ _ _ _ _ _

/-- No rule but that of `TBV.REV` writes an operand register. -/
theorem rule_keepsOperands {i : Instr} (hi : i ≠ .tbvRev) (s : State) : Ensures (rule i s) (SameOperands s) := by
  cases i with
  | bwNew =>
    simp only [rule, ruleBwNew]
    split
    · exact ensures_value (sameOperands_setR0 s _)
    · exact ensures_noValue (.refl s)
  | bwNewu | bwMask | bwPow2 | tbvNew | tbvRevd =>
    exact ensures_needWidth _ (ensures_value (sameOperands_setR0 s _))
  | tbvNewc =>
    refine ensures_needWidth _ ?_
    split
    · exact ensures_noValue (.refl s)
    · exact ensures_value (sameOperands_setR0 s _)
  | tbvRev => exact absurd rfl hi
  | tbvEq => exact ensures_needWidth _ (ensures_needWidth _ (ensures_value (sameOperands_setR0 s _)))
  | npot =>
    simp only [rule, ruleNpot]
    split
    · exact ensures_error _
    · exact ensures_value (sameOperands_setR0 s _)
  | wNew => exact ensures_value (.refl s)
  | wPush => exact ensures_needWriter (ensures_needWidth _ (appendBits_keepsOperands s _ _))
  | wPbool | wPbyte | wPnib => exact ensures_needWriter (appendBits_keepsOperands s _ _)
  | wAlign | wFin =>
    refine ensures_needWriter ?_
    obtain ⟨-, e⟩ | ⟨-, -, e⟩ := flush_cases s <;> rw [e]
    · exact ensures_value (sameOperands_flushed s)
    · exact ensures_error _
  | wBitcnt => exact ensures_needWriter (ensures_value (sameOperands_setR0 s _))
  | rNew =>
    simp only [rule, ruleRNew]
    split
    · exact ensures_error _
    · exact ensures_value (.refl s)
  | rBool | rNib | rByte => exact ensures_needReader (takeBits_keepsOperands s _)
  | rBits => exact ensures_needReader (ensures_needWidth _ (takeBits_keepsOperands s _))
  | rPeek | rAdv =>
    exact ensures_needReader (ensures_needWidth _ (ensures_bitRead (.refl s) fun _ => .refl s))
  | rAlign => exact ensures_needReader (ensures_value (.refl s))
  | rNxbyte => exact ruleRNxbyte_keepsOperands s
  | rNxarr | rNxslc => exact ensures_needReader (takeRange_keepsOperands s _)
  | mLen => exact ruleMLen_keepsOperands s
  | mFind => exact ruleMFind_keepsOperands s

theorem exec_keepsOperands {i : Instr} {s t : State} (hi : i ≠ .tbvRev) (h : exec i s = .next t) :
    SameOperands s t :=
  exec_ensures (fun _ _ _ _ hu => hu) (.refl s) (rule_keepsOperands hi s) h

end Sys2Proof.Machine
end

