-- ==== Sys2Proof/Proofs/BitWidth.lean ====
section
/-! The BitWidth commands (40_bitwidth_tbv.md R101 to R104), and the two ends of a rule that checks a width. -/

namespace Sys2Proof.Machine

/-! ### A command whose rule checks a width first -/

theorem exec_of_validWidth (i : Instr) {s : State} {w : Nat} {b : Body} (hF : Serving s)
    (hRule : rule i s = needWidth w b) (hw : 1 ≤ w ∧ w ≤ 24) : exec i s = finish s b := by
  rw [exec_of_serving hF, hRule, needWidth_of_valid hw]

theorem exec_of_invalidWidth (i : Instr) {s : State} {w : Nat} {b : Body} (hF : Serving s)
    (hRule : rule i s = needWidth w b) (hw : ¬(1 ≤ w ∧ w ≤ 24)) :
    exec i s = .next (s.raise .invalidBitWidth) := by
  rw [exec_of_serving hF, hRule, needWidth_of_invalid hw]
  rfl

/-! ### The commands -/

/-- Settles O20: the width test of `BW.NEW` is its only branch, and neither end is a fault. -/
theorem bwNewGivesTheWidthOrNoValue : Obligations.BwNewGivesTheWidthOrNoValue := by
  refine ⟨decode_encode .bwNew, fun s hF => ?_⟩
  rw [exec_of_serving hF, rule, ruleBwNew]
  simp only [isBitWidth_iff]
  split <;> rfl

/-- Settles O21, by the two ends of a checked rule. -/
theorem bwNewuChecksAlways : Obligations.BwNewuChecksAlways := by
  refine ⟨decode_encode .bwNewu, fun s hF => ?_⟩
  split
  case isTrue hw => exact (exec_of_validWidth .bwNewu hF rfl hw).trans rfl
  case isFalse hw => exact exec_of_invalidWidth .bwNewu hF rfl hw

/-- A number that fits a register is written to it uncut. -/
theorem toNat_ofNat_of_lt {k n : Nat} (h : n < 2 ^ k) : (BitVec.ofNat k n).toNat = n := by
  rw [BitVec.toNat_ofNat, Nat.mod_eq_of_lt h]

/-- Settles O22: a valid width's power of two, and so the mask below it, fits the result register uncut. -/
theorem bwMaskAndBwPow2 : Obligations.BwMaskAndBwPow2 := by
  refine ⟨decode_encode .bwMask, decode_encode .bwPow2, fun s hF => ⟨fun hw => ?_, fun hw => ?_⟩⟩
  · have hlt : 2 ^ s.a0.toNat < 2 ^ 32 := Nat.pow_lt_pow_right (by decide) (by omega)
    have hpos : 0 < 2 ^ s.a0.toNat := Nat.two_pow_pos _
    have hMask : (BitVec.ofNat 32 (2 ^ s.a0.toNat - 1)).toNat = 2 ^ s.a0.toNat - 1 :=
      toNat_ofNat_of_lt (by omega)
    have hPow : (BitVec.ofNat 32 (2 ^ s.a0.toNat)).toNat = 2 ^ s.a0.toNat := toNat_ofNat_of_lt hlt
    exact ⟨BitVec.ofNat 32 (2 ^ s.a0.toNat - 1), BitVec.ofNat 32 (2 ^ s.a0.toNat),
      (exec_of_validWidth .bwMask hF rfl hw).trans rfl, (exec_of_validWidth .bwPow2 hF rfl hw).trans rfl, hMask, hPow,
      by omega⟩
  · exact ⟨exec_of_invalidWidth .bwMask hF rfl hw, exec_of_invalidWidth .bwPow2 hF rfl hw⟩

end Sys2Proof.Machine
end

