-- ==== Sys2Proof/Proofs/Tbv.lean ====
section
/-! The TaggedBitValue commands (40_bitwidth_tbv.md R105 to R109, R112, R113): the TBV word as bit fields, the
reversed word's tag and payload, then the commands. -/

namespace Sys2Proof.Machine

/-! ### The TBV word -/

/-- A tag that fits a byte stands above the 24 low bits of the value (10_state.md R31). -/
theorem mkTbv_eq_append {w : Word} (hw : w.toNat < 2 ^ 8) (v : Word) :
    mkTbv w.toNat v.toNat = (w.setWidth 8 ++ v.setWidth 24 : BitVec 32) := by
  have hv : v.toNat % 2 ^ 24 < 2 ^ 24 := Nat.mod_lt _ (by decide)
  apply BitVec.eq_of_toNat_eq
  rw [mkTbv_toNat hw, BitVec.toNat_append, BitVec.toNat_setWidth, BitVec.toNat_setWidth, Nat.mod_eq_of_lt hw,
    ← Nat.shiftLeft_add_eq_or_of_lt hv, Nat.shiftLeft_eq]

/-- The payload is the word's 24 low bits, as a number. -/
theorem tbvPayload_eq_toNat_setWidth (t : Word) : tbvPayload t = (t.setWidth 24).toNat :=
  (BitVec.toNat_setWidth ..).symm

theorem tbvPayload_eq_iff (t u : Word) : tbvPayload t = tbvPayload u ↔ t.setWidth 24 = u.setWidth 24 := by
  rw [tbvPayload_eq_toNat_setWidth, tbvPayload_eq_toNat_setWidth, BitVec.toNat_inj]

theorem testBit_tbvPayload (t : Word) {i : Nat} (hi : i < 24) : (tbvPayload t).testBit i = t.getLsbD i := by
  rw [tbvPayload, Nat.testBit_mod_two_pow, decide_eq_true hi, Bool.true_and, BitVec.getLsbD]

/-! ### The reversed word (R107) -/

@[simp] theorem tbvWidth_tbvReversed (t : Word) : tbvWidth (tbvReversed t) = tbvWidth t :=
  tbvWidth_mkTbv (tbvWidth_lt t) _

theorem tbvPayload_tbvReversed {t : Word} (hw : tbvWidth t ≤ 24) :
    tbvPayload (tbvReversed t) = bitrev (tbvWidth t) (tbvPayload t % 2 ^ tbvWidth t) := by
  have hlt : bitrev (tbvWidth t) (tbvPayload t % 2 ^ tbvWidth t) < 2 ^ 24 :=
    lt_of_lt_of_le (bitrev_lt _ _) (Nat.pow_le_pow_right (by decide) hw)
  rw [tbvReversed, tbvPayload_mkTbv (tbvWidth_lt t), Nat.mod_eq_of_lt hlt]

/-- Bit by bit: below the width the operand's bits in reverse, zeros above. -/
theorem getLsbD_tbvReversed {t : Word} (hw : tbvWidth t ≤ 24) {i : Nat} (hi : i < 24) :
    (tbvReversed t).getLsbD i = (decide (i < tbvWidth t) && t.getLsbD (tbvWidth t - 1 - i)) := by
  rw [← testBit_tbvPayload _ hi, tbvPayload_tbvReversed hw]
  by_cases hiw : i < tbvWidth t
  · have hj : tbvWidth t - 1 - i < tbvWidth t := by omega
    rw [bitrev_testBit _ _ hiw, Nat.testBit_mod_two_pow, testBit_tbvPayload _ (by omega)]
    simp [hiw, hj]
  · have hzero : bitrev (tbvWidth t) (tbvPayload t % 2 ^ tbvWidth t) < 2 ^ i :=
      lt_of_lt_of_le (bitrev_lt _ _) (Nat.pow_le_pow_right (by decide) (by omega))
    simp [hiw, Nat.testBit_lt_two_pow hzero]

/-- Two reversals cut the payload to the width (R112). -/
theorem tbvReversed_tbvReversed {t : Word} (hw : tbvWidth t ≤ 24) :
    tbvReversed (tbvReversed t) = mkTbv (tbvWidth t) (tbvPayload t % 2 ^ tbvWidth t) := by
  rw [tbvReversed, tbvWidth_tbvReversed, tbvPayload_tbvReversed hw, Nat.mod_eq_of_lt (bitrev_lt _ _),
    bitrev_bitrev (Nat.mod_lt _ (Nat.two_pow_pos _))]

theorem mkTbv_payload_mod_width {t : Word} (h : tbvFitting t = true) :
    mkTbv (tbvWidth t) (tbvPayload t % 2 ^ tbvWidth t) = t := by
  have hfit : tbvPayload t < 2 ^ tbvWidth t := of_decide_eq_true (Bool.and_eq_true_iff.1 h).2
  rw [Nat.mod_eq_of_lt hfit, mkTbv_width_payload]

/-! ### The commands -/

/-- Settles O25: the bound and the bits of `bitrev`, each by induction on the width. -/
theorem bitrevReversesTheBits : Obligations.BitrevReversesTheBits :=
  fun w v _ _ _ => ⟨bitrev_lt w v, fun _ hi => bitrev_testBit w v hi⟩

/-- Settles O23: the word a checked width and a value make is the two bit fields side by side. -/
theorem tbvNewTagsAndMasksTo24Bits : Obligations.TbvNewTagsAndMasksTo24Bits := by
  refine ⟨decode_encode .tbvNew, fun s hF => ?_⟩
  split
  case isTrue hw =>
    rw [← mkTbv_eq_append (by omega)]
    exact (exec_of_validWidth .tbvNew hF rfl hw).trans rfl
  case isFalse hw => exact exec_of_invalidWidth .tbvNew hF rfl hw

/-- Settles O24: after the width check the comparison of the whole `A1` decides between no value and the word. -/
theorem tbvNewcRejectsWideValues : Obligations.TbvNewcRejectsWideValues := by
  refine ⟨decode_encode .tbvNewc, fun s hF => ?_⟩
  split
  case isTrue hw =>
    rw [exec_of_validWidth .tbvNewc hF rfl hw, ← mkTbv_eq_append (by omega)]
    split <;> rfl
  case isFalse hw => exact exec_of_invalidWidth .tbvNewc hF rfl hw

/-- Settles O26: both reversals write the one reversed word, and every other command keeps the operand registers. -/
theorem tbvReversals : Obligations.TbvReversals := by
  refine ⟨decode_encode .tbvRevd, decode_encode .tbvRev, fun i s t hi h => exec_keepsOperands hi h,
    fun s hF => ⟨fun hw => ?_, fun hw => ?_⟩⟩
  · exact ⟨tbvReversed s.a0, tbvWidth_tbvReversed s.a0, fun i hi => getLsbD_tbvReversed hw.2 hi,
      (exec_of_validWidth .tbvRevd hF rfl hw).trans rfl, (exec_of_validWidth .tbvRev hF rfl hw).trans rfl⟩
  · exact ⟨exec_of_invalidWidth .tbvRevd hF rfl hw, exec_of_invalidWidth .tbvRev hF rfl hw⟩

/-- `TBV.REVD` of a valid TBV (R107). -/
theorem exec_tbvRevd {s : State} (hF : Serving s) (hv : tbvValid s.a0 = true) :
    exec .tbvRevd s = .next { s with r0 := tbvReversed s.a0, stV := true } :=
  (exec_of_validWidth .tbvRevd hF rfl ((isBitWidth_iff _).1 hv)).trans rfl

/-- Settles O27: the reversed word has the same tag, so the second reversal ends with a value too. -/
theorem reversingTwiceGivesTheOriginal : Obligations.ReversingTwiceGivesTheOriginal := by
  intro s hF hv
  have hv' : tbvValid (tbvReversed s.a0) = true := by rwa [tbvValid, tbvWidth_tbvReversed]
  have hTwice := tbvReversed_tbvReversed ((isBitWidth_iff _).1 hv).2
  exact ⟨_, _, exec_tbvRevd hF hv, exec_tbvRevd hF hv', rfl, hTwice,
    fun hfit => hTwice.trans (mkTbv_payload_mod_width hfit)⟩

/-- Settles O28: the first invalid tag raises; past both checks the payloads' equality is that of the bit fields. -/
theorem tbvEqComparesPayloads : Obligations.TbvEqComparesPayloads := by
  refine ⟨decode_encode .tbvEq, fun s hF => ?_⟩
  simp only [← tbvPayload_eq_iff]
  split
  case isTrue hw =>
    obtain ⟨hw₀, hw₁⟩ := hw
    rw [exec_of_validWidth .tbvEq hF rfl hw₀, needWidth_of_valid (w := tbvWidth s.a1) hw₁]
    rfl
  case isFalse hw =>
    by_cases hw₀ : 1 ≤ tbvWidth s.a0 ∧ tbvWidth s.a0 ≤ 24
    · have hw₁ : ¬(1 ≤ tbvWidth s.a1 ∧ tbvWidth s.a1 ≤ 24) := fun hw₁ => hw ⟨hw₀, hw₁⟩
      rw [exec_of_validWidth .tbvEq hF rfl hw₀, needWidth_of_invalid hw₁]
      rfl
    · exact exec_of_invalidWidth .tbvEq hF rfl hw₀

end Sys2Proof.Machine
end

