-- ==== Sys2Proof/Proofs/Npot.lean ====
section
/-! `NPOT` (40_bitwidth_tbv.md R110): one power of two lies between `n` and its double, so the statement's `2^k` is the
one the model finds. -/

namespace Sys2Proof.Machine

theorem two_pow_unique {n j k : Nat} (hj : n ≤ 2 ^ j) (hj' : 2 ^ j < 2 * n) (hk : n ≤ 2 ^ k)
    (hk' : 2 ^ k < 2 * n) : j = k := by
  have below {a b : Nat} (ha : 2 ^ a < 2 * n) (hb : n ≤ 2 ^ b) : a < b + 1 :=
    (Nat.pow_lt_pow_iff_right (a := 2) (by decide)).1 (by rw [Nat.pow_succ]; omega)
  have := below hj' hk
  have := below hk' hj
  omega

theorem leastPow2_eq {n k : Nat} (h : n ≤ 2 ^ 32) (hk : n ≤ 2 ^ k) (hk' : 2 ^ k < 2 * n) : leastPow2 n = 2 ^ k := by
  obtain ⟨j, e, -, hj, hj'⟩ := leastPow2_spec (by omega) h
  rw [e, two_pow_unique hj hj' hk hk']

theorem nearestPow2_eq {n k : Nat} (h : n ≤ 2 ^ 32) (hk : n ≤ 2 ^ k) (hk' : 2 ^ k < 2 * n) :
    nearestPow2 n = if 3 * 2 ^ k ≤ 4 * n then 2 ^ k else 2 ^ k / 2 := by
  rw [nearestPow2, if_neg (by omega), leastPow2_eq h hk hk']

theorem exec_npot_fits {s : State} (hF : Serving s) (h : nearestPow2 s.a0.toNat < 2 ^ 32) :
    exec .npot s = .next { s with r0 := BitVec.ofNat 32 (nearestPow2 s.a0.toNat), stV := true } := by
  rw [exec_of_serving hF, rule, ruleNpot, if_neg (by omega)]
  rfl

theorem exec_npot_overflows {s : State} (hF : Serving s) (h : 2 ^ 32 ≤ nearestPow2 s.a0.toNat) :
    exec .npot s = .next (s.raise .npotOverflow) := by
  rw [exec_of_serving hF, rule, ruleNpot, if_pos h]
  rfl

/-- Settles O29, by the three ranges of `n`: 0; below `0xC0000000`, where the result stays below `2^32`; and from
there on, where `2^32` is the nearer power. -/
theorem npotRoundsToTheNearerPowerOfTwo : Obligations.NpotRoundsToTheNearerPowerOfTwo := by
  refine ⟨decode_encode .npot, fun s hF => ⟨fun h0 => ?zero, fun k hk hk' hn => ?fits, fun hn => ?overflows⟩⟩
  all_goals have hn32 : s.a0.toNat < 2 ^ 32 := s.a0.isLt
  case zero =>
    have hNearest : nearestPow2 s.a0.toNat = 0 := by rw [h0]; rfl
    rw [exec_npot_fits hF (by omega), hNearest]
    rfl
  case fits =>
    have hNearest := nearestPow2_eq hn32.le hk hk'
    have hlt : nearestPow2 s.a0.toNat < 2 ^ 32 := by
      rw [hNearest]
      split <;> omega
    exact ⟨_, (toNat_ofNat_of_lt hlt).trans hNearest, exec_npot_fits hF hlt⟩
  case overflows =>
    have hNearest : nearestPow2 s.a0.toNat = 2 ^ 32 := by
      rw [nearestPow2_eq hn32.le hn32.le (by omega), if_pos (by omega)]
    exact exec_npot_overflows hF hNearest.ge

end Sys2Proof.Machine
end

