-- ==== Sys2Proof/Proofs/Writer.lean ====
section
/-! The writer commands (41_writer.md R121 to R130): the two ends of a rule that checks for a writer, the one rule of
the four pushes, the outcomes of the flush, then the commands. -/

namespace Sys2Proof.Machine

/-! ### A command whose rule checks for a writer first -/

theorem exec_withWriter (i : Instr) {s : State} {b : Body} (hF : Serving s) (hRule : rule i s = needWriter s b)
    (ho : s.wopen = true) : exec i s = finish s b := by
  rw [exec_of_serving hF, hRule, needWriter_of_open ho]

theorem exec_withoutWriter (i : Instr) {s : State} {b : Body} (hF : Serving s) (hRule : rule i s = needWriter s b)
    (ho : s.wopen = false) : exec i s = .next (s.raise .writerNotOpen) := by
  rw [exec_of_serving hF, hRule, needWriter_of_closed ho]
  rfl

/-! ### The pushes (R122 to R125) -/

/-- The four pushes have one rule; the width check of a wrapper, whose width is fixed, always passes. -/
theorem rule_of_pushField {i : Instr} {s : State} {w v : Nat} (h : pushField i s = some (w, v)) :
    rule i s = needWriter s (needWidth w (appendBits s w v)) := by
  cases i with
  | wPush | wPbool | wPbyte | wPnib =>
    cases h
    rfl
  | _ => cases h

/-- A push that fits appends. -/
theorem exec_push_fits {i : Instr} {s : State} {w v : Nat} (hp : pushField i s = some (w, v)) (hF : Serving s)
    (ho : s.wopen = true) (hw : 1 ≤ w ∧ w ≤ 24) (hfit : s.wlen.toNat + appendFull s w ≤ s.cfg.outCap) :
    exec i s = .next (appended s w v).withValue := by
  rw [exec_withWriter i hF (rule_of_pushField hp) ho, needWidth_of_valid hw, appendBits_fits v hfit]
  rfl

/-- Settles O32: the checks of the pushes' one rule in their order, then the state the append leaves, field by
field. -/
theorem pushesAppendOrRaise : Obligations.PushesAppendOrRaise := by
  refine ⟨decode_encode .wPush, decode_encode .wPbool, decode_encode .wPbyte, decode_encode .wPnib,
    fun i s w v hp hc hInv hF => ⟨exec_withoutWriter i hF (rule_of_pushField hp), fun ho => ?_⟩⟩
  have hExec := exec_withWriter i hF (rule_of_pushField hp) ho
  refine ⟨fun hw => ?badWidth, fun hw hover => ?overflow, fun hw hfit => ?fits⟩
  case badWidth =>
    rw [hExec, needWidth_of_invalid hw]
    rfl
  case overflow =>
    rw [hExec, needWidth_of_valid hw, appendBits_overflows v hover]
    rfl
  case fits =>
    refine ⟨_, exec_push_fits hp hF ho hw hfit, appended_wlen hc hfit v, appended_wacc hInv.1 w v,
      appended_wpos s w v, fun k hk => ?_, fun a ha => ?_, rfl⟩
    · have hCell := appended_outCell s w v (s.wlen.toNat + k)
      rw [if_pos ⟨Nat.le_add_right _ _, Nat.add_lt_add_left hk _⟩, Nat.add_sub_cancel_left] at hCell
      exact (congrArg BitVec.toNat hCell).trans (BitVec.toNat_ofNat ..)
    · refine (appended_outCell s w v a).trans (if_neg ?_)
      rw [appendFull]
      omega

/-- Settles O34, by the law of append of `append_bits`. -/
theorem pushesAppendTheirBits : Obligations.PushesAppendTheirBits := by
  intro i s w v hp hc hInv hF ho h₁ h₂₄ hfit
  have hBits : outBits (appended s w v) = outBits s ++ bitsOf w v := outBits_appended hc hInv hfit v
  refine ⟨_, exec_push_fits hp hF ho ⟨h₁, h₂₄⟩ hfit, hBits, ?_, rfl, hF, ho⟩
  calc (outBits (appended s w v)).length = (outBits s ++ bitsOf w v).length := congrArg _ hBits
    _ = (outBits s).length + w := by simp

/-! ### The flush (R126, R128) -/

theorem flush_of_aligned {s : State} (h : s.wpos = 0) : flush s = .ok s := by
  simp [flush, h]

theorem flush_overflows {s : State} (h : s.wpos ≠ 0) (hover : s.cfg.outCap < s.wlen.toNat + 1) :
    flush s = .error (.raise .outOverflow) := by
  have h0 : s.wpos.toNat ≠ 0 := fun e => h (BitVec.eq_of_toNat_eq e)
  rw [flush, if_neg h0, if_pos hover]

theorem flush_stores {s : State} (h : s.wpos ≠ 0) (hfit : ¬ s.cfg.outCap < s.wlen.toNat + 1) :
    flush s = .ok { s with
      outMem := s.outMem.write s.wlen.toNat s.wacc, wlen := s.wlen + 1, wacc := 0, wpos := 0 } := by
  have h0 : s.wpos.toNat ≠ 0 := fun e => h (BitVec.eq_of_toNat_eq e)
  have hlen : s.wlen + 1 = BitVec.ofNat 32 (s.wlen.toNat + 1) := by
    apply BitVec.eq_of_toNat_eq
    rw [BitVec.toNat_add, BitVec.toNat_ofNat]
    rfl
  rw [flush, if_neg h0, if_neg hfit, writeOut_ok (Nat.le_of_not_lt hfit), hlen]
  rfl

/-! ### The other commands -/

/-- Settles O31: the rule has no check and no branch. -/
theorem wNewOpensAnEmptyWriter : Obligations.WNewOpensAnEmptyWriter :=
  ⟨decode_encode .wNew, fun _ hF => (exec_of_serving hF .wNew).trans rfl⟩

/-- Settles O35: the writer check, then the three outcomes of the flush. -/
theorem wAlignFlushesAPartialByte : Obligations.WAlignFlushesAPartialByte := by
  refine ⟨decode_encode .wAlign, fun s hF => ?_⟩
  split_ifs with ho h0 hover
  · exact exec_withoutWriter .wAlign hF rfl ho
  all_goals rw [exec_withWriter .wAlign hF rfl (Bool.eq_true_of_not_eq_false ho)]
  · rw [flush_of_aligned h0]
    rfl
  · rw [flush_overflows h0 hover]
    rfl
  · rw [flush_stores h0 hover]
    rfl

/-- Settles O36: the writer check, then the three outcomes of the flush; at a byte boundary `WPOS` is 0 already. -/
theorem wFinFlushesAndCloses : Obligations.WFinFlushesAndCloses := by
  refine ⟨decode_encode .wFin, fun s hF => ?_⟩
  split_ifs with ho h0 hover
  · exact exec_withoutWriter .wFin hF rfl ho
  all_goals rw [exec_withWriter .wFin hF rfl (Bool.eq_true_of_not_eq_false ho)]
  · rw [flush_of_aligned h0, h0]
    rfl
  · rw [flush_overflows h0 hover]
    rfl
  · rw [flush_stores h0 hover]
    rfl

/-- Settles O38: the count is the length of the output bit string, and the capacity keeps it below `2^32`. -/
theorem wBitcntCountsTheBits : Obligations.WBitcntCountsTheBits := by
  refine ⟨decode_encode .wBitcnt, fun s hc hInv hF => ⟨fun ho => ?_, exec_withoutWriter .wBitcnt hF rfl⟩⟩
  obtain ⟨-, -, hCap, -, -⟩ := hc
  obtain ⟨-, hLen, -⟩ := hInv
  have hPos := wpos_lt s
  have hCount : (BitVec.ofNat 32 (8 * s.wlen.toNat + s.wpos.toNat)).toNat = 8 * s.wlen.toNat + s.wpos.toNat :=
    toNat_ofNat_of_lt (by omega)
  exact ⟨_, (exec_withWriter .wBitcnt hF rfl ho).trans rfl, hCount, hCount.trans (length_outBits s).symm⟩

end Sys2Proof.Machine
end

