-- ==== Sys2Proof/Proofs/BinaryCompatibility.lean ====
section
/-! Binary compatibility (41_writer.md R131): each writer command that ends without a fault turns the output bit string
into a function of that string and its operand, so the finished string is a function of the commands alone, and the
finished buffer's bytes are read off the string. -/

namespace Sys2Proof.Machine

/-! ### The output bit string a command leaves -/

/-- The output bit string after a writer command with operand `a` that ends without a fault: a new writer starts
afresh, a push appends its bits, a flush pads with zeros. -/
def bitsAfter (i : Instr) (a : Word) (bits : List Bool) : List Bool :=
  match i with
  | .wNew => []
  | .wPush => bits ++ bitsOf (tbvWidth a) (tbvPayload a)
  | .wPbool => bits ++ bitsOf 1 (lowBits 1 a)
  | .wPbyte => bits ++ bitsOf 8 (lowBits 8 a)
  | .wPnib => bits ++ bitsOf 4 (lowBits 4 a)
  | .wAlign | .wFin => bits ++ List.replicate ((8 - bits.length % 8) % 8) false
  | _ => bits

/-- The output bit string after `W.NEW`, the commands and `W.FIN`, whose operand is ignored. -/
def finishedBits (calls : List (Instr × Word)) : List Bool :=
  bitsAfter .wFin 0 (calls.foldl (fun bits c => bitsAfter c.1 c.2 bits) [])

/-- The writer's state is sound and its output bit string is `bits`. -/
def Written (bits : List Bool) (s : State) : Prop :=
  s.cfg.wf ∧ WriterInv s ∧ outBits s = bits

/-- With nothing pending and the buffer within the capacity, open or closed, the writer is sound (10_state.md R35). -/
theorem writerInv_of_noPending {s : State} (hAcc : s.wacc = 0) (hPos : s.wpos = 0)
    (hLen : s.wlen.toNat ≤ s.cfg.outCap) : WriterInv s := by
  refine ⟨?_, hLen, fun _ => ⟨hAcc, hPos⟩⟩
  rw [hAcc, hPos]
  decide

theorem written_appended {s : State} {w : Nat} (hc : s.cfg.wf) (hInv : WriterInv s) (ho : s.wopen = true)
    (hfit : s.wlen.toNat + appendFull s w ≤ s.cfg.outCap) (v : Nat) :
    Written (outBits s ++ bitsOf w v) (appended s w v) :=
  ⟨hc, writerInv_appended hc hInv ho hfit v, outBits_appended hc hInv hfit v⟩

theorem written_flushed {s : State} (hc : s.cfg.wf) (hInv : WriterInv s)
    (hfit : s.wpos.toNat = 0 ∨ s.wlen.toNat + 1 ≤ s.cfg.outCap) :
    Written (bitsAfter .wAlign s.a0 (outBits s)) (flushed s) := by
  have hPos := wpos_lt s
  have hMod : (outBits s).length % 8 = s.wpos.toNat := by
    rw [length_outBits]
    omega
  refine ⟨?_, writerInv_flushed hc hInv hfit, ?_⟩
  · rw [flushed_frame]
    exact hc
  · rw [outBits_flushed hc hInv hfit, bitsAfter, hMod]

/-- A finished writer has the string of the flush: the flush leaves nothing pending to drop. -/
theorem written_finished {s : State} (hc : s.cfg.wf) (hInv : WriterInv s)
    (hfit : s.wpos.toNat = 0 ∨ s.wlen.toNat + 1 ≤ s.cfg.outCap) :
    Written (bitsAfter .wFin s.a0 (outBits s))
      { flushed s with wacc := 0, wpos := 0, wopen := false, r0 := (flushed s).wlen } := by
  obtain ⟨hc', ⟨-, hLen, -⟩, hBits⟩ := written_flushed hc hInv hfit
  refine ⟨hc', writerInv_of_noPending rfl rfl hLen, Eq.trans ?_ hBits⟩
  rw [outBits, outBits, flushed_wpos]
  rfl

/-- What a push, checked and fitting, completes with. -/
theorem push_written {i : Instr} {s : State} {w v : Nat} (hp : pushField i s = some (w, v)) (hc : s.cfg.wf)
    (hInv : WriterInv s) : Ensures (rule i s) (Written (outBits s ++ bitsOf w v)) := by
  intro c h
  rw [rule_of_pushField hp] at h
  obtain ⟨ho, h⟩ := needWriter_ok h
  obtain ⟨-, h⟩ := needWidth_ok h
  obtain ⟨hfit, e⟩ | ⟨-, e⟩ := appendBits_cases s w v <;> rw [e] at h <;> cases h
  exact written_appended hc hInv ho hfit v

/-- Every writer command that completes leaves the string `bitsAfter` says. -/
theorem rule_written {i : Instr} {s : State} (hi : i.family = .writer) (hc : s.cfg.wf) (hInv : WriterInv s) :
    Ensures (rule i s) (Written (bitsAfter i s.a0 (outBits s))) := by
  cases i with
  | wNew => exact ensures_value ⟨hc, writerInv_of_noPending rfl rfl (Nat.zero_le _), rfl⟩
  | wPush | wPbool | wPbyte | wPnib => exact push_written rfl hc hInv
  | wAlign =>
    refine ensures_needWriter ?_
    obtain ⟨hfit, e⟩ | ⟨-, -, e⟩ := flush_cases s <;> rw [e]
    · exact ensures_value (written_flushed hc hInv hfit)
    · exact ensures_error _
  | wBitcnt => exact ensures_needWriter (ensures_value ⟨hc, hInv, rfl⟩)
  | wFin =>
    refine ensures_needWriter ?_
    obtain ⟨hfit, e⟩ | ⟨-, -, e⟩ := flush_cases s <;> rw [e]
    · exact ensures_value (written_finished hc hInv hfit)
    · exact ensures_error _
  | _ => cases hi

/-! ### A run of writer commands -/

/-- A command that leaves a unit serving was served and did not fault: what its rule ensures holds after it. -/
theorem exec_ensures_of_serving {P : State → Prop} {i : Instr} {s t : State}
    (hValue : ∀ u v, P u → P { u with stV := v }) (hRule : Serving s → Ensures (rule i s) P)
    (h : exec i s = .next t) (hF : Serving t) : P t := by
  obtain ⟨hFault, rfl⟩ | ⟨hServing, ⟨u, hu, rfl⟩ | ⟨u, hu, rfl⟩ | ⟨c, -, rfl⟩⟩ := exec_next h
  · exact absurd hFault (by simp [hF])
  · exact hValue u true (hRule hServing _ hu)
  · exact hValue u false (hRule hServing _ hu)
  · cases hF

/-- As long as no command has faulted, the output bit string is `bits`. -/
def WrittenUnlessFaulted (bits : List Bool) (s : State) : Prop :=
  Serving s → Written bits s

theorem exec_written {i : Instr} {s t : State} {bits : List Bool} (hi : i.family = .writer)
    (hs : WrittenUnlessFaulted bits s) (h : exec i s = .next t) :
    WrittenUnlessFaulted (bitsAfter i s.a0 bits) t := by
  refine exec_ensures_of_serving (fun _ _ hu => hu) (fun hF => ?_) h
  obtain ⟨hc, hInv, rfl⟩ := hs hF
  exact rule_written hi hc hInv

theorem perform_singleton (s : State) (a : HostAction) : perform s [a] = act s a := by
  simp only [perform]
  cases act s a <;> rfl

/-- A command after its operand is set (R131) is the command with that operand. -/
theorem perform_writerCall (s : State) (i : Instr) (a : Word) :
    perform s [.writeReg 3 a, issueOf i] = exec i { s with a0 := a } := by
  rw [perform_cons (t := { s with a0 := a }) rfl, perform_singleton, act_issueOf]

theorem writerCalls_written {calls : List (Instr × Word)} (hCalls : ∀ c ∈ calls, c.1.family = .writer)
    {s t : State} {bits : List Bool} (hs : WrittenUnlessFaulted bits s)
    (h : perform s (writerCalls calls) = .next t) :
    WrittenUnlessFaulted (calls.foldl (fun bits c => bitsAfter c.1 c.2 bits) bits) t := by
  induction calls generalizing s bits with
  | nil =>
    cases h
    exact hs
  | cons c calls ih =>
    obtain ⟨hc, hCalls⟩ := List.forall_mem_cons.1 hCalls
    obtain ⟨u, hu, h⟩ := perform_append_next (l := [.writeReg 3 c.2, issueOf c.1]) h
    rw [perform_writerCall] at hu
    exact ih hCalls (exec_written (s := { s with a0 := c.2 }) hc hs hu) h

/-- `W.FIN` that leaves a unit serving returns the byte count and leaves nothing pending. -/
theorem exec_wFin_counts {s t : State} (h : exec .wFin s = .next t) (hF : Serving t) :
    t.r0 = t.wlen ∧ t.wpos = 0 := by
  refine exec_ensures_of_serving (P := fun u => u.r0 = u.wlen ∧ u.wpos = 0) (fun _ _ hu => hu) (fun _ => ?_) h hF
  refine ensures_needWriter ?_
  obtain ⟨-, e⟩ | ⟨-, -, e⟩ := flush_cases s <;> rw [e]
  · exact ensures_value ⟨rfl, rfl⟩
  · exact ensures_error _

/-- A whole writing session that ends without a fault. -/
theorem session_written {s t : State} {calls : List (Instr × Word)} (hInv : Inv s)
    (hCalls : ∀ c ∈ calls, c.1.family = .writer)
    (h : perform s (issueOf .wNew :: writerCalls calls ++ [issueOf .wFin]) = .next t) (hF : Serving t) :
    t.r0 = t.wlen ∧ t.wpos = 0 ∧ outBits t = finishedBits calls := by
  obtain ⟨hc, -, hWriter, -, -⟩ := hInv
  obtain ⟨v, hv, h⟩ := perform_append_next h
  obtain ⟨u, hu, hv⟩ := perform_append_next (l := [issueOf .wNew]) hv
  rw [perform_singleton, act_issueOf] at hu h
  have hNew : WrittenUnlessFaulted [] u := exec_written (i := .wNew) rfl (fun _ => ⟨hc, hWriter, rfl⟩) hu
  have hFin := exec_written (i := .wFin) rfl (writerCalls_written hCalls hNew hv) h
  obtain ⟨-, -, hBits⟩ := hFin hF
  obtain ⟨hR, hPos⟩ := exec_wFin_counts h hF
  exact ⟨hR, hPos, hBits⟩

/-! ### The bytes of the output bit string -/

/-- A byte is its eight bits. -/
theorem byte_eq_of_bitsOf_eq {b b' : Byte} (h : bitsOf 8 b.toNat = bitsOf 8 b'.toNat) : b = b' := by
  refine BitVec.eq_of_getLsbD_eq fun j hj => ?_
  exact List.map_inj_left.1 h j (List.mem_range.2 hj)

/-- Byte `k` of the buffer is the eight bits of the output bit string from `8k` on. -/
theorem bitsOf_outCell {s : State} {k : Nat} (hk : k < s.wlen.toNat) :
    bitsOf 8 (s.outCell k).toNat = ((outBits s).drop (8 * k)).take 8 := by
  obtain ⟨m, hm⟩ : ∃ m, s.wlen.toNat = k + (m + 1) := ⟨s.wlen.toNat - k - 1, by omega⟩
  rw [outBits, hm, List.range_add, List.flatMap_append, List.append_assoc,
    List.drop_left' (by simp [List.length_flatMap, Nat.mul_comm]), List.range_succ_eq_map, List.map_cons,
    List.flatMap_cons, List.append_assoc, List.take_left' (length_bitsOf _ _)]
  rfl

/-- Settles O53: both finished strings are the one that `finishedBits` computes from the commands; its length gives
`R0` and its bits the bytes. -/
theorem theFinishedBufferDependsOnTheCommandsAlone : Obligations.TheFinishedBufferDependsOnTheCommandsAlone := by
  intro s s' t t' calls hInv hInv' _ _ hCalls h h' hF hF'
  obtain ⟨hR, hPos, hBits⟩ := session_written hInv hCalls h hF
  obtain ⟨hR', hPos', hBits'⟩ := session_written hInv' hCalls h' hF'
  have hSame : outBits t = outBits t' := hBits.trans hBits'.symm
  have hLen : t.wlen = t'.wlen := by
    have := congrArg List.length hSame
    rw [length_outBits, length_outBits, hPos, hPos'] at this
    exact BitVec.eq_of_toNat_eq (by omega)
  refine ⟨by rw [hR, hR', hLen], fun k hk => byte_eq_of_bitsOf_eq ?_⟩
  rw [hR] at hk
  rw [bitsOf_outCell hk, bitsOf_outCell (hLen ▸ hk), hSame]

end Sys2Proof.Machine
end

