-- ==== Sys2Proof/Proofs/Reader.lean ====
section
/-! The reader commands (42_reader.md R142 to R155): the two ends of a rule that checks for a reader, the one rule of
the bit reads, the alignment, then the raw reads. -/

namespace Sys2Proof.Machine

/-! ### A command whose rule checks for a reader first -/

theorem exec_withReader (i : Instr) {s : State} {b : Body} (hF : Serving s) (hRule : rule i s = needReader s b)
    (ho : s.ropen = true) : exec i s = finish s b := by
  rw [exec_of_serving hF, hRule, needReader_of_open ho]

theorem exec_withoutReader (i : Instr) {s : State} {b : Body} (hF : Serving s) (hRule : rule i s = needReader s b)
    (ho : s.ropen = false) : exec i s = .next (s.raise .readerNotOpen) := by
  rw [exec_of_serving hF, hRule, needReader_of_closed ho]
  rfl

/-! ### The new reader (R142) -/

/-- Settles O41: the capacity test is the rule's only branch. -/
theorem rNewOpensAReader : Obligations.RNewOpensAReader := by
  refine ⟨decode_encode .rNew, fun s hF => (exec_of_serving hF .rNew).trans ?_⟩
  simp only [rule, ruleRNew]
  split <;> rfl

/-- `R.NEW` of a length within the capacity. -/
theorem exec_rNew_fits {s : State} (hF : Serving s) (h : s.a0.toNat ≤ s.cfg.inCap) :
    exec .rNew s = .next { s with ropen := true, rlen := s.a0, ridx := 0, racc := 0, rleft := 0, stV := true } := by
  rw [rNewOpensAReader.2 s hF, if_neg (Nat.not_lt.2 h)]

/-! ### The bit reads (R143 to R148)

They share one rule: the reader check, the width check, then `bitRead`, which differs in what it leaves of the pulled
bits. -/

section bitRead

variable {i : Instr} {s : State} {w : Nat} {k : Pulled → State}

/-- The four consuming reads have one rule; the width check of a read whose width is fixed always passes. -/
theorem rule_of_bitReadWidth (h : bitReadWidth i s = some w) :
    rule i s = needReader s (needWidth w (takeBits s w)) := by
  cases i with
  | rBool | rNib | rByte | rBits =>
    cases h
    rfl
  | _ => cases h

theorem exec_bitRead_badWidth (hRule : rule i s = needReader s (needWidth w (bitRead s w k))) (hF : Serving s)
    (ho : s.ropen = true) (hw : ¬(1 ≤ w ∧ w ≤ 24)) : exec i s = .next (s.raise .invalidBitWidth) := by
  rw [exec_withReader i hF hRule ho, needWidth_of_invalid hw]
  rfl

/-- With fewer than `w` bits left a bit read ends with no value. -/
theorem exec_bitRead_short (hRule : rule i s = needReader s (needWidth w (bitRead s w k))) (hF : Serving s)
    (ho : s.ropen = true) (hw : 1 ≤ w ∧ w ≤ 24) (h : avail s < w) : exec i s = .next s.withoutValue := by
  rw [exec_withReader i hF hRule ho, needWidth_of_valid hw, bitRead, if_pos h]
  rfl

/-- With `w` bits left a bit read ends with a value, in what it makes of the pulled bits. -/
theorem exec_bitRead_enough {q : Pulled} (hRule : rule i s = needReader s (needWidth w (bitRead s w k)))
    (hF : Serving s) (ho : s.ropen = true) (hw : 1 ≤ w ∧ w ≤ 24) (h : w ≤ avail s) (hFill : fill s w = .ok q) :
    exec i s = .next (k q).withValue := by
  rw [exec_withReader i hF hRule ho, needWidth_of_valid hw, bitRead, if_neg (Nat.not_lt.2 h), hFill]
  rfl

end bitRead

/-- "Too few bits left", by `avail` (10_state.md R40) and by the logical position (R41). -/
theorem avail_lt_iff {s : State} (hr : ReaderInv s) (w : Nat) :
    avail s < w ↔ 8 * s.rlen.toNat < rbitpos s + w := by
  rw [← Nat.not_le, avail_le_iff hr, Nat.not_le]

/-- What `fill(w)` leaves in its local values (R141): at least `w` bits, from no more bytes than it takes. -/
structure JustPulled (s : State) (w : Nat) (q : Pulled) : Prop where
  inv : PulledInv s q
  enough : w ≤ q.left
  fits : q.left < 2 ^ 5
  idx_eq : q.idx = s.ridx.toNat + (w - s.rleft.toNat + 7) / 8
  left_eq : q.left = s.rleft.toNat + 8 * ((w - s.rleft.toNat + 7) / 8)

theorem fill_pulls {s : State} {w : Nat} (hr : ReaderInv s) (hw : w ≤ 24) (h : w ≤ avail s) :
    ∃ q, fill s w = .ok q ∧ JustPulled s w q := by
  obtain ⟨q, hFill, hInv, hEnough, -, hLast⟩ := fill_spec hr h
  have hPosition := hInv.position
  have hRidx := hInv.ridx_le
  have hRound : q.idx = s.ridx.toNat + (w - s.rleft.toNat + 7) / 8 := by
    obtain rfl | hLast := hLast
    · simp only [pulledStart] at hEnough ⊢
      omega
    · omega
  exact ⟨q, hFill, hInv, hEnough, PulledInv.left_lt hw hLast, hRound, by omega⟩

/-- The accumulator of a coherent reader is the field of the buffered bits (R157). -/
theorem racc_eq_field {s : State} (hr : ReaderInv s) (hc : Coherent s) :
    s.racc.toNat = field s (rbitpos s) s.rleft.toNat := by
  obtain ⟨-, -, -, hAcc, -⟩ := hr
  have hBits : s.racc.toNat % 2 ^ s.rleft.toNat = field s (rbitpos s) s.rleft.toNat :=
    mod_eq_field fun j hj => (BitVec.testBit_toNat s.racc).trans (hc j hj)
  rwa [Nat.mod_eq_of_lt hAcc] at hBits

section justPulled

variable {s : State} {w c : Nat} {q : Pulled}

/-- What stays in the accumulator after `c` of the pulled bits are consumed is the field after them. -/
theorem JustPulled.racc_consume (hq : JustPulled s w q) (hr : ReaderInv s) (hc : Coherent s) (ho : s.ropen = true)
    (hcw : c ≤ w) :
    (consumePulled s c q).racc.toNat = field s (rbitpos s + c) (consumePulled s c q).rleft.toNat := by
  have hle : c ≤ q.left := hcw.trans hq.enough
  calc (consumePulled s c q).racc.toNat
      = field (consumePulled s c q) (rbitpos (consumePulled s c q)) (consumePulled s c q).rleft.toNat :=
        racc_eq_field (readerInv_consume hr ho hq.inv hq.fits hle) (coherent_consume hr hc hq.inv hq.fits hle)
    _ = field s (rbitpos s + c) (consumePulled s c q).rleft.toNat := by
        rw [rbitpos_consume hr hq.inv hq.fits hle]
        exact field_congr (s := s) (t := consumePulled s c q) rfl _ _

/-- The low `w` of the pulled bits fit a result register uncut. -/
theorem JustPulled.toNat_low (hq : JustPulled s w q) :
    (BitVec.ofNat 32 (q.acc % 2 ^ w)).toNat = q.acc % 2 ^ w := by
  have hPow : 2 ^ w ≤ 2 ^ 32 := Nat.pow_le_pow_right (by omega) (by have := hq.enough; have := hq.fits; omega)
  exact toNat_ofNat_of_lt (lt_of_lt_of_le (Nat.mod_lt _ (Nat.two_pow_pos w)) hPow)

end justPulled

/-- Settles O42: the checks of the reads' one rule in their order, then what consuming `w` of the pulled bits leaves. -/
theorem bitReadsReturnTheFieldAtThePosition : Obligations.BitReadsReturnTheFieldAtThePosition := by
  refine ⟨decode_encode .rBits, decode_encode .rBool, decode_encode .rNib, decode_encode .rByte,
    fun i s w hi hr hc hF => ?_⟩
  have hRule := rule_of_bitReadWidth hi
  refine ⟨exec_withoutReader i hF hRule, exec_bitRead_badWidth hRule hF, fun ho h₁ h₂₄ => ⟨fun h => ?_, fun h => ?_⟩⟩
  · have hAvail := (avail_le_iff hr w).2 h
    obtain ⟨q, hFill, hq⟩ := fill_pulls hr h₂₄ hAvail
    obtain ⟨-, hLeft, hIdx⟩ := consumePulled_toNat hq.inv hq.fits hq.enough
    exact ⟨_, exec_bitRead_enough hRule hF ho ⟨h₁, h₂₄⟩ hAvail hFill,
      hq.toNat_low.trans (pulled_field hc hq.inv hq.enough), rbitpos_consume hr hq.inv hq.fits hq.enough,
      hIdx.trans hq.idx_eq, hLeft.trans (by rw [hq.left_eq]), hq.racc_consume hr hc ho le_rfl, rfl⟩
  · exact exec_bitRead_short hRule hF ho ⟨h₁, h₂₄⟩ ((avail_lt_iff hr w).2 h)

/-- Settles O43: as the reads of O42, with all of the pulled bits kept. -/
theorem peekReturnsTheFieldAndStays : Obligations.PeekReturnsTheFieldAndStays := by
  refine ⟨decode_encode .rPeek, fun s hr hc hF => ⟨exec_withoutReader .rPeek hF rfl,
    exec_bitRead_badWidth rfl hF, fun ho h₁ h₂₄ => ⟨fun h => ?_, fun h => ?_⟩⟩⟩
  · have hAvail := (avail_le_iff hr _).2 h
    obtain ⟨q, hFill, hq⟩ := fill_pulls hr h₂₄ hAvail
    obtain ⟨-, hLeft, hIdx⟩ := consumePulled_toNat hq.inv hq.fits (Nat.zero_le _)
    refine ⟨_, exec_bitRead_enough rfl hF ho ⟨h₁, h₂₄⟩ hAvail hFill, ?_⟩
    rw [keepPulled_eq]
    exact ⟨hq.toNat_low.trans (pulled_field hc hq.inv hq.enough),
      rbitpos_consume hr hq.inv hq.fits (Nat.zero_le _), hIdx.trans hq.idx_eq, hLeft.trans hq.left_eq,
      hq.racc_consume hr hc ho (Nat.zero_le _), rfl⟩
  · exact exec_bitRead_short rfl hF ho ⟨h₁, h₂₄⟩ ((avail_lt_iff hr _).2 h)

/-- The state a peek of `w` bits that pulled `q` leaves (R147). -/
def peeked (s : State) (w : Nat) (q : Pulled) : State :=
  State.withValue { keepPulled s q with r0 := BitVec.ofNat 32 (q.acc % 2 ^ w) }

theorem exec_rPeek_enough {s : State} {q : Pulled} (hF : Serving s) (ho : s.ropen = true)
    (hw : 1 ≤ s.a0.toNat ∧ s.a0.toNat ≤ 24) (h : s.a0.toNat ≤ avail s) (hFill : fill s s.a0.toNat = .ok q) :
    exec .rPeek s = .next (peeked s s.a0.toNat q) :=
  (exec_bitRead_enough (i := .rPeek) rfl hF ho hw h hFill).trans rfl

/-- What a peek pulled is what a read after it starts from. -/
theorem JustPulled.pulledStart_peeked {s : State} {w : Nat} {q : Pulled} (hq : JustPulled s w q) :
    pulledStart (peeked s w q) = q := by
  obtain ⟨hAcc, hLeft, hIdx⟩ := consumePulled_toNat hq.inv hq.fits (Nat.zero_le _)
  rw [← keepPulled_eq] at hAcc hLeft hIdx
  rw [Nat.pow_zero, Nat.div_one] at hAcc
  calc pulledStart (peeked s w q)
      = ⟨(keepPulled s q).racc.toNat, (keepPulled s q).rleft.toNat, (keepPulled s q).ridx.toNat⟩ := rfl
    _ = q := by rw [hAcc, hLeft, hIdx, Nat.sub_zero]

/-- Settles O44: after a peek the bits are buffered, so a second peek pulls nothing and a read consumes what the peek
returned; with too few bits left nothing but `ST.V` changes each time. -/
theorem peekingTwiceAndThenReading : Obligations.PeekingTwiceAndThenReading := by
  intro s hr hF ho h₁ h₂₄
  have hw : 1 ≤ s.a0.toNat ∧ s.a0.toNat ≤ 24 := ⟨h₁, h₂₄⟩
  rcases Nat.lt_or_ge (avail s) s.a0.toNat with hShort | hAvail
  · have hPeek : exec .rPeek s = .next s.withoutValue := exec_bitRead_short rfl hF ho hw hShort
    have hAgain : exec .rPeek s.withoutValue = .next s.withoutValue := exec_bitRead_short rfl hF ho hw hShort
    have hRead : exec .rBits s.withoutValue = .next s.withoutValue := exec_bitRead_short rfl hF ho hw hShort
    exact ⟨_, _, hPeek, hAgain, hRead, rfl, rfl, hF, rfl⟩
  · obtain ⟨q, hFill, hq⟩ := fill_pulls hr h₂₄ hAvail
    have hPeek := exec_rPeek_enough hF ho hw hAvail hFill
    have hStart := hq.pulledStart_peeked
    have hBuffered : s.a0.toNat ≤ (peeked s s.a0.toNat q).rleft.toNat :=
      hq.enough.trans_eq (congrArg Pulled.left hStart).symm
    have hAvail' : s.a0.toNat ≤ avail (peeked s s.a0.toNat q) := hBuffered.trans (Nat.le_add_right _ _)
    have hFill' : fill (peeked s s.a0.toNat q) s.a0.toNat = .ok q := by rw [fill_enough hBuffered, hStart]
    have hAgain : exec .rPeek (peeked s s.a0.toNat q) = .next (peeked s s.a0.toNat q) :=
      exec_rPeek_enough (s := peeked s s.a0.toNat q) hF ho hw hAvail' hFill'
    have hRead := exec_bitRead_enough (i := .rBits) (s := peeked s s.a0.toNat q) rfl hF ho hw hAvail' hFill'
    refine ⟨_, _, hPeek, hAgain, hRead, ?_, rfl, hF, rfl⟩
    calc rbitpos (peeked s s.a0.toNat q) = rbitpos (consumePulled s 0 q) := by rw [← keepPulled_eq]; rfl
      _ = rbitpos s := rbitpos_consume hr hq.inv hq.fits (Nat.zero_le _)

/-- Settles O45: both commands pass the same checks and pull the same bytes; they differ in `R0` alone. -/
theorem advanceIsAReadWithoutResult : Obligations.AdvanceIsAReadWithoutResult := by
  refine ⟨decode_encode .rAdv, fun s hr hF => ⟨fun ho => ?closed, fun ho hw => ?badWidth, fun ho h₁ h₂₄ => ?_⟩⟩
  case closed =>
    have hAdv : exec .rAdv s = .next (s.raise .readerNotOpen) := exec_withoutReader .rAdv hF rfl ho
    exact ⟨hAdv, (exec_withoutReader .rBits hF rfl ho).trans hAdv.symm⟩
  case badWidth =>
    have hAdv : exec .rAdv s = .next (s.raise .invalidBitWidth) := exec_bitRead_badWidth rfl hF ho hw
    exact ⟨hAdv, (exec_bitRead_badWidth rfl hF ho hw).trans hAdv.symm⟩
  rcases Nat.lt_or_ge (avail s) s.a0.toNat with hShort | hAvail
  · have hNot : ¬ rbitpos s + s.a0.toNat ≤ 8 * s.rlen.toNat := Nat.not_le.2 ((avail_lt_iff hr _).1 hShort)
    exact ⟨_, _, exec_bitRead_short rfl hF ho ⟨h₁, h₂₄⟩ hShort, exec_bitRead_short rfl hF ho ⟨h₁, h₂₄⟩ hShort, rfl,
      (decide_eq_false hNot).symm, fun hV => absurd hV Bool.false_ne_true, fun _ => rfl⟩
  · obtain ⟨q, hFill, hq⟩ := fill_pulls hr h₂₄ hAvail
    exact ⟨_, _, exec_bitRead_enough rfl hF ho ⟨h₁, h₂₄⟩ hAvail hFill,
      exec_bitRead_enough rfl hF ho ⟨h₁, h₂₄⟩ hAvail hFill, rfl,
      (decide_eq_true ((avail_le_iff hr _).1 hAvail)).symm,
      fun _ => rbitpos_consume hr hq.inv hq.fits hq.enough, fun hV => absurd hV.symm Bool.false_ne_true⟩

/-! ### The alignment and the raw reads (R149 to R153) -/

/-- The aligned reader in the words of the accumulator's shift. -/
theorem alignReader_eq (s : State) :
    alignReader s = { s with
      racc := s.racc >>> (s.rleft.toNat % 8), rleft := BitVec.ofNat 5 (s.rleft.toNat - s.rleft.toNat % 8) } := by
  have hAcc : BitVec.ofNat 32 (s.racc.toNat / 2 ^ (s.rleft.toNat % 8)) = s.racc >>> (s.rleft.toNat % 8) := by
    apply BitVec.eq_of_toNat_eq
    rw [← alignReader_racc, (alignReader_toNat s).1, BitVec.toNat_ushiftRight, Nat.shiftRight_eq_div_pow]
  rw [← hAcc]
  rfl

/-- Settles O46: the rule has no branch after the reader check. -/
theorem rAlignDropsThePartialByte : Obligations.RAlignDropsThePartialByte := by
  refine ⟨decode_encode .rAlign, fun s hr hF => ⟨exec_withoutReader .rAlign hF rfl, fun ho => ?_⟩⟩
  refine ⟨_, (exec_withReader .rAlign hF rfl ho).trans rfl, ?_, rbitpos_align hr⟩
  rw [alignReader_eq]
  rfl

theorem rawTaken_eq {s : State} (hr : ReaderInv s) (n : Nat) :
    rawTaken s n = { s with ridx := BitVec.ofNat 32 ((rbitpos s + 7) / 8 + n), racc := 0, rleft := 0 } := by
  rw [rawTaken, bytePos_align hr]
  rfl

/-- `raw_take(n)` with `n` bytes left from the aligned position (R150). -/
theorem rawTake_enough {s : State} {n : Nat} (hr : ReaderInv s) (h : (rbitpos s + 7) / 8 + n ≤ s.rlen.toNat) :
    rawTake s n = (rawTaken s n, some ((rbitpos s + 7) / 8)) := by
  obtain ⟨hShort, -⟩ | ⟨-, e⟩ := rawTake_cases s n
  · rw [bytePos_align hr] at hShort
    omega
  · rw [e, bytePos_align hr]

/-- `raw_take(n)` with fewer bytes left from the aligned position (R150). -/
theorem rawTake_short {s : State} {n : Nat} (hr : ReaderInv s) (h : s.rlen.toNat < (rbitpos s + 7) / 8 + n) :
    rawTake s n = (alignReader s, none) := by
  obtain ⟨-, e⟩ | ⟨hEnough, -⟩ := rawTake_cases s n
  · exact e
  · rw [bytePos_align hr] at hEnough
    obtain ⟨hIdx, -⟩ := hr
    rw [rbitpos] at h hEnough
    omega

/-- The two range reads have one rule. -/
theorem rule_of_rangeRead {i : Instr} (hi : i = .rNxarr ∨ i = .rNxslc) (s : State) :
    rule i s = needReader s (takeRange s s.a0.toNat) := by
  obtain rfl | rfl := hi <;> rfl

/-- A range read with the bytes left is `raw_take` with its range in the results (R152, R153). -/
theorem exec_rangeRead_enough {i : Instr} {s : State} (hi : i = .rNxarr ∨ i = .rNxslc) (hF : Serving s)
    (ho : s.ropen = true) (hr : ReaderInv s) (h : (rbitpos s + 7) / 8 + s.a0.toNat ≤ s.rlen.toNat) :
    exec i s = .next (State.withValue { rawTaken s s.a0.toNat with
      r0 := BitVec.ofNat 32 ((rbitpos s + 7) / 8), r1 := s.a0 }) := by
  rw [exec_withReader i hF (rule_of_rangeRead hi s) ho, takeRange, rawTake_enough hr h]
  simp only [BitVec.ofNat_toNat, BitVec.setWidth_eq]
  rfl

/-- Settles O47: the commands' one rule ends as `raw_take` does. -/
theorem rangeReadsTakeBytesAtThePosition : Obligations.RangeReadsTakeBytesAtThePosition := by
  refine ⟨decode_encode .rNxarr, decode_encode .rNxslc, fun s hr hF i hi =>
    ⟨exec_withoutReader i hF (rule_of_rangeRead hi s), fun ho => ⟨fun h => ?_, fun h => ?_⟩⟩⟩
  · rw [exec_rangeRead_enough hi hF ho hr h, rawTaken_eq hr]
    rfl
  · rw [exec_withReader i hF (rule_of_rangeRead hi s) ho, takeRange, rawTake_short hr h, alignReader_eq]
    rfl

/-- `R.NXBYTE` with a byte left is `raw_take(1)` with the byte in `R0` (R151). -/
theorem exec_rNxbyte_enough {s : State} (hF : Serving s) (ho : s.ropen = true) (hr : ReaderInv s)
    (h : (rbitpos s + 7) / 8 + 1 ≤ s.rlen.toNat) :
    exec .rNxbyte s = .next (State.withValue { rawTaken s 1 with
      r0 := (s.inCell ((rbitpos s + 7) / 8)).setWidth 32 }) := by
  have hRead : readIn (rawTaken s 1) ((rbitpos s + 7) / 8) = .ok (s.inCell ((rbitpos s + 7) / 8)) :=
    readIn_ok (s := rawTaken s 1) h (lt_of_lt_of_le h hr.2.1)
  rw [exec_withReader .rNxbyte hF rfl ho]
  simp only [rawTake_enough hr h, hRead, BitVec.ofNat_toNat]
  rfl

/-- Settles O48: the read ends as `raw_take(1)` does, and a byte it finds lies in the slice. -/
theorem nextByteReadReturnsTheByte : Obligations.NextByteReadReturnsTheByte := by
  refine ⟨decode_encode .rNxbyte, fun s hr hF => ⟨exec_withoutReader .rNxbyte hF rfl, fun ho =>
    ⟨fun h => ?_, fun h => ?_⟩⟩⟩
  · rw [exec_rNxbyte_enough hF ho hr h, rawTaken_eq hr]
    rfl
  · rw [exec_withReader .rNxbyte hF rfl ho, rawTake_short hr h, alignReader_eq]
    rfl

end Sys2Proof.Machine
end

