-- ==== Sys2Proof/Proofs/RoundTrip.lean ====
section
/-! The laws of the round trip and of alignment (42_reader.md R156, R158). The output bit string of a finished stream
is computed from its items; the copy makes it the reader's bit string; and the reader, standing where the writer stood
before an item, finds that item next. -/

namespace Sys2Proof.Machine

/-! ### The bit string of a stream -/

/-- A string padded with zeros to a whole number of bytes (41_writer.md R126). -/
def padded (bits : List Bool) : List Bool :=
  bits ++ List.replicate ((8 - bits.length % 8) % 8) false

theorem length_padded (bits : List Bool) : (padded bits).length = 8 * ((bits.length + 7) / 8) := by
  simp only [padded, List.length_append, List.length_replicate]
  omega

/-- The bits of bytes in a row. -/
def bytesBits (bytes : List Byte) : List Bool :=
  bytes.flatMap fun b => bitsOf 8 b.toNat

theorem length_bytesBits (bytes : List Byte) : (bytesBits bytes).length = 8 * bytes.length := by
  simp [bytesBits, List.length_flatMap, Nat.mul_comm]

/-- The string after an item is written at its end. -/
def Item.after (bits : List Bool) : Item → List Bool
  | .field w v => bits ++ bitsOf w v
  | .align => padded bits
  | .raw bytes => padded bits ++ bytesBits bytes

/-- The string after the items are written at its end and the stream is finished. -/
def finishedAfter (bits : List Bool) (items : List Item) : List Bool :=
  padded (items.foldl Item.after bits)

theorem Item.after_extends (bits : List Bool) (x : Item) : ∃ l, x.after bits = bits ++ l := by
  cases x with
  | field w v => exact ⟨_, rfl⟩
  | align => exact ⟨_, rfl⟩
  | raw bytes => exact ⟨_, List.append_assoc ..⟩

/-- What is written stays: later items and the end only add bits. -/
theorem finishedAfter_extends (bits : List Bool) (items : List Item) : ∃ l, finishedAfter bits items = bits ++ l := by
  induction items generalizing bits with
  | nil => exact ⟨_, rfl⟩
  | cons x items ih =>
    obtain ⟨l, hl⟩ := x.after_extends bits
    obtain ⟨l', hl'⟩ := ih (x.after bits)
    exact ⟨l ++ l', by rw [← List.append_assoc, ← hl, ← hl']; rfl⟩

theorem Item.wf_field_iff (w v : Nat) : (Item.field w v).wf = true ↔ (1 ≤ w ∧ w ≤ 24) ∧ v < 2 ^ w := by
  simp [Item.wf]

/-- The TBV of a field a writer can take holds the field (10_state.md R31). -/
theorem tbv_of_field {w v : Nat} (h : (Item.field w v).wf = true) :
    tbvWidth (mkTbv w v) = w ∧ tbvPayload (mkTbv w v) = v := by
  obtain ⟨⟨-, h₂₄⟩, hv⟩ := (Item.wf_field_iff w v).1 h
  have hv' : v < 2 ^ 24 := lt_of_lt_of_le hv (Nat.pow_le_pow_right (by omega) h₂₄)
  exact ⟨tbvWidth_mkTbv (by omega) v, (tbvPayload_mkTbv (by omega) v).trans (Nat.mod_eq_of_lt hv')⟩

/-! ### The string a stream leaves in the writer -/

/-- A run of `W.PBYTE` adds the bits of its bytes. -/
theorem foldl_wPbyte (bits : List Bool) (bytes : List Byte) :
    (bytes.map fun b => (Instr.wPbyte, b.setWidth 32)).foldl (fun bits c => bitsAfter c.1 c.2 bits) bits =
      bits ++ bytesBits bytes := by
  induction bytes generalizing bits with
  | nil => exact (List.append_nil bits).symm
  | cons b bytes ih =>
    have hByte : lowBits 8 (b.setWidth 32) = b.toNat := by
      have := b.isLt
      rw [lowBits, BitVec.toNat_setWidth]
      omega
    rw [List.map_cons, List.foldl_cons, ih, bitsAfter, hByte, List.append_assoc]
    rfl

/-- An item whose writing does not fault adds its bits. -/
theorem item_written {x : Item} (hx : x.wf = true) {s t : State} {bits : List Bool}
    (hs : WrittenUnlessFaulted bits s) (h : perform s x.writes = .next t) :
    WrittenUnlessFaulted (x.after bits) t := by
  cases x with
  | field w v =>
    obtain ⟨hw, hv⟩ := tbv_of_field hx
    rw [Item.writes, call] at h
    have hPush := writerCalls_written (calls := [(.wPush, mkTbv w v)]) (List.forall_mem_singleton.2 rfl) hs h
    rwa [List.foldl_cons, List.foldl_nil, bitsAfter, hw, hv] at hPush
  | align =>
    rw [Item.writes, perform_singleton, act_issueOf] at h
    exact exec_written (i := .wAlign) rfl hs h
  | raw bytes =>
    obtain ⟨u, hu, h⟩ := perform_append_next (l := [issueOf .wAlign]) h
    rw [perform_singleton, act_issueOf] at hu
    have hAlign : WrittenUnlessFaulted (padded bits) u := exec_written (i := .wAlign) rfl hs hu
    have hRun := writerCalls_written (calls := bytes.map fun b => (.wPbyte, b.setWidth 32))
      (by simp [Instr.family]) hAlign (by rw [writerCalls, List.flatMap_map]; exact h)
    rwa [foldl_wPbyte] at hRun

theorem items_written {items : List Item} (hItems : ∀ x ∈ items, x.wf = true) {s t : State} {bits : List Bool}
    (hs : WrittenUnlessFaulted bits s) (h : perform s (items.flatMap Item.writes) = .next t) :
    WrittenUnlessFaulted (items.foldl Item.after bits) t := by
  induction items generalizing s bits with
  | nil =>
    cases h
    exact hs
  | cons x items ih =>
    obtain ⟨hx, hItems⟩ := List.forall_mem_cons.1 hItems
    obtain ⟨u, hu, h⟩ := perform_append_next h
    exact ih hItems (item_written hx hs hu) h

/-- A whole stream whose writing ends without a fault. -/
theorem stream_written {items : List Item} (hItems : ∀ x ∈ items, x.wf = true) {s t : State} (hInv : Inv s)
    (h : perform s (writeStream items) = .next t) (hF : Serving t) :
    t.r0 = t.wlen ∧ t.wpos = 0 ∧ outBits t = finishedAfter [] items := by
  obtain ⟨hc, -, hWriter, -, -⟩ := hInv
  obtain ⟨v, hv, h⟩ := perform_append_next h
  obtain ⟨u, hu, hv⟩ := perform_append_next (l := [issueOf .wNew]) hv
  rw [perform_singleton, act_issueOf] at hu h
  have hNew : WrittenUnlessFaulted [] u := exec_written (i := .wNew) rfl (fun _ => ⟨hc, hWriter, rfl⟩) hu
  have hFin := exec_written (i := .wFin) rfl (items_written hItems hNew hv) h
  obtain ⟨-, -, hBits⟩ := hFin hF
  obtain ⟨hR, hPos⟩ := exec_wFin_counts h hF
  exact ⟨hR, hPos, hBits⟩

/-! ### A reader that stands in a bit string -/

/-- The reader's bit string, `IN[0..RLEN)` (00_scope.md R12). -/
def inBits (s : State) : List Bool :=
  (List.range (8 * s.rlen.toNat)).map (streamBit s)

theorem streamBit_cell (s : State) (q : Nat) {j : Nat} (hj : j < 8) :
    streamBit s (8 * q + j) = (s.inCell q).getLsbD j := by
  rw [streamBit, show (8 * q + j) / 8 = q by omega, show (8 * q + j) % 8 = j by omega]

/-- The bits of the cells, one cell after another. -/
theorem inBits_eq_cells (s : State) :
    inBits s = (List.range s.rlen.toNat).flatMap fun k => bitsOf 8 (s.inCell k).toNat := by
  rw [inBits]
  induction s.rlen.toNat with
  | zero => rfl
  | succ n ih =>
    have hCell : (List.range 8).map (fun j => streamBit s (8 * n + j)) = bitsOf 8 (s.inCell n).toNat := by
      refine List.map_congr_left fun j hj => ?_
      rw [streamBit_cell s n (List.mem_range.1 hj), BitVec.testBit_toNat]
    rw [Nat.mul_succ, List.range_add, List.map_append, ih, List.range_succ (n := n), List.flatMap_append,
      List.map_map]
    exact congrArg _ (hCell.trans (List.append_nil _).symm)

theorem length_inBits (s : State) : (inBits s).length = 8 * s.rlen.toNat := by simp [inBits]

/-- A bit of a part of the string is the stream's bit at its place. -/
theorem streamBit_of_part {s : State} {front part rest : List Bool} (h : inBits s = front ++ part ++ rest) {j : Nat}
    {b : Bool} (hj : part[j]? = some b) : streamBit s (front.length + j) = b := by
  have hlt : j < part.length := (List.getElem?_eq_some_iff.1 hj).1
  have hLen := congrArg List.length h
  simp only [length_inBits, List.length_append] at hLen
  have hBit : (inBits s)[front.length + j]? = some b := by
    rw [h, List.append_assoc, List.getElem?_append_right (Nat.le_add_right _ _), Nat.add_sub_cancel_left,
      List.getElem?_append_left hlt, hj]
  simpa [inBits, show front.length + j < 8 * s.rlen.toNat by omega] using hBit

/-- A number whose bits stand at a place is the field there (42_reader.md R157). -/
theorem field_of_part {s : State} {front rest : List Bool} {w v : Nat}
    (h : inBits s = front ++ bitsOf w v ++ rest) : field s front.length w = v % 2 ^ w := by
  refine (mod_eq_field fun j hj => ?_).symm
  exact (streamBit_of_part h (by simp [bitsOf, hj])).symm

/-- Bytes whose bits stand at a cell's place are the cells from there on. -/
theorem inCell_of_part {s : State} {front rest : List Bool} {bytes : List Byte} {q : Nat}
    (h : inBits s = front ++ bytesBits bytes ++ rest) (hq : front.length = 8 * q) {k : Nat} {b : Byte}
    (hk : bytes[k]? = some b) : s.inCell (q + k) = b := by
  induction bytes generalizing front q k with
  | nil => cases hk
  | cons c bytes ih =>
    have hSplit : inBits s = (front ++ bitsOf 8 c.toNat) ++ bytesBits bytes ++ rest := by
      simpa [bytesBits] using h
    cases k with
    | zero =>
      obtain rfl : c = b := by simpa using hk
      refine BitVec.eq_of_getLsbD_eq fun j hj => ?_
      have hBit : streamBit s (front.length + j) = c.toNat.testBit j :=
        streamBit_of_part (part := bitsOf 8 c.toNat) (rest := bytesBits bytes ++ rest)
          (by rw [← List.append_assoc, hSplit]) (by simp [bitsOf, hj])
      rw [← BitVec.testBit_toNat c, ← hBit, hq, streamBit_cell s q hj, Nat.add_zero]
    | succ k =>
      rw [show q + (k + 1) = q + 1 + k by omega]
      have hq' : (front ++ bitsOf 8 c.toNat).length = 8 * (q + 1) := by
        rw [List.length_append, length_bitsOf, hq]
        omega
      exact ih hSplit hq' (by simpa using hk)

/-- A serving reader of the bit string `bits` that stands at bit `p`. -/
structure ReadingAt (bits : List Bool) (p : Nat) (s : State) : Prop where
  serving : Serving s
  isOpen : s.ropen = true
  inv : ReaderInv s
  coherent : Coherent s
  stream : inBits s = bits
  position : rbitpos s = p

section readingAt

variable {bits : List Bool} {p : Nat} {s : State}

theorem ReadingAt.length (h : ReadingAt bits p s) : bits.length = 8 * s.rlen.toNat := by
  rw [← h.stream, length_inBits]

/-- The reader does not depend on `A0`. -/
theorem ReadingAt.setA0 (h : ReadingAt bits p s) (a : Word) : ReadingAt bits p { s with a0 := a } :=
  ⟨h.serving, h.isOpen, h.inv, h.coherent, h.stream, h.position⟩

theorem ReadingAt.rBits (h : ReadingAt bits p s) (hw : 1 ≤ s.a0.toNat ∧ s.a0.toNat ≤ 24)
    (hFit : p + s.a0.toNat ≤ bits.length) :
    ∃ t, exec .rBits s = .next t ∧ t.stV = true ∧ t.r0.toNat = field s p s.a0.toNat ∧
      ReadingAt bits (p + s.a0.toNat) t := by
  obtain ⟨hF, ho, hr, hc, hStream, rfl⟩ := h
  rw [← hStream, length_inBits] at hFit
  have hAvail := (avail_le_iff hr _).2 hFit
  obtain ⟨q, hFill, hq⟩ := fill_pulls hr hw.2 hAvail
  have hInv' := readerInv_consume hr ho hq.inv hq.fits hq.enough
  have hCoherent' := coherent_consume hr hc hq.inv hq.fits hq.enough
  have hPos' := rbitpos_consume hr hq.inv hq.fits hq.enough
  exact ⟨_, exec_bitRead_enough rfl hF ho hw hAvail hFill, rfl,
    hq.toNat_low.trans (pulled_field hc hq.inv hq.enough), hF, ho, hInv', hCoherent', hStream, hPos'⟩

theorem ReadingAt.rAlign (h : ReadingAt bits p s) :
    ∃ t, exec .rAlign s = .next t ∧ t.stV = true ∧ ReadingAt bits (8 * ((p + 7) / 8)) t := by
  obtain ⟨hF, ho, hr, hc, hStream, rfl⟩ := h
  exact ⟨_, (exec_withReader .rAlign hF rfl ho).trans rfl, rfl, hF, ho, readerInv_align hr, coherent_align hr hc,
    hStream, rbitpos_align hr⟩

/-- The reader that a raw read of `n` bytes leaves stands just past them (42_reader.md R150). -/
theorem ReadingAt.rawTaken {n : Nat} (h : ReadingAt bits p s) (hFit : (p + 7) / 8 + n ≤ s.rlen.toNat) :
    ReadingAt bits (8 * ((p + 7) / 8 + n)) (rawTaken s n) := by
  obtain ⟨hF, ho, hr, -, hStream, rfl⟩ := h
  have hPos := bytePos_align hr
  refine ⟨hF, ho, readerInv_rawTaken hr ho (by omega), fun j hj => absurd hj (Nat.not_lt_zero j), hStream, ?_⟩
  have hLen := s.rlen.isLt
  rw [rawTaken_eq hr, rbitpos, toNat_ofNat_of_lt (by omega)]
  rfl

theorem ReadingAt.rangeRead (h : ReadingAt bits p s) {i : Instr} (hi : i = .rNxarr ∨ i = .rNxslc)
    (hFit : (p + 7) / 8 + s.a0.toNat ≤ s.rlen.toNat) :
    ∃ t, exec i s = .next t ∧ t.stV = true ∧ t.r0.toNat = (p + 7) / 8 ∧ t.r1 = s.a0 ∧
      ReadingAt bits (8 * ((p + 7) / 8 + s.a0.toNat)) t := by
  obtain ⟨hF, ho, hr, hc, hStream, hEnd⟩ := h.rawTaken hFit
  obtain rfl := h.position
  have hLen := s.rlen.isLt
  exact ⟨_, exec_rangeRead_enough hi h.serving h.isOpen h.inv hFit, rfl, toNat_ofNat_of_lt (by omega), rfl, hF, ho, hr,
    hc, hStream, hEnd⟩

theorem ReadingAt.rNxbyte (h : ReadingAt bits p s) (hFit : (p + 7) / 8 + 1 ≤ s.rlen.toNat) :
    ∃ t, exec .rNxbyte s = .next t ∧ t.stV = true ∧ t.r0 = (s.inCell ((p + 7) / 8)).setWidth 32 ∧
      ReadingAt bits (8 * ((p + 7) / 8 + 1)) t := by
  obtain ⟨hF, ho, hr, hc, hStream, hEnd⟩ := h.rawTaken hFit
  obtain rfl := h.position
  exact ⟨_, exec_rNxbyte_enough h.serving h.isOpen h.inv hFit, rfl, rfl, hF, ho, hr, hc, hStream, hEnd⟩

/-- A new reader stands at the start of its slice (42_reader.md R142). -/
theorem rNew_readingAt (hF : Serving s) (h : s.a0.toNat ≤ s.cfg.inCap) :
    ∃ u, exec .rNew s = .next u ∧ u.rlen = s.a0 ∧ u.inMem = s.inMem ∧ ReadingAt (inBits u) 0 u :=
  ⟨_, exec_rNew_fits hF h, rfl, rfl, hF, rfl,
    ⟨Nat.zero_le _, h, Nat.zero_le _, Nat.zero_lt_one, fun hn => absurd hn Bool.noConfusion⟩,
    fun j hj => absurd hj (Nat.not_lt_zero j), rfl, rfl⟩

end readingAt

/-! ### Reading the items back -/

/-- A field that comes next is read back. -/
theorem reads_field {front rest : List Bool} {w v : Nat} {s : State} (hx : (Item.field w v).wf = true)
    (h : ReadingAt (front ++ bitsOf w v ++ rest) front.length s) :
    ∃ t, perform s (call .rBits [BitVec.ofNat 32 w]) = .next t ∧ t.stV = true ∧ t.r0.toNat = v ∧
      ReadingAt (front ++ bitsOf w v ++ rest) (front ++ bitsOf w v).length t := by
  obtain ⟨hw, hv⟩ := (Item.wf_field_iff w v).1 hx
  have hA0 : (BitVec.ofNat 32 w).toNat = w := toNat_ofNat_of_lt (by omega)
  have hSet := h.setA0 (BitVec.ofNat 32 w)
  have hRead := hSet.rBits
  simp only [hA0] at hRead
  obtain ⟨t, ht, hV, hR, hNext⟩ := hRead hw (by simp)
  refine ⟨t, (perform_writerCall ..).trans ht, hV, ?_, ?_⟩
  · rw [hR, field_of_part hSet.stream, Nat.mod_eq_of_lt hv]
  · rwa [List.length_append, length_bitsOf]

/-- A run of bytes that comes next, after an alignment, is returned by either range read. -/
theorem reads_range {i : Instr} (hi : i = .rNxarr ∨ i = .rNxslc) {front rest : List Bool} {bytes : List Byte}
    {s : State} (h : ReadingAt (padded front ++ bytesBits bytes ++ rest) front.length s) :
    ∃ t, perform s (call i [BitVec.ofNat 32 bytes.length]) = .next t ∧ t.stV = true ∧
      t.r1.toNat = bytes.length ∧ (∀ k b, bytes[k]? = some b → t.inCell (t.r0.toNat + k) = b) ∧
      ReadingAt (padded front ++ bytesBits bytes ++ rest) (padded front ++ bytesBits bytes).length t := by
  have hLen := h.length
  have hCap := s.rlen.isLt
  simp only [List.length_append, length_padded, length_bytesBits] at hLen
  have hA0 : (BitVec.ofNat 32 bytes.length).toNat = bytes.length := toNat_ofNat_of_lt (by omega)
  have hRead := (h.setA0 (BitVec.ofNat 32 bytes.length)).rangeRead hi
  simp only [hA0] at hRead
  obtain ⟨t, ht, hV, hR0, hR1, hNext⟩ := hRead (by omega)
  refine ⟨t, (perform_writerCall ..).trans ht, hV, by rw [hR1, hA0], fun k b hk => ?_, ?_⟩
  · rw [hR0]
    exact inCell_of_part hNext.stream (length_padded front) hk
  · rwa [List.length_append, length_padded, length_bytesBits, ← Nat.mul_add]

/-- Bytes that stand at `front`, where the alignment leads, are read one by one; with none to read the reader must be
there already. -/
theorem readsBytes_of_part {front rest : List Bool} {bytes : List Byte} {p : Nat} {s : State} {after : State → Prop}
    (h : ReadingAt (front ++ bytesBits bytes ++ rest) p s) (hFront : front.length = 8 * ((p + 7) / 8))
    (hStart : bytes = [] → p = front.length)
    (hAfter : ∀ t, ReadingAt (front ++ bytesBits bytes ++ rest) (front ++ bytesBits bytes).length t → after t) :
    ReadsBytes s bytes after := by
  induction bytes generalizing front p s with
  | nil =>
    refine hAfter s ?_
    rw [bytesBits, List.flatMap_nil, List.append_nil] at *
    rwa [← hStart rfl]
  | cons b bytes ih =>
    have hLen := h.length
    have hCell : s.inCell ((p + 7) / 8) = b := inCell_of_part h.stream hFront (k := 0) rfl
    simp only [List.length_append, length_bytesBits, List.length_cons] at hLen
    obtain ⟨t, ht, hV, hR, hNext⟩ := h.rNxbyte (by omega)
    have hSplit : front ++ bytesBits (b :: bytes) = front ++ bitsOf 8 b.toNat ++ bytesBits bytes :=
      (List.append_assoc ..).symm
    have hFront' : (front ++ bitsOf 8 b.toNat).length = 8 * ((p + 7) / 8 + 1) := by
      rw [List.length_append, length_bitsOf, hFront]
      omega
    rw [hSplit] at hNext hAfter
    refine ⟨t, by rw [perform_singleton, act_issueOf, ht], hV, hNext.serving, by rw [hR, hCell],
      ih hNext (by omega) (fun _ => hFront'.symm) hAfter⟩

/-- At the end of the items nothing but the padding is left (42_reader.md R156). -/
theorem readsBack_nil {front : List Bool} {s : State} (h : ReadingAt (padded front) front.length s) :
    ReadsBack s [] := by
  obtain ⟨hIdx, -, hLeft, -⟩ := h.inv
  have hPos := h.position
  have hLen := h.length
  have hAvail : avail s = (8 - front.length % 8) % 8 := by
    rw [length_padded] at hLen
    rw [rbitpos] at hPos
    rw [avail]
    omega
  refine ⟨by omega, ?_⟩
  have hZeros : inBits s = front ++ bitsOf (avail s) 0 ++ [] := by
    rw [h.stream, hAvail, bitsOf_of_zero, List.append_nil, padded]
  rw [hPos, field_of_part hZeros, Nat.zero_mod]

/-- From where the writer stood before them the items read back (42_reader.md R156, R158). -/
theorem readsBack_of_finished {items : List Item} (hItems : ∀ x ∈ items, x.wf = true) {front : List Bool} {s : State}
    (h : ReadingAt (finishedAfter front items) front.length s) : ReadsBack s items := by
  induction items generalizing front s with
  | nil => exact readsBack_nil h
  | cons x items ih =>
    obtain ⟨hx, hItems⟩ := List.forall_mem_cons.1 hItems
    replace h : ReadingAt (finishedAfter (x.after front) items) front.length s := h
    have hRest : ∀ t, ReadingAt (finishedAfter (x.after front) items) (x.after front).length t → ReadsBack t items :=
      fun t => ih hItems
    obtain ⟨rest, hSplit⟩ := finishedAfter_extends (x.after front) items
    rw [hSplit] at h hRest
    cases x with
    | field w v =>
      obtain ⟨t, ht, hV, hR, hNext⟩ := reads_field hx h
      exact ⟨t, ht, hV, hNext.serving, hR, hRest t hNext⟩
    | align =>
      obtain ⟨t, ht, hV, hNext⟩ := h.rAlign
      rw [← length_padded] at hNext
      exact ⟨t, by rw [perform_singleton, act_issueOf, ht], hV, hNext.serving, hRest t hNext⟩
    | raw bytes =>
      refine ⟨fun i hi => ?_, fun hne =>
        readsBytes_of_part h (length_padded front) (fun hNil => absurd hNil hne) hRest⟩
      obtain ⟨t, ht, hV, hR1, hCells, hNext⟩ := reads_range hi h
      exact ⟨t, ht, hV, hNext.serving, hR1, hCells, hRest t hNext⟩

/-! ### The copy -/

/-- The state after the finished buffer is copied to `IN` (42_reader.md R156). -/
def copied (t : State) : State :=
  storeCells t 0 (.input ((List.range t.r0.toNat).map t.outCell))

theorem act_copy {t : State} (h : t.r0.toNat ≤ t.cfg.inCap) :
    act t (.writeMem 0 (.input ((List.range t.r0.toNat).map t.outCell))) = .next (copied t) := by
  have hFits : ¬ t.cfg.inCap < 0 + ((List.range t.r0.toNat).map t.outCell).length := by simpa using h
  exact if_neg fun hOut => hFits hOut.2

theorem inCell_copied {t : State} {k : Nat} (h : k < t.r0.toNat) : (copied t).inCell k = t.outCell k := by
  simp [copied, storeCells, State.inCell, Memory.read?_writeFrom, h]

/-- The copy turns the finished output string into the string of a reader at its start. -/
theorem copyAndOpen_reads {t : State} (hF : Serving t) (hR : t.r0 = t.wlen) (hPos : t.wpos = 0)
    (hFit : t.r0.toNat ≤ t.cfg.inCap) :
    ∃ u, perform t (copyAndOpen t) = .next u ∧ ReadingAt (outBits t) 0 u := by
  obtain ⟨u, hOpen, hLen, hIn, hReading⟩ := rNew_readingAt (s := { copied t with a0 := t.r0 }) hF hFit
  refine ⟨u, ?_, ?_⟩
  · rw [copyAndOpen, perform_cons (act_copy hFit)]
    exact (perform_writerCall ..).trans hOpen
  · have hBits : inBits u = outBits t := by
      rw [inBits_eq_cells, hLen, outBits, ← hR, hPos]
      refine (List.flatMap_congr fun k hk => ?_).trans (List.append_nil _).symm
      rw [← inCell_copied (List.mem_range.1 hk), State.inCell, hIn]
      rfl
    rwa [← hBits]

/-- Settles O52: the finished string of the items is the reader's after the copy, and from its start they read back. -/
theorem roundTripWithAlignments : Obligations.RoundTripWithAlignments := by
  intro s t items hInv _ hItems h hF hFit
  obtain ⟨hR, hPos, hBits⟩ := stream_written hItems hInv h hF
  obtain ⟨u, hu, hReading⟩ := copyAndOpen_reads hF hR hPos hFit
  rw [hBits] at hReading
  exact ⟨u, hu, readsBack_of_finished hItems hReading⟩

/-! ### Fields that fit -/

/-- A serving writer, with the parameters `c`, that holds `n` bits. -/
structure WriterAt (c : Config) (n : Nat) (s : State) : Prop where
  serving : Serving s
  isOpen : s.wopen = true
  cfg_eq : s.cfg = c
  inv : WriterInv s
  length : (outBits s).length = n

theorem wNew_writerAt {s : State} (hF : Serving s) :
    ∃ t, exec .wNew s = .next t ∧ WriterAt s.cfg 0 t :=
  ⟨_, (exec_of_serving hF .wNew).trans rfl, hF, rfl, rfl, writerInv_of_noPending rfl rfl (Nat.zero_le _), rfl⟩

theorem WriterAt.wPush {c : Config} {n : Nat} {s : State} (h : WriterAt c n s) (hc : c.wf)
    (hw : 1 ≤ tbvWidth s.a0 ∧ tbvWidth s.a0 ≤ 24) (hFit : (n + tbvWidth s.a0) / 8 ≤ c.outCap) :
    ∃ t, exec .wPush s = .next t ∧ WriterAt c (n + tbvWidth s.a0) t := by
  obtain ⟨hF, ho, rfl, hInv, rfl⟩ := h
  have hFull : s.wlen.toNat + appendFull s (tbvWidth s.a0) ≤ s.cfg.outCap := by
    rw [length_outBits] at hFit
    rw [appendFull]
    omega
  have hBits := outBits_appended hc hInv hFull (tbvPayload s.a0)
  refine ⟨_, exec_push_fits rfl hF ho hw hFull, hF, ho, rfl, writerInv_appended hc hInv ho hFull _, ?_⟩
  exact (congrArg List.length hBits).trans (by rw [List.length_append, length_bitsOf])

theorem WriterAt.setA0 {c : Config} {n : Nat} {s : State} (h : WriterAt c n s) (a : Word) :
    WriterAt c n { s with a0 := a } :=
  ⟨h.serving, h.isOpen, h.cfg_eq, h.inv, h.length⟩

theorem WriterAt.field {c : Config} {n w v : Nat} {s : State} (h : WriterAt c n s) (hc : c.wf)
    (hx : (Item.field w v).wf = true) (hFit : (n + w) / 8 ≤ c.outCap) :
    ∃ t, perform s (Item.field w v).writes = .next t ∧ WriterAt c (n + w) t := by
  obtain ⟨hw, -⟩ := (Item.wf_field_iff w v).1 hx
  obtain ⟨hTag, -⟩ := tbv_of_field hx
  have hPush := (h.setA0 (mkTbv w v)).wPush hc
  simp only [hTag] at hPush
  obtain ⟨t, ht, hNext⟩ := hPush hw hFit
  exact ⟨t, (perform_writerCall ..).trans ht, hNext⟩

theorem WriterAt.fields {c : Config} {fields : List (Nat × Nat)} {n : Nat} {s : State} (h : WriterAt c n s)
    (hc : c.wf) (hx : ∀ f ∈ fields, (Item.field f.1 f.2).wf = true)
    (hFit : (n + (fields.map Prod.fst).sum + 7) / 8 ≤ c.outCap) :
    ∃ t, perform s (fields.flatMap fun f => (Item.field f.1 f.2).writes) = .next t ∧
      WriterAt c (n + (fields.map Prod.fst).sum) t := by
  induction fields generalizing n s with
  | nil => exact ⟨s, rfl, h⟩
  | cons f fields ih =>
    obtain ⟨hf, hx⟩ := List.forall_mem_cons.1 hx
    simp only [List.map_cons, List.sum_cons, ← Nat.add_assoc] at hFit ⊢
    obtain ⟨t, ht, hNext⟩ := h.field hc hf (by omega)
    obtain ⟨u, hu, hEnd⟩ := ih hNext hx hFit
    exact ⟨u, (perform_append ht _).trans hu, hEnd⟩

theorem WriterAt.finish {c : Config} {n : Nat} {s : State} (h : WriterAt c n s) (hc : c.wf)
    (hFit : (n + 7) / 8 ≤ c.outCap) :
    ∃ t, exec .wFin s = .next t ∧ t.stF = false ∧ t.stV = true ∧ t.r0.toNat = (n + 7) / 8 ∧ t.cfg = c := by
  obtain ⟨hF, ho, rfl, -, rfl⟩ := h
  rw [length_outBits] at hFit ⊢
  have hPos := wpos_lt s
  obtain ⟨hFlush, e⟩ | ⟨hPending, hOver, -⟩ := flush_cases s
  · have hExec : exec .wFin s = .next (State.withValue
        { flushed s with wacc := 0, wpos := 0, wopen := false, r0 := (flushed s).wlen }) := by
      rw [exec_withWriter .wFin hF rfl ho, e]
      rfl
    have hFrame := flushed_frame s
    exact ⟨_, hExec, (congrArg State.stF hFrame).trans hF, rfl, (flushed_wlen hc hFlush).trans (by omega),
      (congrArg State.cfg hFrame).trans rfl⟩
  · omega

/-- The pseudo-command `PACK` of fields writes their stream (30_encoding.md R82). -/
theorem pack_eq_writeStream (fields : List (Nat × Nat)) :
    pack (fields.map fun f => mkTbv f.1 f.2) = writeStream (fields.map fun f => Item.field f.1 f.2) := by
  rw [pack, writeStream, List.flatMap_map, List.flatMap_map]
  rfl

/-- Settles O51: the fields fit, so `PACK` ends without a fault, and what it wrote is a stream as in O52. -/
theorem roundTripOfFields : Obligations.RoundTripOfFields := by
  intro s fields hInv hF hx hOut hIn
  have ⟨hc, _⟩ := hInv
  obtain ⟨t₁, hNew, h₁⟩ := wNew_writerAt hF
  obtain ⟨t₂, hFields, h₂⟩ := h₁.fields hc hx (by rwa [Nat.zero_add])
  rw [Nat.zero_add] at h₂
  obtain ⟨t, hFin, hServing, hV, hR, hCfg⟩ := h₂.finish hc hOut
  have hWrite : perform s (writeStream (fields.map fun f => Item.field f.1 f.2)) = .next t := by
    have hBody : perform s (issueOf .wNew :: (fields.map fun f => Item.field f.1 f.2).flatMap Item.writes) =
        .next t₂ := by
      rw [perform_cons ((act_issueOf ..).trans hNew), List.flatMap_map]
      exact hFields
    rw [writeStream, perform_append hBody, perform_singleton, act_issueOf, hFin]
  have hItems : ∀ x ∈ fields.map fun f => Item.field f.1 f.2, x.wf = true :=
    List.forall_mem_map.2 hx
  obtain ⟨u, hu, hBack⟩ := roundTripWithAlignments s t _ hInv hF hItems hWrite hServing (by rw [hR, hCfg]; exact hIn)
  exact ⟨t, u, by rw [pack_eq_writeStream, hWrite], hServing, hV, hR, hu, hBack⟩

end Sys2Proof.Machine
end

