-- ==== Sys2Proof/Proofs/MatchLength.lean ====
section
/-! `M.LEN` (43_match.md R171, R173): the three faults of `mlen`, the three ends of the command, then the statement. -/

namespace Sys2Proof.Machine

/-! ### The faults of `mlen`, in their order (R171) -/

theorem mlen_of_currentBeyondEnd {s : State} {current : Nat} (h : s.dlen.toNat < current) (distance maxLen : Nat) :
    mlen s current distance maxLen = .error (.raise .matchCurrentBeyondEnd) := by
  rw [mlen, if_pos h]

theorem mlen_of_zeroDistance {s : State} {current distance : Nat} (h : current ≤ s.dlen.toNat)
    (hDist : distance = 0) (maxLen : Nat) :
    mlen s current distance maxLen = .error (.raise .matchZeroDistance) := by
  rw [mlen, if_neg (Nat.not_lt.2 h), if_pos hDist]

theorem mlen_of_distanceBeyondStart {s : State} {current distance : Nat} (h : current ≤ s.dlen.toNat)
    (hDist : current < distance) (maxLen : Nat) :
    mlen s current distance maxLen = .error (.raise .matchDistanceBeyondStart) := by
  rw [mlen, if_neg (Nat.not_lt.2 h), if_neg (Nat.ne_zero_of_lt hDist), if_pos hDist]

/-! ### The ends of the command (R173) -/

theorem exec_mLen_overlong {s : State} (hF : Serving s) (h : s.cfg.dataCap < s.dlen.toNat) :
    exec .mLen s = .next (s.raise .lengthOutOfRange) := by
  rw [exec_of_serving hF, rule, ruleMLen, if_pos h]
  rfl

section withinCapacity

variable {s : State} (hF : Serving s) (hd : s.dlen.toNat ≤ s.cfg.dataCap)
include hF hd

theorem exec_mLen_raises {c : Cause} (h : mlen s s.a0.toNat s.a1.toNat s.a2.toNat = .error (.raise c)) :
    exec .mLen s = .next (s.raise c) := by
  rw [exec_of_serving hF, rule, ruleMLen, if_neg (Nat.not_lt.2 hd), h]
  rfl

theorem exec_mLen_measures {n : Nat} (h : mlen s s.a0.toNat s.a1.toNat s.a2.toNat = .ok n) :
    exec .mLen s = .next { s with r0 := BitVec.ofNat 32 n, stV := true } := by
  rw [exec_of_serving hF, rule, ruleMLen, if_neg (Nat.not_lt.2 hd), h]
  rfl

end withinCapacity

/-- Settles O54: the faults in their order; past them `mlen` measures the match, and the length, at most the operand
`A2`, fits `R0`. -/
theorem mLenMeasuresTheMatch : Obligations.MLenMeasuresTheMatch := by
  refine ⟨decode_encode .mLen, fun s hF => ⟨exec_mLen_overlong hF, fun hd => ⟨fun hEnd => ?currentBeyondEnd,
    fun hEnd => ⟨fun hZero => ?zeroDistance, fun hStart => ?distanceBeyondStart, fun hZero hStart => ?measures⟩⟩⟩⟩
  case currentBeyondEnd => exact exec_mLen_raises hF hd (mlen_of_currentBeyondEnd hEnd ..)
  case zeroDistance => exact exec_mLen_raises hF hd (mlen_of_zeroDistance hEnd (congrArg BitVec.toNat hZero) _)
  case distanceBeyondStart => exact exec_mLen_raises hF hd (mlen_of_distanceBeyondStart hEnd hStart _)
  case measures =>
    have hDist : s.a1.toNat ≠ 0 := fun e => hZero (BitVec.eq_of_toNat_eq e)
    obtain ⟨n, hLen, hMatch⟩ := mlen_spec s.a2.toNat hd hEnd hDist hStart
    have ⟨hMax, _⟩ := hMatch
    have hFits : (BitVec.ofNat 32 n).toNat = n := toNat_ofNat_of_lt (hMax.trans_lt s.a2.isLt)
    exact ⟨_, exec_mLen_measures hF hd hLen, hFits.symm ▸ hMatch⟩

end Sys2Proof.Machine
end

