-- ==== Sys2Proof/Proofs/Effects.lean ====
section
/-! What a command can do, said once. `Ends` lists the ends of a rule, `Effect` the completions of each command's rule,
and `rule_ends` goes through the 31 rules; what a command keeps is then a case split over `Effect`. -/

namespace Sys2Proof.Machine

/-! ### The ends of a rule -/

/-- A rule begun in `s` completes as `P` allows, raises a fault, or asks for an access out of bounds, the last only when
the reader's invariants are broken (20_memory.md R66). -/
inductive Ends (s : State) (P : Completion → Prop) : Body → Prop
  | completes {c : Completion} (h : P c) : Ends s P (.ok c)
  | raises (c : Cause) : Ends s P (.error (.raise c))
  | stops (f : Fault) (h : ¬ ReaderInv s) : Ends s P (.error (.stop f))

section ends

variable {s : State} {P : Completion → Prop} {b : Body}

theorem Ends.of_ok {c : Completion} (h : Ends s P (.ok c)) : P c := by
  cases h with
  | completes h => exact h

theorem ends_needWidth {w : Nat} (h : 1 ≤ w ∧ w ≤ 24 → Ends s P b) : Ends s P (needWidth w b) := by
  by_cases hw : 1 ≤ w ∧ w ≤ 24
  · rw [needWidth_of_valid hw]
    exact h hw
  · rw [needWidth_of_invalid hw]
    exact .raises _

theorem ends_needWriter (h : s.wopen = true → Ends s P b) : Ends s P (needWriter s b) := by
  cases ho : s.wopen
  · rw [needWriter_of_closed ho]
    exact .raises _
  · rw [needWriter_of_open ho]
    exact h ho

theorem ends_needReader (h : s.ropen = true → Ends s P b) : Ends s P (needReader s b) := by
  cases ho : s.ropen
  · rw [needReader_of_closed ho]
    exact .raises _
  · rw [needReader_of_open ho]
    exact h ho

theorem ends_appendBits {w v : Nat}
    (h : s.wlen.toNat + appendFull s w ≤ s.cfg.outCap → P (.value (appended s w v))) :
    Ends s P (appendBits s w v) := by
  obtain ⟨hfit, e⟩ | ⟨-, e⟩ := appendBits_cases s w v <;> rw [e]
  · exact .completes (h hfit)
  · exact .raises _

/-- A bit read stops only when `fill` does, which it never does over a sound reader. -/
theorem ends_bitRead {w : Nat} {k : Pulled → State} (hNone : P (.noValue s))
    (hSome : ∀ q, w ≤ avail s → fill s w = .ok q → P (.value (k q))) : Ends s P (bitRead s w k) := by
  rcases Nat.lt_or_ge (avail s) w with hShort | hAvail
  · rw [bitRead, if_pos hShort]
    exact .completes hNone
  · rw [bitRead, if_neg (Nat.not_lt.2 hAvail)]
    cases hFill : fill s w with
    | ok q => exact .completes (hSome q hAvail hFill)
    | error e =>
      obtain ⟨f, rfl⟩ := fillLoop_error w hFill
      refine .stops f fun hr => ?_
      obtain ⟨q, hOk, -⟩ := fill_spec hr hAvail
      rw [hFill] at hOk
      cases hOk

end ends

/-! ### The completions of each command -/

/-- The commands that end with no value and nothing else changed (60_exceptions.md R205). -/
def noValueCommands : List Instr :=
  [.bwNew, .tbvNewc, .rBool, .rNib, .rByte, .rBits, .rPeek, .rAdv, .mFind]

/-- The reads of bits (42_reader.md R143 to R148). -/
def bitReads : List Instr :=
  [.rBool, .rNib, .rByte, .rBits, .rPeek, .rAdv]

/-- The raw reads (42_reader.md R151 to R153). -/
def rawReads : List Instr :=
  [.rNxbyte, .rNxarr, .rNxslc]

/-- The commands that write `R0` and nothing else. -/
def resultCommands : List Instr :=
  [.bwNew, .bwNewu, .bwMask, .bwPow2, .tbvNew, .tbvNewc, .tbvRevd, .tbvEq, .npot, .wBitcnt, .mLen]

/-- Everything the rule of a command can complete with, the flag `ST.V` aside. A bit read pulls for `w` bits and
consumes `c` of them, none for a peek. -/
inductive Effect (s : State) : Instr → Completion → Prop
  | noValue {i : Instr} (hi : i ∈ noValueCommands) : Effect s i (.noValue s)
  | alignedNoValue {i : Instr} (hi : i ∈ rawReads) : Effect s i (.noValue (alignReader s))
  | result {i : Instr} (hi : i ∈ resultCommands) (r : Word) : Effect s i (.value { s with r0 := r })
  | reversed (r : Word) : Effect s .tbvRev (.value { s with a0 := r })
  | foundMatch (r₀ r₁ : Word) : Effect s .mFind (.value { s with r0 := r₀, r1 := r₁ })
  | newWriter : Effect s .wNew (.value { s with wopen := true, wlen := 0, wacc := 0, wpos := 0 })
  | push {i : Instr} {w v : Nat} (hp : pushField i s = some (w, v)) (ho : s.wopen = true)
      (hfit : s.wlen.toNat + appendFull s w ≤ s.cfg.outCap) : Effect s i (.value (appended s w v))
  | flush (hfit : s.wpos.toNat = 0 ∨ s.wlen.toNat + 1 ≤ s.cfg.outCap) : Effect s .wAlign (.value (flushed s))
  | finish (hfit : s.wpos.toNat = 0 ∨ s.wlen.toNat + 1 ≤ s.cfg.outCap) :
      Effect s .wFin (.value { flushed s with wacc := 0, wpos := 0, wopen := false, r0 := (flushed s).wlen })
  | newReader (hfit : s.a0.toNat ≤ s.cfg.inCap) :
      Effect s .rNew (.value { s with ropen := true, rlen := s.a0, ridx := 0, racc := 0, rleft := 0 })
  | pulled {i : Instr} {w c : Nat} {q : Pulled} (hi : i ∈ bitReads) (ho : s.ropen = true) (hw : w ≤ 24) (hc : c ≤ w)
      (hAvail : w ≤ avail s) (hFill : fill s w = .ok q) (r : Word) (hr : i = .rAdv → r = s.r0) :
      Effect s i (.value { consumePulled s c q with r0 := r })
  | aligned : Effect s .rAlign (.value (alignReader s))
  | taken {i : Instr} {n : Nat} (hi : i ∈ rawReads) (ho : s.ropen = true)
      (h : n ≤ s.rlen.toNat - bytePos (alignReader s)) (r₀ r₁ : Word) (hr : i = .rNxbyte → r₁ = s.r1) :
      Effect s i (.value { rawTaken s n with r0 := r₀, r1 := r₁ })

/-! ### The rules, one by one -/

/-- The four pushes. -/
theorem rule_ends_push {i : Instr} {s : State} {w v : Nat} (hp : pushField i s = some (w, v)) :
    Ends s (Effect s i) (rule i s) := by
  rw [rule_of_pushField hp]
  exact ends_needWriter fun ho => ends_needWidth fun _ => ends_appendBits fun hfit => .push hp ho hfit

/-- The four consuming reads. -/
theorem rule_ends_take {i : Instr} {s : State} {w : Nat} (hw : bitReadWidth i s = some w) (hBit : i ∈ bitReads)
    (hNone : i ∈ noValueCommands) (hAdv : i ≠ .rAdv) : Ends s (Effect s i) (rule i s) := by
  rw [rule_of_bitReadWidth hw]
  exact ends_needReader fun ho => ends_needWidth fun hw => ends_bitRead (.noValue hNone) fun _ hAvail hFill =>
    .pulled hBit ho hw.2 le_rfl hAvail hFill _ fun e => absurd e hAdv

theorem rule_ends_rPeek (s : State) : Ends s (Effect s .rPeek) (rule .rPeek s) := by
  refine ends_needReader fun ho => ends_needWidth fun hw => ends_bitRead (.noValue (by decide)) fun q hAvail hFill => ?_
  rw [keepPulled_eq]
  exact .pulled (by decide) ho hw.2 (Nat.zero_le _) hAvail hFill _ fun e => by cases e

theorem rule_ends_rAdv (s : State) : Ends s (Effect s .rAdv) (rule .rAdv s) :=
  ends_needReader fun ho => ends_needWidth fun hw => ends_bitRead (.noValue (by decide)) fun q hAvail hFill =>
    .pulled (c := s.a0.toNat) (by decide) ho hw.2 le_rfl hAvail hFill s.r0 fun _ => rfl

theorem rule_ends_rangeRead {i : Instr} (hi : i = .rNxarr ∨ i = .rNxslc) (s : State) :
    Ends s (Effect s i) (rule i s) := by
  have hRaw : i ∈ rawReads := by rcases hi with rfl | rfl <;> decide
  have hByte : i ≠ .rNxbyte := by rcases hi with rfl | rfl <;> decide
  rw [rule_of_rangeRead hi]
  refine ends_needReader fun ho => ?_
  obtain ⟨-, e⟩ | ⟨hLeft, e⟩ := rawTake_cases s s.a0.toNat <;> rw [takeRange, e]
  · exact .completes (.alignedNoValue hRaw)
  · exact .completes (.taken hRaw ho hLeft _ _ fun e => absurd e hByte)

/-- The byte `raw_take` found lies in the slice, which lies in `IN` when the reader is sound. -/
theorem rule_ends_rNxbyte (s : State) : Ends s (Effect s .rNxbyte) (rule .rNxbyte s) := by
  refine ends_needReader fun ho => ?_
  obtain ⟨-, e⟩ | ⟨hLeft, e⟩ := rawTake_cases s 1 <;> rw [e] <;> dsimp only
  · exact .completes (.alignedNoValue (by decide))
  · rw [readIn]
    split_ifs with h
    · exact .completes (.taken (by decide) ho hLeft _ s.r1 fun _ => rfl)
    · refine .stops _ fun hr => h ?_
      have hLt : bytePos (alignReader s) < s.rlen.toNat := by omega
      obtain ⟨-, hCap, -⟩ := hr
      exact ⟨hLt, hLt.trans_le hCap⟩

/-- A buffer checked to be within the capacity is measured without a stop. -/
theorem rule_ends_mLen (s : State) : Ends s (Effect s .mLen) (rule .mLen s) := by
  simp only [rule, ruleMLen]
  split_ifs with hd
  · exact .raises _
  obtain ⟨-, e⟩ | ⟨-, -, e⟩ | ⟨-, -, -, e⟩ | ⟨-, n, e, -⟩ :=
    mlen_cases s.a0.toNat s.a1.toNat s.a2.toNat (Nat.not_lt.1 hd) <;> rw [e]
  · exact .raises _
  · exact .raises _
  · exact .raises _
  · exact .completes (.result (by decide) _)

/-- A list checked to be within its capacity is scanned without a stop. -/
theorem rule_ends_mFind (s : State) : Ends s (Effect s .mFind) (rule .mFind s) := by
  simp only [rule, ruleMFind, findMatch]
  split_ifs with hd hn hMax hThreshold
  · exact .raises _
  · exact .raises _
  · exact .raises _
  · exact .raises _
  obtain ⟨-, c, e, -⟩ | ⟨best, -, e, -⟩ := scan_spec (s.a0.toNat + s.a4.toNat) (s.a1.toNat - s.a4.toNat)
    (s.a3.toNat - s.a4.toNat) (Nat.not_lt.1 hd) (Nat.not_lt.1 hn) s.a5.toNat 0 { len := 0, dist := 0 } (by omega)
    <;> rw [e] <;> dsimp only
  · exact .raises c
  · split_ifs
    · exact .completes (.noValue (by decide))
    · exact .completes (.noValue (by decide))
    · exact .completes (.foundMatch _ _)

/-- Everything the rule of a command can do. -/
theorem rule_ends (i : Instr) (s : State) : Ends s (Effect s i) (rule i s) := by
  cases i with
  | bwNew =>
    simp only [rule, ruleBwNew]
    split
    · exact .completes (.result (by decide) _)
    · exact .completes (.noValue (by decide))
  | bwNewu | bwMask | bwPow2 | tbvNew | tbvRevd =>
    exact ends_needWidth fun _ => .completes (.result (by decide) _)
  | tbvNewc =>
    refine ends_needWidth fun _ => ?_
    split
    · exact .completes (.noValue (by decide))
    · exact .completes (.result (by decide) _)
  | tbvRev => exact ends_needWidth fun _ => .completes (.reversed _)
  | tbvEq => exact ends_needWidth fun _ => ends_needWidth fun _ => .completes (.result (by decide) _)
  | npot =>
    simp only [rule, ruleNpot]
    split
    · exact .raises _
    · exact .completes (.result (by decide) _)
  | wNew => exact .completes .newWriter
  | wPush | wPbool | wPbyte | wPnib => exact rule_ends_push rfl
  | wAlign =>
    refine ends_needWriter fun _ => ?_
    obtain ⟨hfit, e⟩ | ⟨-, -, e⟩ := flush_cases s <;> rw [e]
    · exact .completes (.flush hfit)
    · exact .raises _
  | wBitcnt => exact ends_needWriter fun _ => .completes (.result (by decide) _)
  | wFin =>
    refine ends_needWriter fun _ => ?_
    obtain ⟨hfit, e⟩ | ⟨-, -, e⟩ := flush_cases s <;> rw [e]
    · exact .completes (.finish hfit)
    · exact .raises _
  | rNew =>
    simp only [rule, ruleRNew]
    split
    · exact .raises _
    · exact .completes (.newReader (by omega))
  | rBool | rNib | rByte | rBits => exact rule_ends_take rfl (by decide) (by decide) (by decide)
  | rPeek => exact rule_ends_rPeek s
  | rAdv => exact rule_ends_rAdv s
  | rAlign => exact ends_needReader fun _ => .completes .aligned
  | rNxbyte => exact rule_ends_rNxbyte s
  | rNxarr => exact rule_ends_rangeRead (.inl rfl) s
  | rNxslc => exact rule_ends_rangeRead (.inr rfl) s
  | mLen => exact rule_ends_mLen s
  | mFind => exact rule_ends_mFind s

/-! ### From the rule to the command -/

theorem ensures_of_effect {i : Instr} {s : State} {P : State → Prop} (h : ∀ c, Effect s i c → P c.state) :
    Ensures (rule i s) P :=
  fun c hc => h c (hc ▸ rule_ends i s).of_ok

/-- Everything a command can do. -/
theorem exec_effect {i : Instr} {s t : State} (h : exec i s = .next t) :
    (s.stF = true ∧ t = s) ∨ (Serving s ∧ ((∃ u, Effect s i (.value u) ∧ t = u.withValue) ∨
      (∃ u, Effect s i (.noValue u) ∧ t = u.withoutValue) ∨ ∃ c, t = s.raise c)) := by
  have hEnds := rule_ends i s
  obtain hFault | ⟨hF, ⟨u, e, ht⟩ | ⟨u, e, ht⟩ | ⟨c, -, ht⟩⟩ := exec_next h
  · exact .inl hFault
  · exact .inr ⟨hF, .inl ⟨u, (e ▸ hEnds).of_ok, ht⟩⟩
  · exact .inr ⟨hF, .inr (.inl ⟨u, (e ▸ hEnds).of_ok, ht⟩)⟩
  · exact .inr ⟨hF, .inr (.inr ⟨c, ht⟩)⟩

/-- Settles O9: over a sound reader no rule ends in a stop, and every other end of a rule is a next state. -/
theorem commandsNeverStop : Obligations.CommandsNeverStop := by
  intro s hInv i
  obtain ⟨-, -, -, hr, -⟩ := hInv
  cases hF : s.stF with
  | true => exact ⟨s, (exec_eq_serve i s).trans (serve_of_faulted hF _)⟩
  | false =>
    have hEnds := rule_ends i s
    rw [exec_of_serving hF]
    generalize rule i s = b at hEnds
    cases hEnds with
    | @completes c _ => cases c <;> exact ⟨_, rfl⟩
    | raises c => exact ⟨_, rfl⟩
    | stops f hn => exact absurd hr hn

end Sys2Proof.Machine
end

