-- ==== Sys2Proof/Proofs/Frames.lean ====
section
/-! What a command leaves unchanged: a fault and no value (60_exceptions.md R201, R205), the frame of all commands, and
from it those of the four families. Each fact is a case split over `Effect`. -/

namespace Sys2Proof.Machine

/-! ### A fault and no value -/

/-- A rule that completes writes neither `ST.F` nor the cause; those are the fault entry's (60_exceptions.md R201). -/
theorem Effect.keepsFault {s : State} {i : Instr} {c : Completion} (h : Effect s i c) :
    c.state.stF = s.stF ∧ c.state.stCause = s.stCause := by
  cases h with
  | flush | finish =>
    rw [Completion.state, flushed_frame]
    exact ⟨rfl, rfl⟩
  | _ => exact ⟨rfl, rfl⟩

/-- Settles O6: a completed rule leaves `ST.F` as it was, so a new fault is the fault entry's. -/
theorem fatalFaultChangesOnlyStatus : Obligations.FatalFaultChangesOnlyStatus := by
  intro i s t h hF hFault
  have notCompleted {c : Completion} (hEff : Effect s i c) : c.state.stF ≠ true := by
    rw [hEff.keepsFault.1, hF]
    decide
  obtain ⟨hs, -⟩ | ⟨-, ⟨u, hEff, rfl⟩ | ⟨u, hEff, rfl⟩ | ⟨c, rfl⟩⟩ := exec_effect h
  · exact absurd hs (by simp [hF])
  · exact absurd hFault (notCompleted hEff)
  · exact absurd hFault (notCompleted hEff)
  · exact ⟨rfl, causeCode_bounds c⟩

theorem not_rawRead_of_noValueCommand : ∀ i ∈ noValueCommands, i ∉ rawReads := by
  decide

/-- The commands of R205 are those that can end with no value, the raw reads among them. -/
theorem listed_of_noValue : ∀ i ∈ noValueCommands ++ rawReads, i ∈ [Instr.bwNew, .tbvNewc, .rBool, .rNib, .rByte, .rBits,
    .rPeek, .rAdv, .rNxbyte, .rNxarr, .rNxslc, .mFind] := by
  decide

/-- Settles O7: of the two completions with no value, one leaves the state and one the aligned reader. -/
theorem noValueChangesOnlyTheFlag : Obligations.NoValueChangesOnlyTheFlag := by
  intro i s t h hF hF' hV
  obtain ⟨hs, -⟩ | ⟨-, ⟨u, -, rfl⟩ | ⟨u, hEff, rfl⟩ | ⟨c, rfl⟩⟩ := exec_effect h
  · exact absurd hs (by simp [hF])
  · exact absurd hV Bool.noConfusion
  · cases hEff with
    | noValue hi =>
      have hNot : i ∉ [Instr.rNxbyte, .rNxarr, .rNxslc] := not_rawRead_of_noValueCommand i hi
      rw [if_neg hNot]
      exact ⟨listed_of_noValue i (List.mem_append_left _ hi), rfl⟩
    | alignedNoValue hi =>
      have hRaw : i ∈ [Instr.rNxbyte, .rNxarr, .rNxslc] := hi
      rw [if_pos hRaw]
      exact ⟨listed_of_noValue i (List.mem_append_right _ hi), rfl⟩
  · exact absurd hF' Bool.noConfusion

/-! ### The families of the commands -/

theorem family_of_pushField {i : Instr} {s : State} {w v : Nat} (h : pushField i s = some (w, v)) :
    i.family = .writer := by
  cases i with
  | wPush | wPbool | wPbyte | wPnib => rfl
  | _ => cases h

theorem family_of_bitRead : ∀ i ∈ bitReads, i.family = .reader := by
  decide

theorem family_of_rawRead : ∀ i ∈ rawReads, i.family = .reader := by
  decide

/-! ### The frame of all commands -/

/-- `t` differs from `s` at most in `A0`, the results, `ST`, the sessions and `OUT`. -/
def Framed (s t : State) : Prop :=
  t = { s with
    a0 := t.a0, r0 := t.r0, r1 := t.r1, stV := t.stV, stF := t.stF, stCause := t.stCause
    wopen := t.wopen, wlen := t.wlen, wacc := t.wacc, wpos := t.wpos
    ropen := t.ropen, rlen := t.rlen, ridx := t.ridx, racc := t.racc, rleft := t.rleft, outMem := t.outMem }

theorem Framed.refl (s : State) : Framed s s :=
  rfl

theorem Framed.eq {s t : State} (h : Framed s t) : t = { s with
    a0 := t.a0, r0 := t.r0, r1 := t.r1, stV := t.stV, stF := t.stF, stCause := t.stCause
    wopen := t.wopen, wlen := t.wlen, wacc := t.wacc, wpos := t.wpos
    ropen := t.ropen, rlen := t.rlen, ridx := t.ridx, racc := t.racc, rleft := t.rleft, outMem := t.outMem } :=
  h

/-- The registers, the parameters and the host's list within the frame. -/
theorem Framed.kept {s t : State} (h : Framed s t) :
    t.a1 = s.a1 ∧ t.a2 = s.a2 ∧ t.a3 = s.a3 ∧ t.a4 = s.a4 ∧ t.a5 = s.a5 ∧ t.dlen = s.dlen ∧ t.cfg = s.cfg ∧
      t.queue = s.queue := by
  rw [h.eq]
  exact ⟨rfl, rfl, rfl, rfl, rfl, rfl, rfl, rfl⟩

/-- The writer's session and `OUT` are as before. -/
structure SameWriter (s t : State) : Prop where
  wopen : t.wopen = s.wopen
  wlen : t.wlen = s.wlen
  wacc : t.wacc = s.wacc
  wpos : t.wpos = s.wpos
  outMem : t.outMem = s.outMem

theorem SameWriter.refl (s : State) : SameWriter s s :=
  ⟨rfl, rfl, rfl, rfl, rfl⟩

/-- The reader's session is as before. -/
structure SameReader (s t : State) : Prop where
  ropen : t.ropen = s.ropen
  rlen : t.rlen = s.rlen
  ridx : t.ridx = s.ridx
  racc : t.racc = s.racc
  rleft : t.rleft = s.rleft

theorem SameReader.refl (s : State) : SameReader s s :=
  ⟨rfl, rfl, rfl, rfl, rfl⟩

/-- The commands that name no result (10_state.md R22). -/
def noResultCommands : List Instr :=
  [.tbvRev, .wNew, .wPush, .wPbool, .wPbyte, .wPnib, .wAlign, .rNew, .rAdv, .rAlign]

theorem noResultCommands_split :
    ∀ i ∈ noResultCommands, i ∉ resultCommands ∧ i ∉ rawReads ∧ (i ∈ bitReads → i = .rAdv) := by
  decide

theorem rNxbyte_of_rawRead : ∀ i ∈ rawReads, i ∉ [Instr.rNxarr, .rNxslc, .mFind] → i = .rNxbyte := by
  decide

theorem not_rangeOrMatch_of_family {i : Instr} (h : i.family = .fieldLogic ∨ i.family = .writer) :
    i ∉ [Instr.rNxarr, .rNxslc, .mFind] := by
  intro hMem
  have hFamily := (by decide : ∀ i ∈ [Instr.rNxarr, .rNxslc, .mFind], i.family = .reader ∨ i.family = .matchUnit) i hMem
  rcases h with h | h <;> rw [h] at hFamily <;> exact absurd hFamily (by decide)

theorem noResult_of_writer (i : Instr) (h : i.family = .writer) (hCnt : i ≠ .wBitcnt) (hFin : i ≠ .wFin) :
    i ∈ noResultCommands := by
  cases i with
  | wBitcnt => exact absurd rfl hCnt
  | wFin => exact absurd rfl hFin
  | wNew | wPush | wPbool | wPbyte | wPnib | wAlign => decide
  | _ => cases h

theorem storedBytes_of_pushField {i : Instr} {s : State} {w v : Nat} (h : pushField i s = some (w, v)) :
    storedBytes i s = appendFull s w := by
  cases i with
  | wPush | wPbool | wPbyte | wPnib =>
    cases h
    rfl
  | _ => cases h

section effect

variable {s : State} {i : Instr} {c : Completion}

/-- No rule writes more than the frame allows. -/
theorem Effect.frame (h : Effect s i c) : Framed s c.state := by
  unfold Framed
  cases h with
  | flush | finish => rw [Completion.state, flushed_frame]
  | _ => rfl

theorem Effect.sameWriter (h : Effect s i c) (hi : i.family ≠ .writer) : SameWriter s c.state := by
  cases h with
  | push hp => exact absurd (family_of_pushField hp) hi
  | newWriter | flush | finish => exact absurd rfl hi
  | _ => exact ⟨rfl, rfl, rfl, rfl, rfl⟩

theorem Effect.sameReader (h : Effect s i c) (hi : i.family ≠ .reader) : SameReader s c.state := by
  cases h with
  | alignedNoValue hRaw => exact absurd (family_of_rawRead i hRaw) hi
  | taken hRaw => exact absurd (family_of_rawRead i hRaw) hi
  | pulled hBit => exact absurd (family_of_bitRead i hBit) hi
  | newReader | aligned => exact absurd rfl hi
  | flush | finish =>
    rw [Completion.state, flushed_frame]
    exact ⟨rfl, rfl, rfl, rfl, rfl⟩
  | _ => exact ⟨rfl, rfl, rfl, rfl, rfl⟩

/-- A command that names no result leaves `R0` (10_state.md R22). -/
theorem Effect.keepsR0 (h : Effect s i c) (hi : i ∈ noResultCommands) : c.state.r0 = s.r0 := by
  have hSplit := noResultCommands_split i hi
  cases h with
  | result hr => exact absurd hr hSplit.1
  | foundMatch | finish => exact absurd hi (by decide)
  | taken hRaw => exact absurd hRaw hSplit.2.1
  | pulled hBit _ _ _ _ _ r hr => exact hr (hSplit.2.2 hBit)
  | flush => rw [Completion.state, flushed_frame]
  | _ => rfl

/-- `R1` is written with a range or a match only (10_state.md R22). -/
theorem Effect.keepsR1 (h : Effect s i c) (hi : i ∉ [Instr.rNxarr, .rNxslc, .mFind]) : c.state.r1 = s.r1 := by
  cases h with
  | foundMatch => exact absurd (by decide) hi
  | taken hRaw _ _ _ _ hr => exact hr (rNxbyte_of_rawRead i hRaw hi)
  | flush | finish => rw [Completion.state, flushed_frame]
  | _ => rfl

/-- But for `W.NEW` and `W.FIN` no command opens or closes the writer (41_writer.md R120). -/
theorem Effect.keepsWopen (h : Effect s i c) (hNew : i ≠ .wNew) (hFin : i ≠ .wFin) : c.state.wopen = s.wopen := by
  cases h with
  | newWriter => exact absurd rfl hNew
  | finish => exact absurd rfl hFin
  | flush => rw [Completion.state, flushed_frame]
  | _ => rfl

/-- But for `R.NEW` no command opens a reader or changes its slice (42_reader.md R140). -/
theorem Effect.keepsSlice (h : Effect s i c) (hNew : i ≠ .rNew) : c.state.ropen = s.ropen ∧ c.state.rlen = s.rlen := by
  cases h with
  | newReader => exact absurd rfl hNew
  | flush | finish =>
    rw [Completion.state, flushed_frame]
    exact ⟨rfl, rfl⟩
  | _ => exact ⟨rfl, rfl⟩

theorem Effect.wBitcnt_sameWriter (h : Effect s .wBitcnt c) : SameWriter s c.state := by
  cases h with
  | result => exact ⟨rfl, rfl, rfl, rfl, rfl⟩
  | noValue hi | alignedNoValue hi | pulled hi | taken hi => exact absurd hi (by decide)
  | push hp => cases hp

/-- What a command stores ends at the writer's end, `storedBytes` on (20_memory.md R52). -/
theorem Effect.outCell (h : Effect s i c) {a : Nat} (ha : a < s.wlen.toNat ∨ s.wlen.toNat + storedBytes i s ≤ a) :
    c.state.outCell a = s.outCell a := by
  cases h with
  | push hp =>
    rw [storedBytes_of_pushField hp] at ha
    exact (appended_outCell s _ _ a).trans (if_neg (by omega))
  | flush | finish =>
    refine (flushed_outCell s a).trans (if_neg ?_)
    rw [storedBytes] at ha
    omega
  | _ => rfl

end effect

/-! ### From the rule to the command -/

section exec

variable {s t : State} {i : Instr}

theorem exec_keeps {P : State → Prop} (hStatus : ∀ u v f c, P u → P { u with stV := v, stF := f, stCause := c })
    (hs : P s) (hEff : ∀ c, Effect s i c → P c.state) (h : exec i s = .next t) : P t :=
  exec_ensures hStatus hs (ensures_of_effect hEff) h

/-- The frame of all commands. -/
theorem exec_frame (h : exec i s = .next t) : Framed s t :=
  exec_keeps (fun u v f c hu => by rw [Framed, hu.eq]) (.refl s) (fun _ hEff => hEff.frame) h

theorem exec_sameWriter (hi : i.family ≠ .writer) (h : exec i s = .next t) : SameWriter s t :=
  exec_keeps (fun _ _ _ _ hu => ⟨hu.1, hu.2, hu.3, hu.4, hu.5⟩) (.refl s)
    (fun _ hEff => hEff.sameWriter hi) h

theorem exec_sameReader (hi : i.family ≠ .reader) (h : exec i s = .next t) : SameReader s t :=
  exec_keeps (fun _ _ _ _ hu => ⟨hu.1, hu.2, hu.3, hu.4, hu.5⟩) (.refl s)
    (fun _ hEff => hEff.sameReader hi) h

theorem exec_keepsA0 (hi : i ≠ .tbvRev) (h : exec i s = .next t) : t.a0 = s.a0 :=
  (exec_keepsOperands hi h).1

theorem exec_keepsR0 (hi : i ∈ noResultCommands) (h : exec i s = .next t) : t.r0 = s.r0 :=
  exec_keeps (P := fun u => u.r0 = s.r0) (fun _ _ _ _ hu => hu) rfl (fun _ hEff => hEff.keepsR0 hi) h

theorem exec_keepsR1 (hi : i ∉ [Instr.rNxarr, .rNxslc, .mFind]) (h : exec i s = .next t) : t.r1 = s.r1 :=
  exec_keeps (P := fun u => u.r1 = s.r1) (fun _ _ _ _ hu => hu) rfl (fun _ hEff => hEff.keepsR1 hi) h

/-- What ends without a value wrote no result (10_state.md R22). -/
theorem exec_noValue_keepsResults (h : exec i s = .next t) (hV : t.stV = false) : t.r0 = s.r0 ∧ t.r1 = s.r1 := by
  obtain ⟨-, rfl⟩ | ⟨-, ⟨u, -, rfl⟩ | ⟨u, hEff, rfl⟩ | ⟨c, rfl⟩⟩ := exec_effect h
  · exact ⟨rfl, rfl⟩
  · exact absurd hV Bool.noConfusion
  · cases hEff <;> exact ⟨rfl, rfl⟩
  · exact ⟨rfl, rfl⟩

/-- No command writes `IN`, `DATA` or `CAND` (20_memory.md R51, R53, R54). -/
theorem exec_readCell (h : exec i s = .next t) (a : Nat) :
    readCell t a .input = readCell s a .input ∧ readCell t a .data = readCell s a .data ∧
      readCell t a .cand = readCell s a .cand := by
  rw [(exec_frame h).eq]
  exact ⟨rfl, rfl, rfl⟩

theorem exec_readCell_output (h : exec i s = .next t) {a : Nat}
    (ha : a < s.wlen.toNat ∨ s.wlen.toNat + storedBytes i s ≤ a) :
    readCell t a .output = readCell s a .output :=
  exec_keeps (P := fun u => readCell u a .output = readCell s a .output) (fun _ _ _ _ hu => hu) rfl
    (fun _ hEff => congrArg BitVec.toNat (hEff.outCell ha)) h

/-- A command of another family than the writer's writes no cell of any space. -/
theorem exec_readCell_of_ne_writer (hi : i.family ≠ .writer) (h : exec i s = .next t) (a : Nat) (sp : Space) :
    readCell t a sp = readCell s a sp := by
  rw [(exec_frame h).eq, (exec_sameWriter hi h).outMem]
  rfl

end exec

/-! ### The statements -/

/-- Settles O10: the registers of the frame of all commands, and that of a host register write. -/
theorem registersTheUnitMayWrite : Obligations.RegistersTheUnitMayWrite := by
  refine ⟨fun i s t h => ?_, fun s t n v rest hq h => ?_⟩
  · obtain ⟨a₁, a₂, a₃, a₄, a₅, hLen, -, -⟩ := (exec_frame h).kept
    exact ⟨a₁, a₂, a₃, a₄, a₅, fun hi => exec_keepsA0 hi h, hLen, exec_noValue_keepsResults h,
      fun hi => exec_keepsR0 hi h, fun hi => exec_keepsR1 hi h⟩
  · rw [step_writeReg hq, writeReg_frame] at h
    cases h
    exact ⟨rfl, rfl⟩

/-- Settles O11: the stores of the writer commands, and the frame of all commands for the other spaces. -/
theorem onlyTheWriterStoresAndOnlyAtItsEnd : Obligations.OnlyTheWriterStoresAndOnlyAtItsEnd := by
  intro i s t h
  obtain ⟨-, -, -, -, -, -, hCfg, hQueue⟩ := (exec_frame h).kept
  exact ⟨fun a ha => exec_readCell_output h ha, exec_readCell h, hCfg, hQueue⟩

/-- Settles O30: a field logic command keeps both sessions and `R1`. -/
theorem fieldLogicFrame : Obligations.FieldLogicFrame := by
  intro i s t hi h
  have hWriter : i.family ≠ .writer := by simp [hi]
  obtain ⟨w₁, w₂, w₃, w₄, w₅⟩ := exec_sameWriter hWriter h
  obtain ⟨r₁, r₂, r₃, r₄, r₅⟩ := exec_sameReader (by simp [hi]) h
  have hR1 := exec_keepsR1 (not_rangeOrMatch_of_family (.inl hi)) h
  refine ⟨(exec_frame h).eq.trans ?_, fun e => exec_keepsR0 (by subst e; decide) h, fun hi => exec_keepsA0 hi h,
    exec_readCell_of_ne_writer hWriter h⟩
  rw [w₁, w₂, w₃, w₄, w₅, r₁, r₂, r₃, r₄, r₅, hR1]

/-- Settles O60: a match command keeps both sessions and `A0`. -/
theorem matchUnitFrame : Obligations.MatchUnitFrame := by
  intro i s t hi h
  have hWriter : i.family ≠ .writer := by simp [hi]
  obtain ⟨w₁, w₂, w₃, w₄, w₅⟩ := exec_sameWriter hWriter h
  obtain ⟨r₁, r₂, r₃, r₄, r₅⟩ := exec_sameReader (by simp [hi]) h
  have hA0 := exec_keepsA0 (by rintro rfl; cases hi) h
  refine ⟨(exec_frame h).eq.trans ?_, fun e => exec_keepsR1 (by subst e; decide) h,
    exec_readCell_of_ne_writer hWriter h⟩
  rw [w₁, w₂, w₃, w₄, w₅, r₁, r₂, r₃, r₄, r₅, hA0]

/-- Settles O40: a writer command keeps the reader's session, `A0` and `R1`; its stores are those of O11. -/
theorem writerFrame : Obligations.WriterFrame := by
  intro i s t hi h
  obtain ⟨r₁, r₂, r₃, r₄, r₅⟩ := exec_sameReader (by simp [hi]) h
  have hA0 := exec_keepsA0 (by rintro rfl; cases hi) h
  have hR1 := exec_keepsR1 (not_rangeOrMatch_of_family (.inr hi)) h
  refine ⟨(exec_frame h).eq.trans ?_, fun h₁ h₂ => exec_keepsR0 (noResult_of_writer i hi h₁ h₂) h, fun h₁ h₂ => ?_,
    fun e => ?_, fun a ha => exec_readCell_output h ha, exec_readCell h⟩
  · rw [r₁, r₂, r₃, r₄, r₅, hA0, hR1]
  · exact exec_keeps (P := fun u => u.wopen = s.wopen) (fun _ _ _ _ hu => hu) rfl
      (fun _ hEff => hEff.keepsWopen h₁ h₂) h
  · subst e
    obtain ⟨-, h₁, h₂, h₃, -⟩ := exec_keeps (P := SameWriter s) (fun _ _ _ _ hu => ⟨hu.1, hu.2, hu.3, hu.4, hu.5⟩)
      (.refl s) (fun _ hEff => hEff.wBitcnt_sameWriter) h
    exact ⟨h₁, h₂, h₃⟩

/-- Settles O49: a reader command keeps the writer's session, `OUT` and `A0`. -/
theorem readerFrame : Obligations.ReaderFrame := by
  intro i s t hi h
  have hWriter : i.family ≠ .writer := by simp [hi]
  obtain ⟨w₁, w₂, w₃, w₄, w₅⟩ := exec_sameWriter hWriter h
  have hA0 := exec_keepsA0 (by rintro rfl; cases hi) h
  refine ⟨(exec_frame h).eq.trans ?_, fun h₁ h₂ => exec_keepsR1 ?_ h, fun e => exec_keepsR0 ?_ h, fun hNew => ?_,
    exec_readCell_of_ne_writer hWriter h⟩
  · rw [w₁, w₂, w₃, w₄, w₅, hA0]
  · intro hMem
    simp only [List.mem_cons, List.not_mem_nil, or_false] at hMem
    rcases hMem with rfl | rfl | rfl
    · exact h₁ rfl
    · exact h₂ rfl
    · cases hi
  · rcases e with rfl | rfl | rfl <;> decide
  · exact exec_keeps (P := fun u => u.ropen = s.ropen ∧ u.rlen = s.rlen) (fun _ _ _ _ hu => hu) ⟨rfl, rfl⟩
      (fun _ hEff => hEff.keepsSlice hNew) h

end Sys2Proof.Machine
end

