-- ==== Sys2Proof/Proofs/Invariants.lean ====
section
/-! The invariants (10_state.md R35, R39, R24, 20_memory.md R50): at reset, kept by every completion of a rule, by every
command, and by every action of the host. -/

namespace Sys2Proof.Machine

/-! ### Kept by every completion of a rule -/

/-- What a bit read pulled, over a sound reader. -/
theorem justPulled_of_fill {s : State} {w : Nat} {q : Pulled} (hr : ReaderInv s) (hw : w ≤ 24) (hAvail : w ≤ avail s)
    (hFill : fill s w = .ok q) : JustPulled s w q := by
  obtain ⟨q', hFill', hq⟩ := fill_pulls hr hw hAvail
  rw [hFill] at hFill'
  cases hFill'
  exact hq

/-- With nothing buffered and the slice within `IN` an open reader is sound (10_state.md R39). -/
theorem readerInv_of_new {s : State} (ho : s.ropen = true) (hIdx : s.ridx = 0) (hAcc : s.racc = 0)
    (hLeft : s.rleft = 0) (hLen : s.rlen.toNat ≤ s.cfg.inCap) : ReaderInv s := by
  refine ⟨?_, hLen, ?_, ?_, fun hn => absurd (ho.symm.trans hn) Bool.noConfusion⟩
  · rw [hIdx]
    exact Nat.zero_le _
  · rw [hLeft]
    exact Nat.zero_le _
  · rw [hAcc, hLeft]
    decide

theorem coherent_of_noBits {s : State} (h : s.rleft = 0) : Coherent s := by
  intro j hj
  rw [h] at hj
  exact absurd hj (Nat.not_lt_zero j)

theorem memoryInv_flushed {s : State} (h : MemoryInv s) (hfit : s.wpos.toNat = 0 ∨ s.wlen.toNat + 1 ≤ s.cfg.outCap) :
    MemoryInv (flushed s) := by
  unfold flushed
  split
  case isTrue => exact h
  case isFalse h0 => exact memoryInv_writeOut (bytes := [s.wacc]) h (hfit.resolve_left h0)

section effect

variable {s : State} {i : Instr} {c : Completion}

theorem Effect.memoryInv (h : Effect s i c) (hm : MemoryInv s) : MemoryInv c.state := by
  cases h with
  | push _ _ hfit => exact memoryInv_writeOut hm (by rwa [length_bytesOf])
  | flush hfit => exact memoryInv_flushed hm hfit
  | finish hfit => exact memoryInv_flushed hm hfit
  | _ => exact hm

theorem Effect.writerInv (h : Effect s i c) (hc : s.cfg.wf) (hw : WriterInv s) : WriterInv c.state := by
  cases h with
  | newWriter => exact writerInv_of_noPending rfl rfl (Nat.zero_le _)
  | push _ ho hfit => exact writerInv_appended hc hw ho hfit _
  | flush hfit => exact writerInv_flushed hc hw hfit
  | finish hfit =>
    obtain ⟨-, hFinished, -⟩ := written_finished hc hw hfit
    exact hFinished
  | _ => exact hw

theorem Effect.readerInv (h : Effect s i c) (hr : ReaderInv s) : ReaderInv c.state := by
  cases h with
  | alignedNoValue | aligned => exact readerInv_align hr
  | newReader hfit => exact readerInv_of_new rfl rfl rfl rfl hfit
  | pulled _ ho hw hc hAvail hFill =>
    have hq := justPulled_of_fill hr hw hAvail hFill
    have hKept := readerInv_consume hr ho hq.inv hq.fits (hc.trans hq.enough)
    exact hKept
  | taken _ ho hLeft => exact readerInv_rawTaken hr ho hLeft
  | flush | finish =>
    rw [Completion.state, flushed_frame]
    exact hr
  | _ => exact hr

/-- Item (e) of 10_state.md R39. -/
theorem Effect.coherent (h : Effect s i c) (hr : ReaderInv s) (hCoherent : Coherent s) : Coherent c.state := by
  cases h with
  | alignedNoValue | aligned => exact coherent_align hr hCoherent
  | newReader => exact coherent_of_noBits rfl
  | pulled _ _ hw hc hAvail hFill =>
    have hq := justPulled_of_fill hr hw hAvail hFill
    have hKept := coherent_consume hr hCoherent hq.inv hq.fits (hc.trans hq.enough)
    exact hKept
  | taken => exact coherent_of_noBits rfl
  | flush | finish =>
    rw [Completion.state, flushed_frame]
    exact hCoherent
  | _ => exact hCoherent

end effect

/-! ### Kept by every command -/

theorem statusInv_raise (s : State) (c : Cause) : StatusInv (s.raise c) :=
  ⟨fun hn => absurd hn Bool.noConfusion, fun _ => ⟨rfl, causeCode_bounds c⟩⟩

/-- A serving unit stays so when a command completes, and has no cause (10_state.md R24). -/
theorem exec_keepsStatusInv {i : Instr} {s t : State} (hs : StatusInv s) (h : exec i s = .next t) : StatusInv t := by
  have served {u : State} (hF : Serving s) (hu : u.stF = s.stF ∧ u.stCause = s.stCause) : StatusInv u := by
    obtain ⟨hFault, hCause⟩ := hu
    have hF' : u.stF = false := hFault.trans hF
    exact ⟨fun _ => hCause.trans (hs.1 hF), fun hn => absurd (hF'.symm.trans hn) Bool.noConfusion⟩
  obtain ⟨-, rfl⟩ | ⟨hF, ⟨u, hEff, rfl⟩ | ⟨u, hEff, rfl⟩ | ⟨c, rfl⟩⟩ := exec_effect h
  · exact hs
  · exact served (u := u.withValue) hF hEff.keepsFault
  · exact served (u := u.withoutValue) hF hEff.keepsFault
  · exact statusInv_raise s c

theorem exec_keepsInv {i : Instr} {s t : State} (hs : Inv s) (h : exec i s = .next t) : Inv t := by
  obtain ⟨hc, hm, hw, hr, hStatus⟩ := hs
  obtain ⟨hm', hw', hr'⟩ := exec_keeps (P := fun u => MemoryInv u ∧ WriterInv u ∧ ReaderInv u)
    (fun _ _ _ _ hu => hu) ⟨hm, hw, hr⟩
    (fun _ hEff => ⟨hEff.memoryInv hm, hEff.writerInv hc hw, hEff.readerInv hr⟩) h
  obtain ⟨-, -, -, -, -, -, hCfg, -⟩ := (exec_frame h).kept
  exact ⟨hCfg ▸ hc, hm', hw', hr', exec_keepsStatusInv hStatus h⟩

theorem exec_keepsReader {i : Instr} {s t : State} (hr : ReaderInv s) (hCoherent : Coherent s)
    (h : exec i s = .next t) : ReaderInv t ∧ Coherent t :=
  exec_keeps (P := fun u => ReaderInv u ∧ Coherent u) (fun _ _ _ _ hu => hu) ⟨hr, hCoherent⟩
    (fun _ hEff => ⟨hEff.readerInv hr, hEff.coherent hr hCoherent⟩) h

/-- Settles O19: over a sound reader each completion moves along the stream by what it consumes. -/
theorem everyCommandKeepsTheBufferedBits : Obligations.EveryCommandKeepsTheBufferedBits := by
  intro i s t hInv hCoherent h
  obtain ⟨-, -, -, hr, -⟩ := hInv
  exact exec_keepsReader hr hCoherent h

/-! ### Kept by every action of the host -/

/-- Everything an action of the host can do. -/
theorem act_next {s t : State} {a : HostAction} (h : act s a = .next t) :
    t = s ∨ (∃ n v, t = writeReg s n v) ∨
      (∃ index cells, (cells.count = 0 ∨ index + cells.count ≤ capacity s.cfg cells.space) ∧
        badElement? s.cfg cells = none ∧ t = storeCells s index cells) ∨
      (∃ i, exec i s = .next t) ∨ (Serving s ∧ t = s.raise .illegalCommand) ∨ (a = .reset ∧ t = s.resetEvent) := by
  cases a with
  | writeReg n v =>
    cases h
    exact .inr (.inl ⟨n, v, rfl⟩)
  | readReg n =>
    cases h
    exact .inl rfl
  | writeMem index cells => exact .inr (.inr (.inl ⟨index, cells, writeMem_next h⟩))
  | readMem sp index =>
    rw [act] at h
    split at h
    · cases h
      exact .inl rfl
    · cases h
  | command c =>
    rw [act] at h
    obtain ⟨i, -, e⟩ | ⟨-, e⟩ := issue_cases s c <;> rw [e] at h
    · exact .inr (.inr (.inr (.inl ⟨i, h⟩)))
    · cases hF : s.stF with
      | true =>
        rw [serve_of_faulted hF] at h
        cases h
        exact .inl rfl
      | false =>
        rw [serve_of_serving hF] at h
        cases h
        exact .inr (.inr (.inr (.inr (.inl ⟨hF, rfl⟩))))
  | reset =>
    cases h
    exact .inr (.inr (.inr (.inr (.inr ⟨rfl, rfl⟩))))

/-- A host memory statement writes the memories alone (30_encoding.md R77). -/
theorem storeCells_frame (s : State) (index : Nat) (cells : CellList) :
    storeCells s index cells = { s with
      inMem := (storeCells s index cells).inMem, outMem := (storeCells s index cells).outMem
      dataMem := (storeCells s index cells).dataMem, candMem := (storeCells s index cells).candMem } := by
  cases cells <;> rfl

theorem inv_storeCells {s : State} {index : Nat} {cells : CellList} (hs : Inv s)
    (hCap : cells.count = 0 ∨ index + cells.count ≤ capacity s.cfg cells.space)
    (hElem : badElement? s.cfg cells = none) : Inv (storeCells s index cells) := by
  obtain ⟨hc, hm, hw, hr, hStatus⟩ := hs
  have hm' := memoryInv_storeCells hm hCap hElem
  rw [storeCells_frame] at hm' ⊢
  exact ⟨hc, hm', hw, hr, hStatus⟩

/-- A reset closes both sessions and clears the fault; the parameters and the memories stay sound. -/
theorem inv_resetEvent {s : State} (hc : s.cfg.wf) (hm : MemoryInv s) : Inv s.resetEvent := by
  refine ⟨hc, hm, writerInv_of_noPending rfl rfl (Nat.zero_le _), ?_, fun _ => rfl,
    fun hn => absurd hn Bool.noConfusion⟩
  exact ⟨Nat.zero_le _, Nat.zero_le _, Nat.zero_le _, Nat.zero_lt_one, fun _ => ⟨rfl, rfl, rfl, rfl⟩⟩

theorem act_keepsInv {s t : State} {a : HostAction} (hs : Inv s) (h : act s a = .next t) : Inv t := by
  obtain rfl | ⟨n, v, rfl⟩ | ⟨index, cells, hCap, hElem, rfl⟩ | ⟨i, hExec⟩ | ⟨-, rfl⟩ | ⟨-, rfl⟩ := act_next h
  · exact hs
  · rw [writeReg_frame]
    exact hs
  · exact inv_storeCells hs hCap hElem
  · exact exec_keepsInv hs hExec
  · obtain ⟨hc, hm, hw, hr, -⟩ := hs
    exact ⟨hc, hm, hw, hr, statusInv_raise s _⟩
  · obtain ⟨hc, hm, -, -, -⟩ := hs
    exact inv_resetEvent hc hm

/-- Settles O18: the invariants do not speak of the host's list, and its action keeps them. -/
theorem everyStepKeepsTheInvariants : Obligations.EveryStepKeepsTheInvariants := by
  intro s t hs h
  obtain ⟨-, e⟩ | ⟨a, rest, -, e⟩ := step_cases s <;> rw [e] at h
  · cases h
    exact hs
  · exact act_keepsInv (s := { s with queue := rest }) hs h

/-- Settles O17: the reset state is what a reset leaves, with sound parameters and empty memories. -/
theorem invariantsHoldAtReset : Obligations.InvariantsHoldAtReset :=
  ⟨inv_resetEvent (s := State.reset) (by decide) memoryInv_reset, coherent_of_noBits rfl⟩

end Sys2Proof.Machine
end

