-- ==== Sys2Proof/Proofs/HostSteps.lean ====
section
/-! The words of the opcode map (30_encoding.md R72 to R74), the word `ST` (10_state.md R24), and the steps of the host:
a command, a memory statement, a reset, and any action upon a faulted unit. -/

namespace Sys2Proof.Machine

/-! ### The opcode map -/

theorem opcodeMap_of_listed {op : Nat} (h : listedOpcode op = true) : ∃ i, opcodeMap op = some i := by
  simp only [listedOpcode, Bool.or_eq_true, Bool.and_eq_true, decide_eq_true_eq] at h
  obtain ((⟨h₁, h₂⟩ | ⟨h₁, h₂⟩) | ⟨h₁, h₂⟩) | ⟨h₁, h₂⟩ := h <;> interval_cases op <;> exact ⟨_, rfl⟩

theorem decode_of_legalWord {c : Word} (h : legalWord c = true) : ∃ i, decode c = .ok i := by
  obtain ⟨hHigh, hLow⟩ := Bool.and_eq_true_iff.1 h
  obtain ⟨i, hMap⟩ := opcodeMap_of_listed hLow
  have hZero : c.toNat / 2 ^ 8 = 0 := beq_iff_eq.1 hHigh
  exact ⟨i, by rw [decode, if_neg (not_not_intro hZero), hMap]⟩

/-- Settles O1: the decoder inverts the encoder both ways, and decodes every listed opcode. -/
theorem decodeIsExact : Obligations.DecodeIsExact := by
  refine ⟨fun i _ => decode_encode i, fun c => ⟨fun i => ⟨eq_encode_of_decode, ?_⟩, ?_, decode_of_legalWord⟩⟩
  · rintro rfl
    exact decode_encode i
  · rintro ⟨i, hi⟩
    exact legalWord_of_decode hi

/-- Settles O2: each listed word is its command's own word; the other two fail the two checks. -/
theorem sampleWordsDecode : Obligations.SampleWordsDecode :=
  ⟨decode_encode .bwNew, decode_encode .tbvEq, decode_encode .wPush, decode_encode .wFin, decode_encode .rBits,
    decode_encode .rNxslc, decode_encode .mFind, rfl, rfl⟩

/-! ### A command word -/

theorem act_command {c : Word} {i : Instr} (h : decode c = .ok i) (s : State) : act s (.command c) = exec i s := by
  rw [act, issue, h]

/-- Settles O3: the step is the command of the word the host's list begins with. -/
theorem stepRunsTheDecodedCommand : Obligations.StepRunsTheDecodedCommand := by
  intro s c i hDecode
  have hStep (s : State) (rest : List HostAction) (hq : s.queue = .command c :: rest) :
      step s = exec i { s with queue := rest } := by
    rw [step_cons hq, act_command hDecode]
  have hWord : BitVec.ofNat 32 (c.toNat % 2 ^ 32) = c := by
    rw [Nat.mod_eq_of_lt c.isLt, BitVec.ofNat_toNat, BitVec.setWidth_eq]
  refine ⟨hStep s, hStep (s.withFetchWord 32 c.toNat) s.queue ?_⟩
  rw [State.withFetchWord, hWord]

theorem exec_of_faulted {s : State} (h : s.stF = true) (i : Instr) : exec i s = .next s := by
  rw [exec_eq_serve, serve_of_faulted h]

theorem issue_of_faulted {s : State} (h : s.stF = true) (c : Word) : issue s c = .next s := by
  obtain ⟨i, -, e⟩ | ⟨-, e⟩ := issue_cases s c
  · rw [e, exec_of_faulted h]
  · rw [e, serve_of_faulted h]

/-- Settles O5: both kinds of word end in the refusal of a faulted unit. -/
theorem faultedUnitRefusesEveryCommand : Obligations.FaultedUnitRefusesEveryCommand :=
  fun s hF => ⟨exec_of_faulted hF, fun c rest hq =>
    (step_cons hq).trans (issue_of_faulted (s := { s with queue := rest }) hF c)⟩

/-- An action other than a reset leaves a fault as it is. -/
theorem act_keepsFault {s t : State} {a : HostAction} (hF : s.stF = true) (ha : a ≠ .reset) (h : act s a = .next t) :
    t.stF = true ∧ t.stCause = s.stCause := by
  obtain rfl | ⟨n, v, rfl⟩ | ⟨index, cells, -, -, rfl⟩ | ⟨i, hExec⟩ | ⟨hServing, -⟩ | ⟨hReset, -⟩ := act_next h
  · exact ⟨hF, rfl⟩
  · rw [writeReg_frame]
    exact ⟨hF, rfl⟩
  · rw [storeCells_frame]
    exact ⟨hF, rfl⟩
  · rw [exec_of_faulted hF] at hExec
    cases hExec
    exact ⟨hF, rfl⟩
  · exact absurd (hF.symm.trans hServing) Bool.noConfusion
  · exact absurd hReset ha

/-- Settles O8: a step is no action or one that is not a reset. -/
theorem onlyResetClearsAFault : Obligations.OnlyResetClearsAFault := by
  intro s t h hF hQueue
  obtain ⟨-, e⟩ | ⟨a, rest, hq, e⟩ := step_cases s <;> rw [e] at h
  · cases h
    exact ⟨hF, rfl⟩
  · have ha : a ≠ .reset := by
      rintro rfl
      exact hQueue rest hq
    exact act_keepsFault (s := { s with queue := rest }) hF ha h

/-! ### The word `ST` -/

theorem stWord_toNat (s : State) :
    (stWord s).toNat =
      s.stV.toNat + 2 * s.stF.toNat + 4 * s.wopen.toNat + 8 * s.ropen.toNat + 2 ^ 8 * s.stCause.toNat := by
  have h₁ := s.stV.toNat_le
  have h₂ := s.stF.toNat_le
  have h₃ := s.wopen.toNat_le
  have h₄ := s.ropen.toNat_le
  have h₅ := s.stCause.isLt
  exact toNat_ofNat_of_lt (by omega)

/-- A bit of a word is a flag when the word's number says so. -/
theorem getLsbD_eq_flag {w : Word} {k : Nat} {b : Bool} (h : w.toNat / 2 ^ k % 2 = b.toNat) : w.getLsbD k = b := by
  rw [← BitVec.testBit_toNat, Nat.testBit_eq_decide_div_mod_eq, h]
  cases b <;> rfl

theorem extractLsb'_eq_of_toNat {w : Word} {k n : Nat} {v : BitVec n} (h : w.toNat / 2 ^ k % 2 ^ n = v.toNat) :
    w.extractLsb' k n = v := by
  apply BitVec.eq_of_toNat_eq
  rw [BitVec.extractLsb'_toNat, Nat.shiftRight_eq_div_pow, h]

/-- Settles O12: each field of the word is read off its number, a sum of the fields at their places. -/
theorem statusWordLayout : Obligations.StatusWordLayout := by
  intro s
  have hWord := stWord_toNat s
  have h₁ := s.stV.toNat_le
  have h₂ := s.stF.toNat_le
  have h₃ := s.wopen.toNat_le
  have h₄ := s.ropen.toNat_le
  have h₅ := s.stCause.isLt
  have hLow : (stWord s).toNat / 2 ^ 4 % 2 ^ 4 = 0 := by omega
  have hHigh : (stWord s).toNat / 2 ^ 16 % 2 ^ 16 = 0 := by omega
  refine ⟨getLsbD_eq_flag ?_, getLsbD_eq_flag ?_, getLsbD_eq_flag ?_, getLsbD_eq_flag ?_,
    extractLsb'_eq_of_toNat hLow, extractLsb'_eq_of_toNat ?_, extractLsb'_eq_of_toNat hHigh⟩ <;> omega

/-! ### The reset -/

/-- Every register number of the reset state reads 0 (10_state.md R43). -/
theorem readReg_reset (n : Nat) : readReg State.reset n = 0 := by
  unfold readReg
  split <;> rfl

/-- Settles O15: the registers number by number; the rest are the fields of the reset state. -/
theorem resetStateIsZero : Obligations.ResetStateIsZero :=
  ⟨readReg_reset, rfl, rfl, rfl, rfl, rfl, rfl, rfl, rfl, rfl⟩

/-- Settles O16: no register reads the memories, so each reads as in the reset state. -/
theorem resetEventClearsAllButMemory : Obligations.ResetEventClearsAllButMemory :=
  fun _ _ hq => ⟨_, step_cons hq, readReg_reset, rfl, rfl, rfl, rfl, rfl, rfl, rfl, rfl, rfl, rfl, rfl⟩

/-! ### A host memory statement (R77) -/

/-- A written cell holds what was listed for it. -/
theorem getElem?_eq_read?_writeFrom {α : Type} (m : Memory α) (vs : List α) {a k : Nat} (h₁ : a ≤ k)
    (h₂ : k < a + vs.length) (u : α) : vs[k - a]? = some (((Memory.writeFrom m a vs).read? k).getD u) := by
  rw [Memory.read?_writeFrom, if_pos ⟨h₁, h₂⟩, List.getElem?_eq_getElem (by omega)]
  rfl

theorem writeMem_of_fits {s : State} {index : Nat} {cells : CellList}
    (hCap : index + cells.count ≤ capacity s.cfg cells.space) (hElem : badElement? s.cfg cells = none) :
    writeMem s index cells = .next (storeCells s index cells) := by
  rw [writeMem, if_neg fun h => absurd h.2 (by omega), hElem]

/-- Cells beside the listed ones, and those of the other spaces, read as before. -/
theorem readCell_storeCells_outside (s : State) {index : Nat} {cells : CellList} {k : Nat} {sp : Space}
    (h : sp ≠ cells.space ∨ k < index ∨ index + cells.count ≤ k) :
    readCell (storeCells s index cells) k sp = readCell s k sp := by
  by_cases hSpace : sp = cells.space
  · subst hSpace
    have hOut := h.resolve_left fun hne => hne rfl
    cases cells with
    | input vs | output vs | data vs | cand vs =>
      simp only [CellList.space, storeCells, readCell, State.inCell, State.outCell, State.dataCell, State.candCell]
      rw [Memory.read?_writeFrom_outside _ _ _ hOut]
  · cases cells with
    | input => cases sp with
      | input => exact absurd rfl hSpace
      | _ => rfl
    | output => cases sp with
      | output => exact absurd rfl hSpace
      | _ => rfl
    | data => cases sp with
      | data => exact absurd rfl hSpace
      | _ => rfl
    | cand => cases sp with
      | cand => exact absurd rfl hSpace
      | _ => rfl

/-- Settles O14: a statement that fits stores its cells, and a store is read back cell by cell. -/
theorem hostMemoryStatementsWriteTheirCells : Obligations.HostMemoryStatementsWriteTheirCells := by
  intro s a cells rest hq hCap hElem
  refine ⟨storeCells { s with queue := rest } a cells, (step_cons hq).trans (writeMem_of_fits hCap hElem),
    fun k h₁ h₂ => ?_, fun k sp h => readCell_storeCells_outside { s with queue := rest } h, storeCells_frame _ _ _⟩
  cases cells with
  | input vs => exact getElem?_eq_read?_writeFrom _ vs h₁ h₂ _
  | output vs => exact getElem?_eq_read?_writeFrom _ vs h₁ h₂ _
  | data vs => exact getElem?_eq_read?_writeFrom _ vs h₁ h₂ _
  | cand vs => exact getElem?_eq_read?_writeFrom _ vs h₁ h₂ _

end Sys2Proof.Machine
end

