-- ==== Sys2Proof/Proofs/Sessions.lean ====
section
/-! The sessions: the checks for a writer and a reader (41_writer.md R120, 42_reader.md R140), the push wrappers
(R123 to R125), the padding of a flush (R126, R128) and the single-bit iteration (30_encoding.md R83). -/

namespace Sys2Proof.Machine

/-! ### The checks for a session -/

theorem exec_writer_closed {i : Instr} {s : State} (hi : i.family = .writer) (hNew : i ≠ .wNew) (hF : Serving s)
    (ho : s.wopen = false) : exec i s = .next (s.raise .writerNotOpen) := by
  cases i with
  | wNew => exact absurd rfl hNew
  | wPush | wPbool | wPbyte | wPnib | wAlign | wBitcnt | wFin => exact exec_withoutWriter _ hF rfl ho
  | _ => cases hi

theorem exec_reader_closed {i : Instr} {s : State} (hi : i.family = .reader) (hNew : i ≠ .rNew) (hF : Serving s)
    (ho : s.ropen = false) : exec i s = .next (s.raise .readerNotOpen) := by
  cases i with
  | rNew => exact absurd rfl hNew
  | rBool | rNib | rByte | rBits | rPeek | rAdv | rAlign | rNxbyte | rNxarr | rNxslc =>
    exact exec_withoutReader _ hF rfl ho
  | _ => cases hi

/-- Settles O39: the check for a session is the first of each rule, the width check the second. -/
theorem sessionsAreCheckedFirst : Obligations.SessionsAreCheckedFirst := by
  refine fun s hF => ⟨fun ho i hi hNew => exec_writer_closed hi hNew hF ho,
    fun ho i hi hNew => exec_reader_closed hi hNew hF ho, fun ho hw i hi => ?_⟩
  rcases hi with rfl | rfl | rfl <;> exact exec_bitRead_badWidth rfl hF ho hw

/-! ### The push wrappers -/

/-- Two pushes of the same field end alike, whatever word in `A0` gives the field. -/
theorem exec_push_congr {i j : Instr} {s : State} {w v : Nat} {a : Word} (hi : pushField i s = some (w, v))
    (hj : pushField j { s with a0 := a } = some (w, v)) :
    ∃ t, exec j { s with a0 := a } = .next t ∧ exec i s = .next { t with a0 := s.a0 } := by
  rcases Bool.eq_false_or_eq_true s.stF with hF | hF
  · exact ⟨_, exec_of_faulted (s := { s with a0 := a }) hF j, exec_of_faulted hF i⟩
  rcases Bool.eq_false_or_eq_true s.wopen with ho | ho
  · rw [exec_withWriter j (s := { s with a0 := a }) hF (rule_of_pushField hj) ho,
      exec_withWriter i hF (rule_of_pushField hi) ho]
    by_cases hw : 1 ≤ w ∧ w ≤ 24
    · rw [needWidth_of_valid hw, needWidth_of_valid hw]
      obtain ⟨hfit, e⟩ | ⟨hover, e⟩ := appendBits_cases s w v
      · rw [e, appendBits_fits (s := { s with a0 := a }) v hfit]
        exact ⟨_, rfl, rfl⟩
      · rw [e, appendBits_overflows (s := { s with a0 := a }) v hover]
        exact ⟨_, rfl, rfl⟩
    · rw [needWidth_of_invalid hw, needWidth_of_invalid hw]
      exact ⟨_, rfl, rfl⟩
  · exact ⟨_, exec_withoutWriter j (s := { s with a0 := a }) hF (rule_of_pushField hj) ho,
      exec_withoutWriter i hF (rule_of_pushField hi) ho⟩

/-- `W.PUSH` of the TBV of a value below 24 bits pushes that value. -/
theorem pushField_wPush_mkTbv {w v : Nat} (hw : w < 2 ^ 8) (hv : v < 2 ^ 24) (s : State) :
    pushField .wPush { s with a0 := mkTbv w v } = some (w, v) := by
  rw [pushField, tbvWidth_mkTbv hw, tbvPayload_mkTbv hw, Nat.mod_eq_of_lt hv]

/-- Settles O33: each wrapper pushes the field of the matching TBV. -/
theorem pushWrappersEqualWPush : Obligations.PushWrappersEqualWPush :=
  fun s => ⟨exec_push_congr (i := .wPbool) rfl (pushField_wPush_mkTbv (by decide) (by omega) s),
    exec_push_congr (i := .wPbyte) rfl (pushField_wPush_mkTbv (by decide) (by omega) s),
    exec_push_congr (i := .wPnib) rfl (pushField_wPush_mkTbv (by decide) (by omega) s)⟩

/-! ### The padding of a flush -/

section flush

variable {s : State} (hF : Serving s) (ho : s.wopen = true)
  (hfit : s.wpos.toNat = 0 ∨ s.wlen.toNat + 1 ≤ s.cfg.outCap)
include hfit

theorem flush_fits : flush s = .ok (flushed s) := by
  obtain ⟨-, e⟩ | ⟨h0, hover, -⟩ := flush_cases s
  · exact e
  · omega

include hF ho

theorem exec_wAlign_fits : exec .wAlign s = .next (flushed s).withValue := by
  rw [exec_withWriter .wAlign hF rfl ho, flush_fits hfit]
  rfl

theorem exec_wFin_fits :
    exec .wFin s = .next (State.withValue
      { flushed s with wacc := 0, wpos := 0, wopen := false, r0 := (flushed s).wlen }) := by
  rw [exec_withWriter .wFin hF rfl ho, flush_fits hfit]
  rfl

end flush

/-- Settles O37: both commands leave the string the flush pads, and after it nothing is pending. -/
theorem flushPadsWithZeros : Obligations.FlushPadsWithZeros := by
  intro s hc hw hF ho hfit
  have hPadded := outBits_flushed hc hw hfit
  obtain ⟨-, -, hFlushed⟩ := written_flushed hc hw hfit
  obtain ⟨-, -, hFinished⟩ := written_finished hc hw hfit
  have hSame := hFinished.trans hFlushed.symm
  refine ⟨_, _, exec_wAlign_fits hF ho hfit, exec_wFin_fits hF ho hfit, hPadded, hSame,
    BitVec.eq_of_toNat_eq (flushed_wpos s), ?_, rfl⟩
  exact (length_outBits (State.withValue
    { flushed s with wacc := 0, wpos := 0, wopen := false, r0 := (flushed s).wlen })).symm

/-! ### The single-bit iteration -/

theorem iterate_noValue {s t : State} (h : exec .rBool s = .next t) (hV : t.stV = false) (fuel : Nat) :
    iterate (fuel + 1) s = ([], t) := by
  simp [iterate, issue, decode_encode, h, hV]

theorem iterate_value {s t : State} (h : exec .rBool s = .next t) (hV : t.stV = true) (hF : Serving t) (fuel : Nat) :
    iterate (fuel + 1) s = (t.r0.getLsbD 0 :: (iterate fuel t).1, (iterate fuel t).2) := by
  simp [iterate, issue, decode_encode, h, hV, hF]

/-- `avail` by the logical position (10_state.md R40, R41). -/
theorem avail_eq_sub_rbitpos {s : State} (hr : ReaderInv s) : avail s = 8 * s.rlen.toNat - rbitpos s := by
  obtain ⟨hIdx, -, hLeft, -⟩ := hr
  rw [avail, rbitpos]
  omega

/-- With a bit left `R.BOOL` returns it and moves on by one (42_reader.md R144). -/
theorem exec_rBool_enough {s : State} (hr : ReaderInv s) (hc : Coherent s) (hF : Serving s) (ho : s.ropen = true)
    (h : 1 ≤ avail s) :
    ∃ t, exec .rBool s = .next t ∧ t.stV = true ∧ Serving t ∧ t.ropen = true ∧
      t.r0.getLsbD 0 = streamBit s (rbitpos s) ∧ avail t = avail s - 1 ∧ rbitpos t = rbitpos s + 1 ∧
      t.inMem = s.inMem := by
  obtain ⟨-, -, -, -, hReads⟩ := bitReadsReturnTheFieldAtThePosition
  obtain ⟨-, -, hOpen⟩ := hReads .rBool s 1 rfl hr hc hF
  obtain ⟨t, ht, hR0, hPos, -, -, -, hFrame⟩ := (hOpen ho le_rfl (by decide)).1 ((avail_le_iff hr 1).1 h)
  obtain ⟨hr', -⟩ := exec_keepsReader hr hc ht
  have hBit : t.r0.getLsbD 0 = streamBit s (rbitpos s) := by
    rw [← BitVec.testBit_toNat, hR0, field_testBit]
    rfl
  have hLen : t.rlen = s.rlen := by rw [hFrame]
  refine ⟨t, ht, by rw [hFrame], by rw [hFrame]; exact hF, by rw [hFrame]; exact ho, hBit, ?_, hPos, by rw [hFrame]⟩
  rw [avail_eq_sub_rbitpos hr', avail_eq_sub_rbitpos hr, hLen, hPos, Nat.sub_add_eq]

/-- Settles O50, by induction on the bound: a bit left is returned and the iteration goes on from the next; with none
left `R.BOOL` ends with no value, and again so. -/
theorem iterationGivesTheRemainingBits : Obligations.IterationGivesTheRemainingBits := by
  intro s fuel hr hc hF ho hFuel
  induction fuel generalizing s with
  | zero => exact absurd hFuel (Nat.not_lt_zero _)
  | succ fuel ih =>
    rcases Nat.eq_zero_or_pos (avail s) with hNone | hSome
    · have hShort : avail s < 1 := by omega
      have hEnd : exec .rBool s = .next s.withoutValue := exec_bitRead_short rfl hF ho (by decide) hShort
      have hAgain : exec .rBool s.withoutValue = .next s.withoutValue :=
        exec_bitRead_short (s := s.withoutValue) rfl hF ho (by decide) hShort
      rw [iterate_noValue hEnd rfl, hNone]
      exact ⟨rfl, rfl, hF, hNone, hAgain⟩
    · obtain ⟨t, ht, hV, hF', ho', hBit, hAvail, hPos, hIn⟩ := exec_rBool_enough hr hc hF ho hSome
      obtain ⟨hr', hc'⟩ := exec_keepsReader hr hc ht
      obtain ⟨hBits, hEnd⟩ := ih t hr' hc' hF' ho' (by omega)
      rw [iterate_value ht hV hF']
      refine ⟨?_, hEnd⟩
      have hStream (j : Nat) : streamBit t (rbitpos t + j) = streamBit s (rbitpos s + (j + 1)) := by
        rw [hPos, streamBit, State.inCell, hIn, Nat.add_assoc, Nat.add_comm 1 j]
        rfl
      rw [show avail s = avail t + 1 by omega, List.range_succ_eq_map, List.map_cons, List.map_map, hBits, hBit]
      exact congrArg _ (List.map_congr_left fun j _ => hStream j)

end Sys2Proof.Machine
end

