-- ==== Sys2Proof/Proofs/MatchFind.lean ====
section
/-! `M.FIND` (43_match.md R174 to R179): its checks, the best of the candidates in front of a place, the scan up to that
place, then the ends of the command. -/

namespace Sys2Proof.Machine

/-! ### The checks before the scan (R174) -/

section checks

variable {s : State}

theorem exec_mFind_overlong (hF : Serving s) (h : s.cfg.dataCap < s.dlen.toNat ∨ s.cfg.candCap < s.a5.toNat) :
    exec .mFind s = .next (s.raise .lengthOutOfRange) := by
  rw [exec_of_serving hF, rule, ruleMFind]
  split_ifs with hd hn
  · rfl
  · rfl
  · exact absurd h (not_or_intro hd hn)

/-- Past the checks of the two lengths the command is `fdm`. -/
theorem exec_mFind_eq_find (hF : Serving s) (hd : s.dlen.toNat ≤ s.cfg.dataCap) (hn : s.a5.toNat ≤ s.cfg.candCap) :
    exec .mFind s =
      finish s (findMatch s s.a0.toNat s.a1.toNat s.a2.toNat s.a3.toNat s.a4.toNat s.a5.toNat) := by
  rw [exec_of_serving hF, rule, ruleMFind, if_neg (Nat.not_lt.2 hd), if_neg (Nat.not_lt.2 hn)]

end checks

/-- What `fdm` makes of the best candidate the scan ends with (R176). -/
def findEnd (s : State) (tmin g : Nat) (b : Best) : Body :=
  if b.len + g < tmin then .ok (.noValue s)
  else if b.dist = 0 then .ok (.noValue s)
  else .ok (.value { s with r0 := BitVec.ofNat 32 (b.len + g), r1 := BitVec.ofNat 32 b.dist })

/-- Without a distance there is no match (R176). -/
theorem findEnd_zero (s : State) (tmin g : Nat) : findEnd s tmin g { len := 0, dist := 0 } = .ok (.noValue s) := by
  simp [findEnd]

theorem findEnd_dist (s : State) (tmin g n : Nat) {d : Word} (hd : d.toNat ≠ 0) :
    findEnd s tmin g { len := n, dist := d.toNat } =
      if n + g < tmin then .ok (.noValue s) else .ok (.value { s with r0 := BitVec.ofNat 32 (n + g), r1 := d }) := by
  rw [findEnd, if_neg hd, BitVec.ofNat_toNat, BitVec.setWidth_eq]

section find

variable {s : State} {cursor maxLen tmin tmax g ncand : Nat}

theorem findMatch_of_underflow (h : maxLen < g ∨ tmax < g) :
    findMatch s cursor maxLen tmin tmax g ncand = .error (.raise .argUnderflow) := by
  rw [findMatch]
  split_ifs with hMax hThreshold
  · rfl
  · rfl
  · exact absurd h (not_or_intro hMax hThreshold)

theorem findMatch_of_error {e : Abort} (hMax : g ≤ maxLen) (hThreshold : g ≤ tmax)
    (h : scanCandidates s (cursor + g) (maxLen - g) (tmax - g) ncand 0 { len := 0, dist := 0 } = .error e) :
    findMatch s cursor maxLen tmin tmax g ncand = .error e := by
  rw [findMatch, if_neg (Nat.not_lt.2 hMax), if_neg (Nat.not_lt.2 hThreshold), h]

theorem findMatch_of_best {b : Best} (hMax : g ≤ maxLen) (hThreshold : g ≤ tmax)
    (h : scanCandidates s (cursor + g) (maxLen - g) (tmax - g) ncand 0 { len := 0, dist := 0 } = .ok b) :
    findMatch s cursor maxLen tmin tmax g ncand = findEnd s tmin g b := by
  rw [findMatch, if_neg (Nat.not_lt.2 hMax), if_neg (Nat.not_lt.2 hThreshold), h]
  rfl

end find

/-- Settles O56: the checks in their order; with no candidates the scan ends where it began, with no distance. -/
theorem mFindChecksBeforeTheScan : Obligations.MFindChecksBeforeTheScan := by
  refine fun s hF => ⟨exec_mFind_overlong hF, fun hd hn => ⟨fun h => ?_, fun hMax hThreshold hEmpty => ?_⟩⟩
  · rw [exec_mFind_eq_find hF hd hn, findMatch_of_underflow h]
    rfl
  · have hNone : s.a5.toNat = 0 := congrArg BitVec.toNat hEmpty
    rw [exec_mFind_eq_find hF hd hn, hNone, findMatch_of_best hMax hThreshold rfl]
    simp only [findEnd, if_true, ite_self]
    rfl

/-! ### The scan up to a place (R175)

The candidates before `k` have additional lengths `add`; the scan that has not met its cut-off on them goes on at `k`
with the best of them. -/

/-- The best of the candidates before `k`, by their additional lengths `add`: the first of the longest. -/
def bestBefore (s : State) (add : Nat → Nat) : Nat → Best
  | 0 => { len := 0, dist := 0 }
  | k + 1 => (bestBefore s add k).update (add k) (s.candCell k).toNat

section scan

variable {s : State} {add : Nat → Nat}

theorem bestBefore_len_le {k n : Nat} (h : ∀ i, i < k → add i ≤ n) : (bestBefore s add k).len ≤ n := by
  induction k with
  | zero => exact Nat.zero_le n
  | succ k ih =>
    rw [bestBefore, Best.update_len]
    exact max_le (ih fun i hi => h i (by omega)) (h k (by omega))

/-- The first of the longest, when any is longer than 0, is the best (R175). -/
theorem bestBefore_eq {k j : Nat} (hj : j < k) (hLongest : ∀ i, i < k → add i ≤ add j)
    (hFirst : ∀ i, i < j → add i < add j) :
    bestBefore s add k =
      if add j = 0 then { len := 0, dist := 0 } else { len := add j, dist := (s.candCell j).toNat } := by
  induction k with
  | zero => exact absurd hj (Nat.not_lt_zero j)
  | succ k ih =>
    rw [bestBefore]
    rcases Nat.lt_succ_iff_lt_or_eq.1 hj with hlt | rfl
    · have hk : add k ≤ add j := hLongest k (Nat.lt_succ_self k)
      rw [ih hlt fun i hi => hLongest i (by omega)]
      split_ifs with h0
      · exact Best.update_of_le (hk.trans h0.le) _
      · exact Best.update_of_le hk _
    · split_ifs with h0
      · have hStart : j = 0 := by
          by_contra hne
          have := hFirst 0 (Nat.pos_of_ne_zero hne)
          omega
        subst hStart
        exact Best.update_of_le h0.le _
      · have hShorter : (bestBefore s add j).len ≤ add j - 1 := bestBefore_len_le fun i hi => by
          have := hFirst i hi
          omega
        exact Best.update_of_lt (by omega) _

variable {start cap stop : Nat}

/-- One candidate of the scan. -/
theorem scanCandidates_succ {fuel i n : Nat} {b : Best} (hi : i < s.a5.toNat) (hn : s.a5.toNat ≤ s.cfg.candCap)
    (hLen : mlen s start (s.candCell i).toNat cap = .ok n) :
    scanCandidates s start cap stop (fuel + 1) i b =
      if stop ≤ (b.update n (s.candCell i).toNat).len then .ok (b.update n (s.candCell i).toNat)
      else scanCandidates s start cap stop fuel (i + 1) (b.update n (s.candCell i).toNat) := by
  rw [scanCandidates, readCand_ok hi (hi.trans_le hn)]
  simp only [hLen]

theorem scanCandidates_raises {fuel i : Nat} {b : Best} {e : Abort} (hi : i < s.a5.toNat)
    (hn : s.a5.toNat ≤ s.cfg.candCap) (hLen : mlen s start (s.candCell i).toNat cap = .error e) :
    scanCandidates s start cap stop (fuel + 1) i b = .error e := by
  rw [scanCandidates, readCand_ok hi (hi.trans_le hn)]
  simp only [hLen]

theorem scanCandidates_reaches {k : Nat} (fuel : Nat) (hk : k ≤ s.a5.toNat) (hn : s.a5.toNat ≤ s.cfg.candCap)
    (hLen : ∀ i, i < k → mlen s start (s.candCell i).toNat cap = .ok (add i))
    (hBelow : ∀ i, i < k → add i < stop) :
    scanCandidates s start cap stop (k + fuel) 0 { len := 0, dist := 0 } =
      scanCandidates s start cap stop fuel k (bestBefore s add k) := by
  induction k generalizing fuel with
  | zero => rw [Nat.zero_add, bestBefore]
  | succ k ih =>
    have hStop : (bestBefore s add (k + 1)).len < stop := by
      have := bestBefore_len_le (s := s) (add := add) (k := k + 1) (n := stop - 1) fun i hi => by
        have := hBelow i hi
        omega
      have := hBelow k (by omega)
      omega
    rw [Nat.add_assoc, Nat.add_comm 1 fuel,
      ih (fuel + 1) (by omega) (fun i hi => hLen i (by omega)) (fun i hi => hBelow i (by omega)),
      scanCandidates_succ (by omega) hn (hLen k (by omega)), ← bestBefore, if_neg (Nat.not_le.2 hStop)]

/-- The scan ends after candidate `m`, the last or the one that meets the cut-off (R178). -/
theorem scanCandidates_ends {m : Nat} (hm : m < s.a5.toNat) (hn : s.a5.toNat ≤ s.cfg.candCap)
    (hLen : ∀ i, i ≤ m → mlen s start (s.candCell i).toNat cap = .ok (add i)) (hBelow : ∀ i, i < m → add i < stop)
    (hLast : m + 1 = s.a5.toNat ∨ stop ≤ (bestBefore s add (m + 1)).len) :
    scanCandidates s start cap stop s.a5.toNat 0 { len := 0, dist := 0 } = .ok (bestBefore s add (m + 1)) := by
  obtain ⟨fuel, hFuel⟩ : ∃ fuel, s.a5.toNat = m + (fuel + 1) := ⟨s.a5.toNat - m - 1, by omega⟩
  rw [hFuel, scanCandidates_reaches (fuel + 1) hm.le hn (fun i hi => hLen i hi.le) hBelow,
    scanCandidates_succ hm hn (hLen m le_rfl), ← bestBefore]
  split_ifs with hStop
  · rfl
  · obtain rfl : fuel = 0 := by
      have := hLast.resolve_right hStop
      omega
    rfl

end scan

/-! ### The statements -/

/-- `mlen` gives the length of the match (R171), which is one number. -/
theorem mlen_eq_of_isMatchLength {s : State} {current distance maxLen n : Nat} (hd : s.dlen.toNat ≤ s.cfg.dataCap)
    (h₁ : current ≤ s.dlen.toNat) (h₂ : distance ≠ 0) (h₃ : distance ≤ current)
    (h : IsMatchLength s current distance maxLen n) : mlen s current distance maxLen = .ok n := by
  obtain ⟨m, e, hm⟩ := mlen_spec maxLen hd h₁ h₂ h₃
  rw [e, hm.unique h]

/-- A length is measured only with the preconditions of `mlen` met (R171). -/
theorem mlen_ok {s : State} {current distance maxLen n : Nat} (hd : s.dlen.toNat ≤ s.cfg.dataCap)
    (h : mlen s current distance maxLen = .ok n) :
    current ≤ s.dlen.toNat ∧ distance ≠ 0 ∧ distance ≤ current := by
  obtain ⟨-, e⟩ | ⟨-, -, e⟩ | ⟨-, -, -, e⟩ | ⟨hMet, -⟩ := mlen_cases current distance maxLen hd
  · cases e.symm.trans h
  · cases e.symm.trans h
  · cases e.symm.trans h
  · exact hMet

theorem toNat_ne_zero {w : Word} (h : w ≠ 0) : w.toNat ≠ 0 :=
  fun e => h (BitVec.eq_of_toNat_eq e)

/-- Settles O57: the scan reaches candidate `k`, where `mlen` raises. -/
theorem mFindRaisesAtTheCandidateReached : Obligations.MFindRaisesAtTheCandidateReached := by
  intro s k hF hd hn hMax hThreshold hk hBefore
  have hRaise {c : Cause} (hLen : mlen s (s.a0.toNat + s.a4.toNat) (s.candCell k).toNat (s.a1.toNat - s.a4.toNat) =
      .error (.raise c)) : exec .mFind s = .next (s.raise c) := by
    choose! add hAdd using fun i (hi : i < k) => (hBefore i hi).2.2.2
    have hReach := scanCandidates_reaches (s := s) (add := add) (k := k) (start := s.a0.toNat + s.a4.toNat)
      (cap := s.a1.toNat - s.a4.toNat) (stop := s.a3.toNat - s.a4.toNat) (s.a5.toNat - k - 1 + 1) hk.le hn
      (fun i hi => ?_) (fun i hi => (hAdd i hi).1)
    · rw [show k + (s.a5.toNat - k - 1 + 1) = s.a5.toNat by omega, scanCandidates_raises hk hn hLen] at hReach
      rw [exec_mFind_eq_find hF hd hn, findMatch_of_error hMax hThreshold hReach]
      rfl
    · obtain ⟨hEnd, hZero, hDist, -⟩ := hBefore i hi
      exact mlen_eq_of_isMatchLength hd hEnd (toNat_ne_zero hZero) hDist (hAdd i hi).2
  exact ⟨fun hEnd => hRaise (mlen_of_currentBeyondEnd hEnd _ _), fun hEnd =>
    ⟨fun hZero => hRaise (mlen_of_zeroDistance hEnd (congrArg BitVec.toNat hZero) _),
      fun hDist => hRaise (mlen_of_distanceBeyondStart hEnd hDist _)⟩⟩

/-- Settles O55: the scan ends after candidate `m` with the best of `0 .. m`, which is the first of the longest. -/
theorem mFindReturnsTheFirstLongest : Obligations.MFindReturnsTheFirstLongest := by
  refine ⟨decode_encode .mFind, ?_⟩
  intro s m j add hF hd hn hMax hThreshold hEnd hm hj hCand hLongest hFirst hBelow hLast
  have hBest := bestBefore_eq (s := s) (Nat.lt_succ_of_le hj) (fun i hi => hLongest i (Nat.le_of_lt_succ hi)) hFirst
  have hLongestLen : (bestBefore s add (m + 1)).len = add j := by
    rw [hBest]
    split_ifs with h0
    · exact h0.symm
    · rfl
  have hLen (i : Nat) (hi : i ≤ m) :
      mlen s (s.a0.toNat + s.a4.toNat) (s.candCell i).toNat (s.a1.toNat - s.a4.toNat) = .ok (add i) := by
    obtain ⟨hZero, hDist, hMatch⟩ := hCand i hi
    exact mlen_eq_of_isMatchLength hd hEnd (toNat_ne_zero hZero) hDist hMatch
  have hScan := scanCandidates_ends hm hn hLen hBelow (hLongestLen.symm ▸ hLast)
  rw [exec_mFind_eq_find hF hd hn, findMatch_of_best hMax hThreshold hScan, hBest]
  by_cases h0 : add j = 0
  · rw [if_pos h0, if_pos (.inl h0), findEnd_zero]
    rfl
  · have hDist : (s.candCell j).toNat ≠ 0 := toNat_ne_zero (hCand j hj).1
    rw [if_neg h0, findEnd_dist s _ _ _ hDist]
    by_cases hMin : add j + s.a4.toNat < s.a2.toNat
    · rw [if_pos hMin, if_pos (.inr hMin)]
      rfl
    · rw [if_neg hMin, if_neg (not_or_intro h0 hMin)]
      rfl

/-- The match of length `n` at candidate `j` of the list, past the guaranteed elements (R174, R175). -/
structure MatchAt (s : State) (j n : Nat) : Prop where
  index_lt : j < s.a5.toNat
  dist_ne_zero : (s.candCell j).toNat ≠ 0
  dist_le : (s.candCell j).toNat ≤ s.a0.toNat + s.a4.toNat
  isLength : IsMatchLength s (s.a0.toNat + s.a4.toNat) (s.candCell j).toNat (s.a1.toNat - s.a4.toNat) n
  pos : 0 < n

/-- What the scan of `fdm` gives: a fault, no match, or the match at a candidate. -/
theorem scan_finds {s : State} (hd : s.dlen.toNat ≤ s.cfg.dataCap) (hn : s.a5.toNat ≤ s.cfg.candCap)
    {r : Except Abort Best}
    (hScan : scanCandidates s (s.a0.toNat + s.a4.toNat) (s.a1.toNat - s.a4.toNat) (s.a3.toNat - s.a4.toNat)
      s.a5.toNat 0 { len := 0, dist := 0 } = r) :
    (∃ c, r = .error (.raise c)) ∨ r = .ok { len := 0, dist := 0 } ∨
      ∃ j n, r = .ok { len := n, dist := (s.candCell j).toNat } ∧ MatchAt s j n := by
  obtain ⟨-, c, e, -⟩ | ⟨b, m, e, -, hm, -, add, hAdd, -, -, -, -, hBest⟩ :=
    scan_spec (s.a0.toNat + s.a4.toNat) (s.a1.toNat - s.a4.toNat) (s.a3.toNat - s.a4.toNat) hd hn s.a5.toNat 0
      { len := 0, dist := 0 } (Nat.zero_add _).le <;> rw [e] at hScan
  · exact .inl ⟨c, hScan.symm⟩
  · obtain rfl | ⟨j, hj₀, hj, hPos, rfl, -⟩ := hBest
    · exact .inr (.inl hScan.symm)
    · obtain ⟨hLen, hMatch⟩ := hAdd j hj₀ hj
      obtain ⟨-, hZero, hDist⟩ := mlen_ok hd hLen
      exact .inr (.inr ⟨j, add j, hScan.symm, by omega, hZero, hDist, hMatch, hPos⟩)

/-- When `M.FIND` ends with a value, it is the match at a candidate with the guaranteed length added (R174, R176). -/
theorem exec_mFind_found {s t : State} (h : exec .mFind s = .next t) (hF : Serving s) (hV : t.stV = true) :
    s.a4.toNat ≤ s.a1.toNat ∧ ∃ j n, MatchAt s j n ∧ s.a2.toNat ≤ n + s.a4.toNat ∧
      t.r0.toNat = n + s.a4.toNat ∧ t.r1 = s.candCell j := by
  have notRaised {c : Cause} (e : exec .mFind s = .next (s.raise c)) : False := by
    rw [e] at h
    cases h
    cases hV
  rcases Nat.lt_or_ge s.cfg.dataCap s.dlen.toNat with hd | hd
  · exact (notRaised (exec_mFind_overlong hF (.inl hd))).elim
  rcases Nat.lt_or_ge s.cfg.candCap s.a5.toNat with hn | hn
  · exact (notRaised (exec_mFind_overlong hF (.inr hn))).elim
  have hExec := exec_mFind_eq_find hF hd hn
  by_cases hUnder : s.a1.toNat < s.a4.toNat ∨ s.a3.toNat < s.a4.toNat
  · rw [findMatch_of_underflow hUnder] at hExec
    exact (notRaised hExec).elim
  have hMax : s.a4.toNat ≤ s.a1.toNat := by omega
  have hThreshold : s.a4.toNat ≤ s.a3.toNat := by omega
  refine ⟨hMax, ?_⟩
  obtain ⟨c, hScan⟩ | hScan | ⟨j, n, hScan, hMatch⟩ := scan_finds hd hn rfl
  · rw [findMatch_of_error hMax hThreshold hScan] at hExec
    exact (notRaised hExec).elim
  · rw [hExec, findMatch_of_best hMax hThreshold hScan, findEnd_zero] at h
    cases h
    cases hV
  · rw [hExec, findMatch_of_best hMax hThreshold hScan, findEnd_dist s _ _ _ hMatch.dist_ne_zero] at h
    split_ifs at h with hMin
    · cases h
      cases hV
    · cases h
      obtain ⟨hCap, -⟩ := hMatch.isLength
      have := s.a1.isLt
      exact ⟨j, n, hMatch, Nat.not_lt.1 hMin, toNat_ofNat_of_lt (by omega), rfl⟩

/-- Settles O58: the bounds are those of a match length. -/
theorem mFindResultBounds : Obligations.MFindResultBounds := by
  intro s t h hF hV
  obtain ⟨hMax, j, n, hMatch, hMin, hR0, hR1⟩ := exec_mFind_found h hF hV
  obtain ⟨hCap, hLeft, -, -⟩ := hMatch.isLength
  have := hMatch.pos
  rw [hR0, hR1]
  exact ⟨hMin, by omega, by omega, by omega, Nat.pos_of_ne_zero hMatch.dist_ne_zero, j, hMatch.index_lt, rfl⟩

/-- Settles O59: below the guaranteed length the premise, above it the match that was measured. -/
theorem mFindReturnsATrueMatch : Obligations.MFindReturnsATrueMatch := by
  intro s t h hF hV hPremise k hk
  obtain ⟨-, j, n, hMatch, -, hR0, hR1⟩ := exec_mFind_found h hF hV
  obtain ⟨hDist, hGuaranteed⟩ := hPremise j hMatch.index_lt
  rw [hR0] at hk
  rw [hR1]
  rcases Nat.lt_or_ge k s.a4.toNat with hLow | hHigh
  · exact hGuaranteed k hLow
  · obtain ⟨-, -, hEqual, -⟩ := hMatch.isLength
    have hMeasured := hEqual (k - s.a4.toNat) (by omega)
    rwa [show s.a0.toNat + s.a4.toNat + (k - s.a4.toNat) = s.a0.toNat + k by omega,
      show s.a0.toNat + s.a4.toNat - (s.candCell j).toNat + (k - s.a4.toNat) = s.a0.toNat - (s.candCell j).toNat + k by
        omega] at hMeasured

end Sys2Proof.Machine
end
